-- ==== Sys2Proof/Word.lean ====
section
/-! DEFINITION. The word types of the suffix-array sorter (00_scope.md R7, R9). -/

namespace Sys2Proof

/-- One byte of `T_MEM`, unsigned 0..255 (00_scope.md R10). -/
abbrev Byte := BitVec 8

/-- One register, one word of `SA_MEM`, one command word or one transaction descriptor (00_scope.md R7). -/
abbrev Word := BitVec 32

/-- A host byte address (20_memory.md R60). -/
abbrev Addr := BitVec 23

/-- A block length or a start pointer (10_state.md R30, R31). -/
abbrev Len := BitVec 24

end Sys2Proof
end

