-- ==== Sys2Proof/Config.lean ====
section
/-! DEFINITION. The implementation parameters of 00_scope.md R7 and the free values of the model. An `opaque`
constant is a value the spec leaves open: nothing in Lean can evaluate it, so a claim holds whatever it is. -/

namespace Sys2Proof

/-! ## Types the hidden engine state and the free values need -/

/-- A frame of the explicit stack: "(first,last,depth,limit)" (10_state.md R40), 32-bit signed each (92 D20). -/
structure Frame where
  first : BitVec 32
  last  : BitVec 32
  depth : BitVec 32
  limit : BitVec 32
  deriving DecidableEq, Repr, Inhabited

/-- An index range `[base, base + len)` of `SA` (42_bwt_engine.md R177). -/
structure Region where
  base : Nat
  len  : Nat
  deriving DecidableEq, Repr, Inhabited

/-- The budget "(remaining-comparisons, chances-remaining)" (10_state.md R41). -/
structure Budget where
  remain  : Nat
  chances : Nat
  deriving DecidableEq, Repr, Inhabited

/-- Suffix classes of 42_bwt_engine.md R171 (`bStar` is a type-B position followed by a type-A one). -/
inductive SuffixClass where
  | a | b | bStar
  deriving DecidableEq, Repr, Inhabited

/-- The sub-sorts of 42_bwt_engine.md R174-R176. -/
inductive SortMethod where
  | none | insertion | multikey | heap | mergeForward | mergeBackward | trIntro | lsSort
  deriving DecidableEq, Repr, Inhabited

/-- What an internal engine step may do beside the steps of the sort (42_bwt_engine.md R168, R173, R177, R179); which of
these it does is free (log 8). -/
inductive EngineMove where
  | silent
  | setBucketA (c0 : Byte) (v : BitVec 32)
  | setBucketB (c0 c1 : Byte) (v : BitVec 32)
  /-- Move the work buffer. -/
  | buffer (r : Region)
  deriving DecidableEq, Repr, Inhabited

/-- The settings of `START_TIE` (42_bwt_engine.md R163). -/
inductive StartTie where
  | any | lowest
  deriving DecidableEq, Repr, Inhabited

namespace Config

/-! ## Fixed parameters (00_scope.md R7) -/

/-- The default of `N_MAX`, the largest block length the block accepts. `N_MAX` itself is a parameter of the block and
stands in State, where the register `NMAX` reads it (10_state.md R33; log 12). -/
def nMaxDefault : Len := 900000#24

/-- The legal range of `N_MAX` is 1 to this. -/
def nMaxLimit : Nat := 1048572

/-- `T_DEPTH = 4 * ceil((N_MAX + 1) / 4)`. -/
def tDepth (nMax : Nat) : Nat := 4 * ((nMax + 1 + 3) / 4)

/-- `SA_DEPTH = N_MAX + 1`. -/
def saDepth (nMax : Nat) : Nat := nMax + 1

/-- The constant of register `ID` (10_state.md R23). -/
def idValue : Word := 0x53410001#32

/-- `SS_BLOCKSIZE`. -/
def ssBlockSize : Nat := 1024

/-- `SS_INSERTIONSORT_THRESHOLD`. -/
def ssInsertionSortThreshold : Nat := 8

/-- `STACK_SIZE`. -/
def stackSize : Nat := 64

/-- `BUCKET_A_SIZE`. -/
def bucketASize : Nat := 256

/-- `BUCKET_B_SIZE`. -/
def bucketBSize : Nat := 65536

/-- `START_TIE`: "models take `ANY`" (00_scope.md R7, 42_bwt_engine.md R163; log 10). -/
def startTie : StartTie := .any

/-! ## Parameters the spec leaves OPEN (00_scope.md R7) -/

/-- `INTERNAL_FAULT_POSSIBLE` (92 D19; log 11). -/
opaque internalFaultPossible : Bool

/-- `SS_DEPTH_LIMIT`, as a function of the size of the block SSSORT takes up (91 N7; log 8). It fits the 32 signed bits of
a frame's limit (10_state.md R40). -/
opaque ssDepthLimit : Nat → BitVec 31

/-- The limit of a frame that TRSORT pushes, as a function of the size of its range. The model's choice: the spec gives
`SS_DEPTH_LIMIT` for the substring sort alone and no limit of a frame in TRSORT; nothing reads it there (log 35). -/
opaque trDepthLimit : Nat → BitVec 31

/-- `TR_BUDGET_INIT` (91 N8; log 8). -/
opaque trBudgetInit : Budget

/-- What `remain` is refilled to, given the range charged and the budget (42_bwt_engine.md R176 step 3; log 26). -/
opaque trRefill : Nat → Budget → Nat

/-- `SS_MERGE_POLICY`: from the available buffer size and the size of the range, whether it is merged forward (91 N9;
log 8). -/
opaque ssMergeForward : Nat → Nat → Bool

/-- Whether bucket A counts positions of a class (91 N6; log 27). -/
opaque bucketACounts : SuffixClass → Bool

/-- Whether bucket B counts positions of a class (91 N6; log 27). -/
opaque bucketBCounts : SuffixClass → Bool

/-! ## Free values: the `draw` of 00_scope.md R10, by the number of the draw (log 21) -/

/-- A free byte. -/
opaque freeByte : Nat → Byte

/-- A free 32-bit word. -/
opaque freeWord : Nat → Word

/-- A free number: a delay, a number of internal steps, a row among equal rotations. -/
opaque freeNat : Nat → Nat

/-- A free internal move of the engine. -/
opaque freeMove : Nat → EngineMove

/-- The free class of the last position of a block (91 N6; log 27). -/
opaque freeClass : Nat → SuffixClass

/-- Free places of the regions PA, ISA and buffer (91 N11; log 8). -/
opaque freeRegions : Nat → Region × Region × Region

/-- The byte the engine would take from an index of `T` that nothing has written. No accepted run meets one
(42_bwt_engine.md R160); log 22. -/
opaque unwrittenByte : Nat → Byte

end Config
end Sys2Proof
end

