-- ==== Sys2Proof/Syntax.lean ====
section
/-! DEFINITION. The instructions of spec/opcode_table.json, the packets that encode them (30_encoding.md R90), and the
host script (30_encoding.md R110-R113). -/

namespace Sys2Proof

/-- One constructor per row of spec/opcode_table.json. -/
inductive Instr where
  /-- `NOP`, a command word (41_commands.md R141). -/
  | nop
  /-- `BWT`, a command word (41_commands.md R142). -/
  | bwt
  /-- `CLEAR`, a command word (41_commands.md R143). -/
  | clear
  /-- `RD8 addr` (40_bus_access.md R122). -/
  | rd8 (addr : Addr)
  /-- `RD32 addr` (40_bus_access.md R121). -/
  | rd32 (addr : Addr)
  /-- `WR8 addr, D8` (40_bus_access.md R124). -/
  | wr8 (addr : Addr) (data : Byte)
  /-- `WR32 addr, D32` (40_bus_access.md R123). -/
  | wr32 (addr : Addr) (data : Word)
  deriving DecidableEq, Repr

/-- The data operand that follows a `bus` descriptor (30_encoding.md R90, R91). -/
inductive DataOperand where
  | none
  | d8 (data : Byte)
  | d32 (data : Word)
  deriving DecidableEq, Repr

/-- An encoded instruction: a `cmd` word, or a `bus` descriptor with its data operand (30_encoding.md R90; log 1). -/
inductive Packet where
  | cmd (w : Word)
  | bus (w : Word) (data : DataOperand)
  deriving DecidableEq, Repr

/-- A label of a host script (30_encoding.md R110): one the program writes, or the fresh local label of the
pseudo-instruction that stands on source line `line` (R112). -/
inductive Label where
  | named (id : Nat)
  | fresh (line : Nat)
  deriving DecidableEq, Repr

/-- A line of a host script after the expansion of its pseudo-instructions (30_encoding.md R110, R113). -/
inductive Line where
  /-- A label `name:`. -/
  | label (l : Label)
  /-- A transaction line, as the packet it encodes to; a `cmd` packet is a word presented to `CMD` (log 3). -/
  | transaction (p : Packet)
  /-- `jbit b, label`: jump if bit `b` of `RES` is 1. -/
  | jbit (b : Fin 32) (l : Label)
  /-- `jnbit b, label`: jump if bit `b` of `RES` is 0. -/
  | jnbit (b : Fin 32) (l : Label)
  /-- `jmp label`. -/
  | jmp (l : Label)
  /-- `halt`: ends the host program. -/
  | halt
  /-- `expect RES, V`: the host checks that the last read returned `V`. -/
  | expect (v : Word)
  deriving DecidableEq, Repr

/-- The symbols of 30_encoding.md R111. -/
inductive Symbol where
  | regId | regCmd | regStatus | regLen | regStart | regIrqEn | regNMax | tBase | saBase
  | sa (i : Nat)
  deriving DecidableEq, Repr

/-- `ADDR` and `DATA` of a script line: literals and symbols combined with `+` (30_encoding.md R110). -/
inductive Operand where
  | lit (n : Nat)
  | sym (s : Symbol)
  | add (x y : Operand)
  deriving DecidableEq, Repr

/-- The command names of the pseudo-instruction `cmd` (30_encoding.md R112). -/
inductive CommandName where
  | nop | bwt | clear
  deriving DecidableEq, Repr

/-- A line of a host script as it is written, pseudo-instructions among them (30_encoding.md R110, R112, R113). -/
inductive SourceLine where
  | label (id : Nat)
  | rd8 (addr : Operand)
  | rd32 (addr : Operand)
  | wr8 (addr data : Operand)
  | wr32 (addr data : Operand)
  | jbit (b : Fin 32) (id : Nat)
  | jnbit (b : Fin 32) (id : Nat)
  | jmp (id : Nat)
  | halt
  | cmd (c : CommandName)
  | waitIdle
  | bwt (n : Operand)
  | loadBlock (bytes : List Operand)
  | expect (v : Operand)
  deriving DecidableEq, Repr

end Sys2Proof
end

