-- ==== Sys2Proof/Machine/State.lean ====
section
/-! DEFINITION. The state of the block, its engine and its host, as plain data (10_state.md), and the state after reset
(10_state.md R47). INVENTORY.md lists every field with its rule. -/

namespace Sys2Proof.Machine

/-- Reasons of `raise ModelFault(reason)` (00_scope.md R10). The operation that meets one sets `State.modelFault`;
`step` answers `.fault` in every state that holds one (10_state.md R46; log 4). -/
inductive Fault where
  /-- Raised by a bus transaction whose address, size or alignment no window takes (60_exceptions.md R205). Safe: the
  model stops where the host would see an error response and go on. -/
  | busError (addr : Addr)
  /-- Raised by BWT over a byte of `T[0..n]` that nothing has written: "BWT input byte never written" (41_commands.md
  R142). Safe: the model stops where the hardware would sort whatever the storage holds. -/
  | unwrittenInput
  deriving DecidableEq, Repr

/-- Why a step has no meaning. All are safe: the model stops. -/
inductive Refusal where
  /-- Raised by a refused arm of `exec` (an instruction with no meaning yet). Safe. No arm is refused now. -/
  | notModelled (mnemonic : String)
  /-- Raised by the host agent on a descriptor with bits [28:23] set: "bus: MBZ bits set" (30_encoding.md R92). Safe:
  such a descriptor spells no transaction. -/
  | busMbzSet
  /-- Raised by the host agent on a descriptor with `SZ` 01 or 11: "bus: reserved SZ" (30_encoding.md R92). Safe: such
  a descriptor spells no transaction. -/
  | busReservedSize
  /-- Raised by the host agent on a descriptor that comes with a data operand of another size than the one `W` and `SZ`
  fix (30_encoding.md R90; log 1). Safe: no transaction is spelt. -/
  | busOperandSize
  /-- Raised by the host agent on a jump to a label the script does not define (30_encoding.md R113; log 18). Safe. -/
  | undefinedLabel (l : Label)
  deriving DecidableEq, Repr

/-- `STATUS.ERR_CODE`: the codes of 60_exceptions.md R200. Codes 5-15 are "never produced" and have no constructor
(log 24). -/
inductive ErrCode where
  | none | illegalCmd | len | wrap | internal
  deriving DecidableEq, Repr

/-- The fields of `STATUS` (10_state.md R25). -/
structure Status where
  busy    : Bool
  done    : Bool
  err     : Bool
  viol    : Bool
  errCode : ErrCode
  deriving DecidableEq, Repr

/-- `PHASE` (10_state.md R37). -/
inductive Phase where
  | idle | classify | sssort | trsort | construct
  deriving DecidableEq, Repr

/-- Sparse storage: index and value pairs, indexes strictly rising (log 20). -/
abbrev Memory (α : Type) := List (Nat × α)

/-- The canonical form of a memory: indexes strictly rising. An index is listed exactly when it has been written
(10_state.md R45), so no entry can equal what an unlisted index holds. -/
abbrev Memory.wf {α : Type} (m : Memory α) : Prop := (m.map Prod.fst).Pairwise (· < ·)

/-- The engine's hidden state (10_state.md R37-R42). -/
structure Engine where
  phase   : Phase
  nLat    : Len
  bucketA : Memory (BitVec 32)
  bucketB : Memory (BitVec 32)
  stack   : Vector Frame 64
  ssize   : Nat
  budget  : Budget
  m       : Nat
  pa      : Region
  isa     : Region
  buffer  : Region
  method  : SortMethod
  /-- How far ahead TRSORT compares: how many B* suffixes further on the ranks it reads stand (42_bwt_engine.md R175). -/
  depth   : Nat
  /-- How many entries of PA, from its first on, SSSORT has merged into one sorted run (42_bwt_engine.md R174). -/
  sorted  : Nat
  /-- How many entries of PA, from its first on, SSSORT has taken up in blocks, or TRSORT in groups of one rank in this
  round (42_bwt_engine.md R174, R175). -/
  taken   : Nat
  /-- The engine's choice among the rows of equal rotations, which with the block fixes `s` (42_bwt_engine.md R161, R163,
  R179). -/
  tie     : Nat
  /-- The model's own: free internal steps before the phase's next step (log 7). -/
  work    : Nat
  deriving DecidableEq, Repr

/-- The host agent (00_scope.md R13, 30_encoding.md R110, R113). -/
structure Agent where
  script   : List Line
  /-- The index of the next line. -/
  line     : Nat
  /-- `RES`, the last read line's result. -/
  res      : Word
  halted   : Bool
  /-- Every `expect` so far held (log 19). -/
  expectOk : Bool
  deriving DecidableEq, Repr

structure State where
  status     : Status
  len        : Len
  startPtr   : Len
  irqEn      : BitVec 3
  /-- `NMAX`, the parameter `N_MAX` of the block (10_state.md R33, 00_scope.md R7); nothing changes it (log 12). -/
  nMax       : Len
  /-- `T_MEM`: the bytes written since reset, by index (10_state.md R35, R45). -/
  tMem       : List Host.Cell
  /-- `SA_MEM`: the words written since reset, by index (10_state.md R36, R45). -/
  saMem      : Memory Word
  engine     : Engine
  /-- `MODEL_FAULT`, with its reason (10_state.md R46). -/
  modelFault : Option Fault
  agent      : Agent
  /-- The model's own: host steps before the engine's next step (log 6). -/
  hostTurns  : Nat
  /-- The model's own: the levels of the reset input at the coming steps (log 16). -/
  resetIn    : List Bool
  /-- The model's own: the number of the next free draw (log 21). -/
  draws      : Nat
  deriving DecidableEq, Repr

/-- `STATUS` after reset (10_state.md R47). -/
def Status.reset : Status := ⟨false, false, false, false, .none⟩

/-- The engine after reset: `PHASE = IDLE` (10_state.md R47); the rest is unspecified and takes the values log 13
names. -/
def Engine.reset : Engine where
  phase := .idle
  nLat := 0#24
  bucketA := []
  bucketB := []
  stack := Vector.replicate 64 ⟨0#32, 0#32, 0#32, 0#32⟩
  ssize := 0
  budget := ⟨0, 0⟩
  m := 0
  pa := ⟨0, 0⟩
  isa := ⟨0, 0⟩
  buffer := ⟨0, 0⟩
  method := .none
  depth := 0
  sorted := 0
  taken := 0
  tie := 0
  work := 0

/-- The host agent before any script is loaded (log 14). -/
def Agent.initial : Agent := ⟨[], 0, 0#32, false, true⟩

/-- The machine right after reset, at the model's initial state (10_state.md R47). -/
def State.reset : State where
  status := Status.reset
  len := 0#24
  startPtr := 0#24
  irqEn := 0#3
  nMax := Config.nMaxDefault
  tMem := []
  saMem := []
  engine := Engine.reset
  modelFault := none
  agent := Agent.initial
  hostTurns := 0
  resetIn := []
  draws := 0

end Sys2Proof.Machine
end

