-- ==== Sys2Proof/Machine/Flags.lean ====
section
/-! DEFINITION. Every computation over `STATUS` and `IRQ_EN`: what each event writes (10_state.md R25-R29,
60_exceptions.md R201, R204, R210) and the words the host reads. -/

namespace Sys2Proof.Machine

/-- The code of an error in `STATUS[7:4]` (60_exceptions.md R200). -/
def ErrCode.bits (c : ErrCode) : BitVec 4 :=
  match c with
  | .none => 0#4
  | .illegalCmd => 1#4
  | .len => 2#4
  | .wrap => 3#4
  | .internal => 4#4

/-- The word a read of `STATUS` returns: `{24'b0, ERR_CODE, VIOL, ERR, DONE, BUSY}` (30_encoding.md R99). -/
def Status.word (f : Status) : Word :=
  0#24 ++ f.errCode.bits ++ BitVec.ofBool f.viol ++ BitVec.ofBool f.err ++ BitVec.ofBool f.done ++
    BitVec.ofBool f.busy

/-- `set_error(code)`: `ERR <- 1; ERR_CODE <- code; DONE <- 0` (60_exceptions.md R201). -/
def Status.setError (c : ErrCode) (f : Status) : Status :=
  { f with err := true, errCode := c, done := false }

/-- A refused write: `VIOL <- 1` (60_exceptions.md R204). -/
def Status.refuse (f : Status) : Status :=
  { f with viol := true }

/-- BWT acceptance: `DONE <- 0; ERR <- 0; ERR_CODE <- 0; BUSY <- 1`, `VIOL` kept (41_commands.md R142). -/
def Status.accept (f : Status) : Status :=
  { f with done := false, err := false, errCode := .none, busy := true }

/-- CLEAR: `DONE <- 0; ERR <- 0; ERR_CODE <- 0; VIOL <- 0` (41_commands.md R143). -/
def Status.clear (f : Status) : Status :=
  { f with done := false, err := false, errCode := .none, viol := false }

/-- Completion: `BUSY <- 0; DONE <- 1` (42_bwt_engine.md R166). -/
def Status.complete (f : Status) : Status :=
  { f with busy := false, done := true }

/-- Internal-fault completion: `BUSY <- 0; set_error(ERR_INTERNAL)` (42_bwt_engine.md R167). -/
def Status.internalFault (f : Status) : Status :=
  ({ f with busy := false } : Status).setError .internal

/-- The interrupt level of given status flags and enables (60_exceptions.md R210). -/
def irqLevel (f : Status) (enable : BitVec 3) : Bool :=
  (f.done && enable.getLsbD 0) || (f.err && enable.getLsbD 1) || (f.viol && enable.getLsbD 2)

/-- The interrupt output `IRQ` (10_state.md R44). -/
def State.irq (s : State) : Bool :=
  irqLevel s.status s.irqEn

end Sys2Proof.Machine
end

