-- ==== Sys2Proof/Machine/Operands.lean ====
section
/-! DEFINITION. Address decoding (20_memory.md R60, 40_bus_access.md R120) and the byte lanes of a word access to
`T_MEM` (20_memory.md R66). -/

namespace Sys2Proof.Machine

/-- The two sizes of a host transaction (20_memory.md R68). -/
inductive AccessSize where
  | byte | word
  deriving DecidableEq, Repr

/-- The windows of the host address space (20_memory.md R60). -/
inductive Window where
  | reg | tMem | saMem
  deriving DecidableEq, Repr

/-- `T_BASE` (20_memory.md R60). -/
def tBase : Nat := 0x100000

/-- `SA_BASE` (20_memory.md R60). -/
def saBase : Nat := 0x400000

/-- `decode(addr, size)` within the register window (40_bus_access.md R120): only aligned words. -/
def decodeReg (a : Nat) (size : AccessSize) : Option (Window × Nat) :=
  if size = .word ∧ a % 4 = 0 then some (.reg, a) else none

/-- `decode(addr, size)` within the `T_MEM` window at index `i` (40_bus_access.md R120): bytes and aligned words below
`T_DEPTH`. -/
def decodeT (nMax i : Nat) (size : AccessSize) : Option (Window × Nat) :=
  match size with
  | .byte => if i < Config.tDepth nMax then some (.tMem, i) else none
  | .word => if i % 4 = 0 ∧ i + 3 < Config.tDepth nMax then some (.tMem, i) else none

/-- `decode(addr, size)` within the `SA_MEM` window at byte offset `o` (40_bus_access.md R120): only aligned words below
`SA_DEPTH`. -/
def decodeSa (nMax o : Nat) (size : AccessSize) : Option (Window × Nat) :=
  if size = .word ∧ o % 4 = 0 ∧ o / 4 < Config.saDepth nMax then some (.saMem, o / 4) else none

/-- `decode(addr, size)` of a block of this `N_MAX`: the window and index of a transaction; `none` is a `BusError`
(40_bus_access.md R120). -/
def decodeAddr (nMax : Nat) (addr : Addr) (size : AccessSize) : Option (Window × Nat) :=
  let a := addr.toNat
  if a ≤ 0x0000FF then decodeReg a size
  else if tBase ≤ a ∧ a ≤ 0x1FFFFF then decodeT nMax (a - tBase) size
  else if saBase ≤ a then decodeSa nMax (a - saBase) size
  else none

/-- The word of four bytes of `T_MEM`, the lowest index in bits [7:0] (20_memory.md R66). -/
def wordOfBytes (b0 b1 b2 b3 : Byte) : Word :=
  b3 ++ b2 ++ b1 ++ b0

/-- The four bytes a word write to `T_MEM` stores, lowest index first (20_memory.md R66). -/
def bytesOfWord (w : Word) : List Byte :=
  [w.extractLsb' 0 8, w.extractLsb' 8 8, w.extractLsb' 16 8, w.extractLsb' 24 8]

end Sys2Proof.Machine
end

