-- ==== Sys2Proof/Machine/Ops.lean ====
section
/-! DEFINITION. The named operations over memory, registers and the fields of State: updates, free draws, the reads of
`T_MEM` and `SA_MEM`, the busy refusal, raising a fault, the error latch and its return, and reset. -/

namespace Sys2Proof.Machine

/-! ## Updates of one field -/

def State.setStatus (s : State) (v : Status) : State := { s with status := v }
def State.setLen (s : State) (v : Len) : State := { s with len := v }
def State.setStartPtr (s : State) (v : Len) : State := { s with startPtr := v }
def State.setIrqEn (s : State) (v : BitVec 3) : State := { s with irqEn := v }
def State.setTMem (s : State) (v : List Host.Cell) : State := { s with tMem := v }
def State.setSaMem (s : State) (v : Memory Word) : State := { s with saMem := v }
def State.setEngine (s : State) (v : Engine) : State := { s with engine := v }
def State.setModelFault (s : State) (v : Option Fault) : State := { s with modelFault := v }
def State.setAgent (s : State) (v : Agent) : State := { s with agent := v }
def State.setHostTurns (s : State) (v : Nat) : State := { s with hostTurns := v }
def State.setResetIn (s : State) (v : List Bool) : State := { s with resetIn := v }

/-- Count `k` free draws as taken (log 21). -/
def State.drawn (s : State) (k : Nat) : State := { s with draws := s.draws + k }

/-- `RES <- v` (30_encoding.md R110). -/
def State.setRes (s : State) (v : Word) : State := s.setAgent { s.agent with res := v }

/-! ## Sparse memory in canonical form (log 20) -/

/-- The value at an index, or `none` where nothing has written it (10_state.md R45). -/
def Memory.read {α : Type} (m : Memory α) (i : Nat) : Option α :=
  match m with
  | [] => none
  | (k, v) :: r => if i = k then some v else Memory.read r i

/-- Store a value at an index, keeping indexes strictly rising. -/
def Memory.write {α : Type} (m : Memory α) (i : Nat) (x : α) : Memory α :=
  match m with
  | [] => [(i, x)]
  | (k, v) :: r =>
    if i < k then (i, x) :: (k, v) :: r
    else if i = k then (i, x) :: r
    else (k, v) :: Memory.write r i x

/-- Remove an index. -/
def Memory.erase {α : Type} (m : Memory α) (i : Nat) : Memory α :=
  match m with
  | [] => []
  | (k, v) :: r => if i = k then r else (k, v) :: Memory.erase r i

/-- Store the values of a list at consecutive indexes from `i` on. -/
def Memory.fill {α : Type} (m : Memory α) (i : Nat) (xs : List α) : Memory α :=
  match xs with
  | [] => m
  | x :: r => Memory.fill (Memory.write m i x) (i + 1) r

/-! ## Reads of the memories (20_memory.md R71-R73) -/

/-- A host read of `T[i]`: the last value written, or a fresh draw where nothing has been written (20_memory.md R71,
R73). -/
def readT (i : Nat) (s : State) : Byte × State :=
  match Memory.read s.tMem i with
  | some b => (b, s)
  | none => (Config.freeByte s.draws, s.drawn 1)

/-- A host read of the word of `T_MEM` at index `i`, each unwritten byte a fresh draw (40_bus_access.md R121). -/
def readT32 (i : Nat) (s : State) : Word × State :=
  let r0 := readT i s
  let r1 := readT (i + 1) r0.2
  let r2 := readT (i + 2) r1.2
  let r3 := readT (i + 3) r2.2
  (wordOfBytes r0.1 r1.1 r2.1 r3.1, r3.2)

/-- A host read of `SA[i]` (20_memory.md R72): a fresh draw while the engine owns it or where nothing has been written,
and else the stored word. -/
def readSa (i : Nat) (s : State) : Word × State :=
  if s.status.busy = true ∧ i ≤ s.engine.nLat.toNat then (Config.freeWord s.draws, s.drawn 1)
  else
    match Memory.read s.saMem i with
    | some w => (w, s)
    | none => (Config.freeWord s.draws, s.drawn 1)

/-- A host read of the register at an offset (40_bus_access.md R121); reserved offsets read as 0 (10_state.md R34). -/
def readReg (offset : Nat) (s : State) : Word :=
  if offset = 0x00 then Config.idValue
  else if offset = 0x04 then 0#32
  else if offset = 0x08 then s.status.word
  else if offset = 0x0C then s.len.setWidth 32
  else if offset = 0x10 then s.startPtr.setWidth 32
  else if offset = 0x14 then s.irqEn.setWidth 32
  else if offset = 0x18 then s.nMax.setWidth 32
  else 0#32

/-! ## Writes of the memories -/

/-- `T[i] <- b`, marked written (40_bus_access.md R124). -/
def writeT (i : Nat) (b : Byte) (s : State) : State :=
  s.setTMem (Memory.write s.tMem i b)

/-- The four bytes of a word to `T[i..i+3]`, marked written (40_bus_access.md R123). -/
def writeT32 (i : Nat) (w : Word) (s : State) : State :=
  s.setTMem (Memory.fill s.tMem i (bytesOfWord w))

/-- `SA[i] <- w`, marked written (40_bus_access.md R123). -/
def writeSa (i : Nat) (w : Word) (s : State) : State :=
  s.setSaMem (Memory.write s.saMem i w)

/-! ## Errors, refusals and their return -/

/-- `raise ModelFault(reason)`: the sticky mark, and nothing else (00_scope.md R10, 10_state.md R46, 60_exceptions.md
R205). -/
def raiseFault (r : Fault) (s : State) : State :=
  s.setModelFault (some r)

/-- `set_error(code)` (60_exceptions.md R201). -/
def setError (c : ErrCode) (s : State) : State :=
  s.setStatus (s.status.setError c)

/-- The return from an error, "the counterpart of trap return": the status writes of CLEAR (60_exceptions.md R214). -/
def clearStatus (s : State) : State :=
  s.setStatus s.status.clear

/-- A host write the engine's ownership refuses: `VIOL <- 1`, and nothing else (60_exceptions.md R204). -/
def refuseWrite (s : State) : State :=
  s.setStatus s.status.refuse

/-- A host write that is taken while `BUSY = 0` and refused while `BUSY = 1` (60_exceptions.md R204). -/
def unlessBusy (write : State → State) (s : State) : State :=
  if s.status.busy = true then refuseWrite s else write s

/-! ## Reset -/

/-- The reset input asserted: the block takes the values of 10_state.md R47, the memories become unwritten, and
`N_MAX`, `MODEL_FAULT` and the host agent are left alone (70_reset_and_hazards.md R240, 10_state.md R46). -/
def blockReset (s : State) : State :=
  { s with
    status := Status.reset
    len := 0#24
    startPtr := 0#24
    irqEn := 0#3
    tMem := []
    saMem := []
    engine := Engine.reset }

end Sys2Proof.Machine
end

