-- ==== Sys2Proof/Machine/Bwt.lean ====
section
/-! DEFINITION. The Burrows-Wheeler Transform of a block: rotations in unsigned lexicographic order (00_scope.md R11,
42_bwt_engine.md R161), the transformed bytes (R162) and the start pointer (R163); the suffix classes of R171. -/

namespace Sys2Proof.Machine

/-- `rot(T, n, r)` for `r < n`: the rotation of the block that starts at `T[r]` (00_scope.md R11). -/
def rotation (block : List Byte) (r : Nat) : List Byte :=
  block.drop r ++ block.take r

/-- `<_lex`: strict lexicographic order of byte strings, bytes unsigned (00_scope.md R11). -/
def lexLt (x y : List Byte) : Bool :=
  match x, y with
  | _, [] => false
  | [], _ :: _ => true
  | a :: x', b :: y' => decide (a.toNat < b.toNat) || (decide (a = b) && lexLt x' y')

/-- `<=_lex` between rows `p` and `q` of the rotation matrix. -/
abbrev RowLe (block : List Byte) (p q : Nat) : Prop :=
  lexLt (rotation block q) (rotation block p) = false

/-- A row order of the block: the rotations' starts, sorted (42_bwt_engine.md R161). Equal rotations stand in rising
order of their starts; no output depends on that (R162), and `START_PTR` does not use it (R163). -/
def rowOrder (block : List Byte) : List Nat :=
  (List.range block.length).insertionSort (RowLe block)

/-- The last byte of row `r`, `T[(r + n - 1) mod n]` (42_bwt_engine.md R162). -/
def lastByte (block : List Byte) (r : Nat) : Byte :=
  block.getD ((r + block.length - 1) % block.length) 0#8

/-- The transformed bytes `L` (42_bwt_engine.md R162). -/
def transform (block : List Byte) : List Byte :=
  (rowOrder block).map (lastByte block)

/-- `lo`: how many rotations stand strictly before rotation 0 (42_bwt_engine.md R163). -/
def rowsBelow (block : List Byte) : Nat :=
  (List.range block.length).countP (fun r => lexLt (rotation block r) (rotation block 0))

/-- `cnt`: how many rotations equal rotation 0 (42_bwt_engine.md R163). -/
def rowsEqual (block : List Byte) : Nat :=
  (List.range block.length).countP (fun r => decide (rotation block r = rotation block 0))

/-- The start pointer `s` (42_bwt_engine.md R163, R164): 0 for the empty block, `lo` where no other rotation equals
rotation 0 or `START_TIE = LOWEST`, and else a draw from `[lo, lo + cnt - 1]`. -/
def startRow (tie : StartTie) (block : List Byte) (free : Nat) : Nat :=
  if block.length = 0 then 0
  else if rowsEqual block ≤ 1 then rowsBelow block
  else
    match tie with
    | .any => rowsBelow block + free % rowsEqual block
    | .lowest => rowsBelow block

/-- The classes of the positions of a block, given the class of its last position (42_bwt_engine.md R171; the class of
the last position is in no source, 91 N6; log 27). -/
def suffixClasses (last : SuffixClass) (block : List Byte) : List SuffixClass :=
  match block with
  | [] => []
  | [_] => [last]
  | b :: c :: r =>
    let rest := suffixClasses last (c :: r)
    let nextIsA := rest.head? = some SuffixClass.a
    (if c.toNat < b.toNat ∨ (b = c ∧ nextIsA) then .a else if nextIsA then .bStar else .b) :: rest

end Sys2Proof.Machine
end

