-- ==== Sys2Proof/Machine/Sort.lean ====
section
/-! DEFINITION. The engine's sort over the entries of PA and ISA: the B* suffixes (42_bwt_engine.md R171, R173), the
substring sort and its parts (R174), the depth-doubling refinement over ranks (R175), and the induction of the full order
from the sorted B* suffixes (R179). -/

namespace Sys2Proof.Machine

/-! ## Entries (10_state.md R43) -/

/-- The entry that holds a suffix position. -/
def entryOf (p : Nat) : Word := BitVec.ofNat 32 p

/-- The entry of a position that is sorted, "skip": its complement `~p`. -/
def entryDone (p : Nat) : Word := ~~~(entryOf p)

/-- The position of an entry, complemented or not. -/
def entryPos (w : Word) : Nat := if w.msb then (~~~w).toNat else w.toNat

/-- Work on the `k` entries from entry `i` on, and leave the others. -/
def onRange (i k : Nat) (f : List Word → List Word) (pa : List Word) : List Word :=
  pa.take i ++ (f ((pa.drop i).take k) ++ (pa.drop i).drop k)

/-! ## The B* suffixes -/

/-- The B* positions, in text order (42_bwt_engine.md R171, R173). -/
def bStarPositions (classes : List SuffixClass) : List Nat :=
  (List.range classes.length).filter (fun i => decide (classes[i]? = some SuffixClass.bStar))

/-- Byte `d` of the rotation that starts at `p`. -/
def byteAt (block : List Byte) (d p : Nat) : Byte := block.getD ((p + d) % block.length) 0#8

/-- The bucket of a position in bucket B, `c0 * 256 + c1` (10_state.md R39). -/
def bucketOf (block : List Byte) (p : Nat) : Nat := (byteAt block 0 p).toNat * 256 + (byteAt block 1 p).toNat

/-- PA as CLASSIFY leaves it: the B* positions, bucket after bucket (42_bwt_engine.md R173, R174). -/
def bucketed (block : List Byte) (ps : List Nat) : List Word :=
  (ps.insertionSort (fun p q => bucketOf block p ≤ bucketOf block q)).map entryOf

/-- The positions the entries of PA hold, in text order. -/
def textOrder (pa : List Word) : List Nat := (pa.map entryPos).insertionSort (· ≤ ·)

/-- The position `h` places ahead of `p` in a list of positions in text order, around the block. -/
def ahead (ps : List Nat) (h p : Nat) : Nat := ps.getD ((ps.idxOf p + h) % ps.length) 0

/-- How many bytes of the text lie between `p` and the position `h` places ahead of it, in a block of `n` bytes. -/
def aheadDistance (n : Nat) (ps : List Nat) (h p : Nat) : Nat :=
  n * ((ps.idxOf p + h) / ps.length) + ahead ps h p - p

/-- How many bytes the substring sort compares: the longest B* substring with the two bytes of the suffix that ends it, or
the whole rotation where that is shorter (42_bwt_engine.md R174; log 32). -/
def substringDepth (n : Nat) (ps : List Nat) : Nat :=
  min n ((ps.map (aheadDistance n ps 1)).foldr max 0 + 2)

/-! ## Sorting by a prefix -/

/-- The first `d` bytes of rotation `p` stand before those of rotation `q`. -/
def prefixBefore (block : List Byte) (d p q : Nat) : Bool :=
  lexLt ((rotation block p).take d) ((rotation block q).take d)

/-- The order of entries by the first `d` bytes of their rotations. -/
abbrev PrefixLe (block : List Byte) (d : Nat) (x y : Word) : Prop :=
  prefixBefore block d (entryPos y) (entryPos x) = false

/-- The entries sorted by the first `d` bytes of their rotations: the outcome of the insertion sort, the heapsort and,
with `d = n`, of `lsSort` (42_bwt_engine.md R174, R176; log 33). -/
def sortByPrefix (block : List Byte) (d : Nat) (xs : List Word) : List Word :=
  xs.insertionSort (PrefixLe block d)

/-- Merge a first entry and what follows it in its run, as `rest` merges that, into another run. -/
def mergeHead (le : Word → Word → Bool) (x : Word) (rest : List Word → List Word) (ys : List Word) : List Word :=
  match ys with
  | [] => x :: rest []
  | y :: r => if le x y then x :: rest (y :: r) else y :: mergeHead le x rest r

/-- Merge two runs; of entries the order does not tell apart those of the first run come first. -/
def mergeRuns (le : Word → Word → Bool) (xs ys : List Word) : List Word :=
  match xs with
  | [] => ys
  | x :: r => mergeHead le x (mergeRuns le r) ys

/-- `ssMerge`, forward: two sorted runs merged from their first entries on. -/
def mergeForward (block : List Byte) (d : Nat) (xs ys : List Word) : List Word :=
  mergeRuns (fun x y => decide (PrefixLe block d x y)) xs ys

/-- `ssMerge`, backward: two sorted runs merged from their last entries on. -/
def mergeBackward (block : List Byte) (d : Nat) (xs ys : List Word) : List Word :=
  (mergeRuns (fun y x => decide (PrefixLe block d x y)) ys.reverse xs.reverse).reverse

/-- Merge two sorted runs by a merge method. -/
def mergeBy (method : SortMethod) (block : List Byte) (d : Nat) (xs ys : List Word) : List Word :=
  if method = .mergeForward then mergeForward block d xs ys else mergeBackward block d xs ys

/-- A partition in three: the entries whose key lies below the pivot's, at it, and above it. -/
def partition3 (key : Word → Nat) (v : Nat) (xs : List Word) : List Word :=
  xs.filter (fun w => decide (key w < v)) ++
    (xs.filter (fun w => decide (key w = v)) ++ xs.filter (fun w => decide (v < key w)))

/-- The key of a multikey-quicksort partition: byte `d` of an entry's rotation (42_bwt_engine.md R174). -/
def byteKey (block : List Byte) (d : Nat) (w : Word) : Nat := (byteAt block d (entryPos w)).toNat

/-! ## Ranks (42_bwt_engine.md R175) -/

/-- The rank of rotation `p` by its first `d` bytes: how many entries stand before it. -/
def prefixRank (block : List Byte) (d : Nat) (pa : List Word) (p : Nat) : Nat :=
  pa.countP (fun y => prefixBefore block d (entryPos y) p)

/-- ISA as TRSORT starts from it: the ranks of the B* suffixes by their first `d` bytes, in text order. -/
def ranks (block : List Byte) (d : Nat) (pa : List Word) : List Word :=
  (textOrder pa).map (fun p => BitVec.ofNat 32 (prefixRank block d pa p))

/-- The rank ISA holds for position `p`; `ps` lists the B* positions in text order. -/
def rankAt (ps : List Nat) (isa : List Word) (p : Nat) : Nat := (isa.getD (ps.idxOf p) 0#32).toNat

/-- The depth-doubling key: the rank of the B* suffix `h` ahead. -/
def aheadRank (ps : List Nat) (isa : List Word) (h p : Nat) : Nat := rankAt ps isa (ahead ps h p)

/-- On which side of a pivot's key a key lies. -/
def side (v k : Nat) : Nat := if k < v then 0 else if k = v then 1 else 2

/-- ISA after the entries `xs`, which start at entry `a` of PA, are sorted by a key: entries of one key take the number of
the place of the first of them; the other ranks stay. -/
def rerank (ps : List Nat) (isa : List Word) (a : Nat) (xs : List Word) (key : Nat → Nat) : List Word :=
  ps.map (fun p =>
    BitVec.ofNat 32
      (if p ∈ xs.map entryPos then a + xs.countP (fun y => decide (key (entryPos y) < key p)) else rankAt ps isa p))

/-! ## Marks (10_state.md R43) -/

/-- Mark by complement each entry that no other ties with in its first `d` bytes. -/
def markDone (block : List Byte) (d : Nat) (pa : List Word) : List Word :=
  pa.map (fun w =>
    if pa.countP (fun y => decide ((rotation block (entryPos y)).take d = (rotation block (entryPos w)).take d)) ≤ 1 then
      entryDone (entryPos w)
    else entryOf (entryPos w))

/-- Mark each entry of a range that no other ties with by a key. -/
def markAlone (key : Nat → Nat) (xs : List Word) : List Word :=
  xs.map (fun w =>
    if xs.countP (fun y => decide (key (entryPos y) = key (entryPos w))) ≤ 1 then entryDone (entryPos w)
    else entryOf (entryPos w))

/-- Mark every entry. -/
def markAll (xs : List Word) : List Word := xs.map (fun w => entryDone (entryPos w))

/-- Every entry of a list is marked. -/
def allDone (xs : List Word) : Bool := xs.all (fun w => w.msb)

/-- Every entry without its mark. -/
def unmarked (pa : List Word) : List Word := pa.map (fun w => entryOf (entryPos w))

/-! ## The induction (42_bwt_engine.md R179) -/

/-- The order of two rotations as it is induced from the sorted B* suffixes: their bytes, up to a place where both stand
at a B* suffix, and there the order of those. -/
def inducedLe (block : List Byte) (order : List Nat) (k p q : Nat) : Bool :=
  match k with
  | 0 => true
  | k + 1 =>
    if p ∈ order ∧ q ∈ order then decide (order.idxOf p ≤ order.idxOf q)
    else if byteAt block 0 p = byteAt block 0 q then
      inducedLe block order k ((p + 1) % block.length) ((q + 1) % block.length)
    else decide ((byteAt block 0 p).toNat < (byteAt block 0 q).toNat)

/-- The full order of the rotations, induced from the sorted B* suffixes. -/
def inducedOrder (block : List Byte) (order : List Nat) : List Nat :=
  (List.range block.length).insertionSort (fun p q => inducedLe block order block.length p q = true)

/-- The transformed bytes `constructBWT` writes (42_bwt_engine.md R179). -/
def inducedTransform (block : List Byte) (order : List Nat) : List Byte :=
  (inducedOrder block order).map (lastByte block)

end Sys2Proof.Machine
end

