-- ==== Sys2Proof/Machine/Engine.lean ====
section
/-! DEFINITION. The engine: its internal steps over the hidden state (42_bwt_engine.md R168, R171-R179), the completion
step (R166) and the internal-fault completion (R167). -/

namespace Sys2Proof.Machine

/-! ## The block the engine reads, and `SA[0..n]` -/

/-- `n` of the run: `N_LAT` (10_state.md R38). -/
def runLength (s : State) : Nat := s.engine.nLat.toNat

/-- Byte `T[i]` as the engine reads it. Every byte of an accepted run is written (42_bwt_engine.md R160); log 22. -/
def engineByte (s : State) (i : Nat) : Byte :=
  (Memory.read s.tMem i).getD (Config.unwrittenByte i)

/-- The block `T[0..n-1]`. -/
def blockOf (s : State) (n : Nat) : List Byte :=
  (List.range n).map (engineByte s)

/-- `len` fresh words from draw `k` on. -/
def drawWords (k len : Nat) : List Word :=
  (List.range len).map (fun j => Config.freeWord (k + j))

/-- `for i in 0 .. n: SA[i] <- draw`; a run with `n = 0` writes no word of `SA_MEM` (42_bwt_engine.md R164, R168). -/
def redrawSa (s : State) : State :=
  if runLength s = 0 then s
  else (s.setSaMem (Memory.fill s.saMem 0 (drawWords s.draws (runLength s + 1)))).drawn (runLength s + 1)

/-! ## Buckets, stack, budget and regions (10_state.md R39-R42) -/

/-- An entry of a bucket; an unlisted entry is 0. -/
def bucketRead (b : Memory (BitVec 32)) (k : Nat) : BitVec 32 :=
  (Memory.read b k).getD 0#32

/-- Store an entry of a bucket; a zero entry is not listed. -/
def bucketWrite (b : Memory (BitVec 32)) (k : Nat) (v : BitVec 32) : Memory (BitVec 32) :=
  if v = 0#32 then Memory.erase b k else Memory.write b k v

/-- An entry's legal values, `-(N_MAX+1) .. N_MAX+1` (10_state.md R39). -/
def bucketValueOk (nMax : Nat) (v : BitVec 32) : Bool :=
  decide (-(nMax + 1 : Int) ≤ v.toInt ∧ v.toInt ≤ (nMax + 1 : Int))

/-- The index of a byte pair in bucket B, `c0 * 256 + c1` (10_state.md R39). -/
def pairIndex (c0 c1 : Byte) : Nat := c0.toNat * 256 + c1.toNat

/-- Count one position of class `c` with bytes `c0`, `c1` into the buckets that count its class (42_bwt_engine.md R173;
log 27). -/
def countPosition (e : Engine) (c0 c1 : Byte) (c : SuffixClass) : Engine :=
  { e with
    bucketA :=
      if Config.bucketACounts c then
        bucketWrite e.bucketA c0.toNat (bucketRead e.bucketA c0.toNat + 1#32)
      else e.bucketA
    bucketB :=
      if Config.bucketBCounts c then
        bucketWrite e.bucketB (pairIndex c0 c1) (bucketRead e.bucketB (pairIndex c0 c1) + 1#32)
      else e.bucketB }

/-- Count every position of a block; `first` is the wrap byte, the successor of the last position. -/
def countPositions (e : Engine) (first : Byte) (block : List Byte) (classes : List SuffixClass) : Engine :=
  match block, classes with
  | c0 :: r, c :: cs => countPositions (countPosition e c0 (r.headD first) c) first r cs
  | _, _ => e

/-- Two regions share no index. -/
def regionsApart (x y : Region) : Bool :=
  decide (x.base + x.len ≤ y.base ∨ y.base + y.len ≤ x.base ∨ x.len = 0 ∨ y.len = 0)

/-- A region lies inside `SA[0..n]`. -/
def regionInside (n : Nat) (x : Region) : Bool :=
  decide (x.base + x.len ≤ n + 1)

/-- The aliasing discipline (42_bwt_engine.md R177): PA, ISA and the buffer are disjoint ranges of `SA[0..n]`. -/
def regionsOk (n : Nat) (pa isa buffer : Region) : Bool :=
  regionInside n pa && regionInside n isa && regionInside n buffer &&
    regionsApart pa isa && regionsApart pa buffer && regionsApart isa buffer

/-- The places of PA and ISA, an entry for each of the `m` B* suffixes, and of the buffer: free places that keep the
aliasing discipline, or one after the other (42_bwt_engine.md R177; log 8). -/
def layout (n m : Nat) (free : Region × Region × Region) : Region × Region × Region :=
  if regionsOk n free.1 free.2.1 free.2.2 = true ∧ free.1.len = m ∧ free.2.1.len = m then free
  else (⟨0, m⟩, ⟨m, m⟩, ⟨2 * m, n + 1 - 2 * m⟩)

/-- The outcome of CLASSIFY in the engine: the buckets initialised and the counts recorded, `m`, and the places of the
regions (42_bwt_engine.md R173). -/
def classified (e : Engine) (block : List Byte) (classes : List SuffixClass) (free : Region × Region × Region) : Engine :=
  let m := (bStarPositions classes).length
  let places := layout e.nLat.toNat m free
  { countPositions { e with bucketA := [], bucketB := [] } (block.headD 0#8) block classes with
    m := m
    pa := places.1
    isa := places.2.1
    buffer := places.2.2
    ssize := 0
    depth := 0
    sorted := 0
    taken := 0 }

/-- The legal values of a frame: `first` and `last` index `SA[0..n]`, the comparison depth is at most `n`, and the
recursion limit is at least -1, "used up" (10_state.md R40). -/
def frameOk (n : Nat) (f : Frame) : Bool :=
  decide (f.first.toNat ≤ f.last.toNat ∧ f.last.toNat ≤ n ∧ f.depth.toNat ≤ n ∧ -1 ≤ f.limit.toInt)

/-- Push a frame; `none` where all 64 are in use (42_bwt_engine.md R178). -/
def pushFrame (f : Frame) (e : Engine) : Option Engine :=
  if h : e.ssize < 64 then some { e with stack := e.stack.set e.ssize f h, ssize := e.ssize + 1 } else none

/-- Push frames, one after the other. -/
def pushFrames (fs : List Frame) (e : Engine) : Option Engine :=
  match fs with
  | [] => some e
  | f :: r =>
    match pushFrame f e with
    | some e' => pushFrames r e'
    | none => none

/-- Pop the top frame. -/
def popFrame (e : Engine) : Option (Frame × Engine) :=
  if e.ssize = 0 then none
  else (e.stack[e.ssize - 1]?).map (fun f => (f, { e with ssize := e.ssize - 1 }))

/-- Charge a partitioning step over a range to the budget (42_bwt_engine.md R176 steps 2 and 3; log 26). -/
def chargeBudget (size : Nat) (b : Budget) : Budget × SortMethod :=
  if size ≤ b.remain then (⟨b.remain - size, b.chances⟩, .trIntro)
  else if 0 < b.chances then (⟨Config.trRefill size b, b.chances - 1⟩, .trIntro)
  else (b, .lsSort)

/-! ## The sort's work: the engine with the entries of PA and ISA -/

/-- The hidden state a sorting step works on. -/
structure SortWork where
  engine : Engine
  pa     : List Word
  isa    : List Word
  deriving DecidableEq, Repr

/-- The entries of a region of `SA` (42_bwt_engine.md R177). -/
def regionRead (sa : Memory Word) (r : Region) : List Word :=
  (List.range r.len).map (fun k => (Memory.read sa (r.base + k)).getD 0#32)

/-- Store the entries of a region, inside `SA[0..n]`. -/
def regionWrite (n : Nat) (sa : Memory Word) (r : Region) (ws : List Word) : Memory Word :=
  Memory.fill sa r.base (ws.take (n + 1 - r.base))

/-- The work as the state holds it. -/
def loadWork (s : State) : SortWork :=
  ⟨s.engine, regionRead s.saMem s.engine.pa, regionRead s.saMem s.engine.isa⟩

/-- Store the work; the rest of `SA[0..n]` takes any values (42_bwt_engine.md R168; log 9). A run with `n = 0` writes no
word of `SA_MEM` (R164). -/
def storeWork (w : SortWork) (s : State) : State :=
  if runLength s = 0 then s.setEngine w.engine
  else
    let s' := redrawSa s
    (s'.setSaMem
      (regionWrite (runLength s) (regionWrite (runLength s) s'.saMem w.engine.pa w.pa) w.engine.isa w.isa)).setEngine
      w.engine

/-! ## Ranges and their frames (42_bwt_engine.md R178) -/

/-- Where the entries of a frame start in PA, and how many they are. -/
def frameRange (pa : Region) (f : Frame) : Nat × Nat :=
  (f.first.toNat - pa.base, f.last.toNat + 1 - f.first.toNat)

/-- The entries of a range of PA. -/
def rangeEntries (r : Nat × Nat) (pa : List Word) : List Word := (pa.drop r.1).take r.2

/-- The frame of `size` entries from `SA[first]` on; a range of one entry needs none. -/
def partFrame (first size : Nat) (depth limit : BitVec 32) : List Frame :=
  if size ≤ 1 then [] else [⟨BitVec.ofNat 32 first, BitVec.ofNat 32 (first + size - 1), depth, limit⟩]

/-- The entry whose key is the pivot's: a free one of the range (log 8). -/
def pivotEntry (free : Nat) (xs : List Word) : Word := xs.getD (free % xs.length) 0#32

/-! ## SSSORT (42_bwt_engine.md R174; logs 8, 32) -/

/-- Which sub-sort takes a range: insertion sort below 8 entries, heapsort once the recursion limit is used up, and else
a multikey-quicksort partition. -/
def ssMethod (size : Nat) (limit : BitVec 32) : SortMethod :=
  if size < Config.ssInsertionSortThreshold then .insertion
  else if limit.toInt < 0 then .heap
  else .multikey

/-- `SS_MERGE_POLICY`: which merge takes two runs of `size` entries together, given the buffer that is available. -/
def mergeMethod (buffer size : Nat) : SortMethod :=
  if Config.ssMergeForward buffer size then .mergeForward else .mergeBackward

/-- Take up the next block of at most `SS_BLOCKSIZE` entries of PA: a frame for it, at depth 0 and with `SS_DEPTH_LIMIT`
levels of recursion. -/
def takeBlock (w : SortWork) : Option SortWork :=
  let k := min Config.ssBlockSize (w.pa.length - w.engine.taken)
  (pushFrames (partFrame (w.engine.pa.base + w.engine.taken) k 0#32 ((Config.ssDepthLimit k).setWidth 32)) w.engine).map
    (fun e => { w with engine := { e with taken := e.taken + k } })

/-- `ssMerge` of the block that has just been sorted into the run before it; the first block is a run by itself. -/
def mergeBlock (block : List Byte) (d : Nat) (w : SortWork) : SortWork :=
  let e := w.engine
  let method := mergeMethod e.buffer.len e.taken
  if e.sorted = 0 then { w with engine := { e with sorted := e.taken } }
  else
    { w with
      engine := { e with sorted := e.taken, method := method }
      pa := onRange 0 e.taken (fun l => mergeBy method block d (l.take e.sorted) (l.drop e.sorted)) w.pa }

/-- The frames of the three parts of a split range. The parts beside the pivot are one level of recursion further down;
the part at the pivot goes one byte deeper, unless that byte is past the substring. They go on the stack in the order of
their entries, so the part above is worked on next: the model's choice (log 37). -/
def splitFrames (d : Nat) (f : Frame) (below level above : Nat) : List Frame :=
  partFrame f.first.toNat below f.depth (f.limit - 1#32) ++
    (partFrame (f.first.toNat + below) (if f.depth.toNat + 1 < d then level else 0) (f.depth + 1#32) f.limit ++
      partFrame (f.first.toNat + below + level) above f.depth (f.limit - 1#32))

/-- A multikey-quicksort partition of the range of a frame that has been popped. -/
def multikeyStep (block : List Byte) (d free : Nat) (f : Frame) (e : Engine) (w : SortWork) : Option SortWork :=
  let r := frameRange e.pa f
  let xs := rangeEntries r w.pa
  let key := byteKey block f.depth.toNat
  let v := key (pivotEntry free xs)
  let parts := splitFrames d f (xs.countP (fun x => decide (key x < v))) (xs.countP (fun x => decide (key x = v)))
    (xs.countP (fun x => decide (v < key x)))
  (pushFrames parts { e with method := .multikey }).map
    (fun e' => { w with engine := e', pa := onRange r.1 r.2 (partition3 key v) w.pa })

/-- Insertion sort or heapsort of the range of a frame that has been popped. -/
def sortRange (block : List Byte) (d : Nat) (method : SortMethod) (f : Frame) (e : Engine) (w : SortWork) : SortWork :=
  let r := frameRange e.pa f
  { w with engine := { e with method := method }, pa := onRange r.1 r.2 (sortByPrefix block d) w.pa }

/-- A step of the substring sort: over the range of the top frame; with no frame left, the sorted block is merged, and
then the next block is taken up. `none` is a push that finds all 64 frames in use. -/
def substringStep (block : List Byte) (n free : Nat) (w : SortWork) : Option SortWork :=
  let d := substringDepth n (textOrder w.pa)
  match popFrame w.engine with
  | none => if w.engine.sorted < w.engine.taken then some (mergeBlock block d w) else takeBlock w
  | some (f, e) =>
    let method := ssMethod (rangeEntries (frameRange e.pa f) w.pa).length f.limit
    if method = .multikey then multikeyStep block d free f e w else some (sortRange block d method f e w)

/-- The step in place of a partition whose parts find no frame: heapsort of the range (log 36). -/
def substringSpill (block : List Byte) (n : Nat) (w : SortWork) : SortWork :=
  match popFrame w.engine with
  | none => w
  | some (f, e) => sortRange block (substringDepth n (textOrder w.pa)) .heap f e w

/-- The substring sort has come to its end: no frame is left and every block is taken up and merged. -/
def substringsDone (w : SortWork) : Bool :=
  decide (w.engine.ssize = 0 ∧ w.engine.taken ≤ w.engine.sorted ∧ w.pa.length ≤ w.engine.taken)

/-- From the sorted substrings to TRSORT: the entries that tie with no other are marked, ISA takes the ranks, and the
budget starts at `TR_BUDGET_INIT` (42_bwt_engine.md R174-R176). -/
def startRefinement (block : List Byte) (n : Nat) (w : SortWork) : SortWork :=
  let d := substringDepth n (textOrder w.pa)
  { engine := { w.engine with budget := Config.trBudgetInit, depth := 1, taken := 0 }
    pa := markDone block d w.pa
    isa := ranks block d w.pa }

/-! ## TRSORT (42_bwt_engine.md R175, R176; logs 26, 33-35) -/

/-- Take up the next group of entries of one rank: the entries of rank `taken` start at entry `taken` of PA. An entry
alone in its group is marked, a group whose entries are all marked is skipped, and any other gets a frame. -/
def takeGroup (w : SortWork) : Option SortWork :=
  let a := w.engine.taken
  let ps := textOrder w.pa
  let g := min (w.pa.length - a) (max 1 (ps.countP (fun p => decide (rankAt ps w.isa p = a))))
  let e := { w.engine with taken := a + g }
  if g = 1 then some { w with engine := e, pa := onRange a 1 markAll w.pa }
  else if allDone (rangeEntries (a, g) w.pa) then some { w with engine := e }
  else
    (pushFrames
        (partFrame (e.pa.base + a) g (BitVec.ofNat 32 e.depth) ((Config.trDepthLimit g).setWidth 32)) e).map
      (fun e' => { w with engine := e' })

/-- The next round: every tie that is left has been compared over ISA, so the ranks are good for twice as many B*
suffixes. The depth stops short of the number of B* suffixes, where the ranks see whole rotations. -/
def nextRound (w : SortWork) : SortWork :=
  let e := w.engine
  { w with engine := { e with taken := 0, depth := if 2 * e.depth ≤ e.m then 2 * e.depth else e.depth } }

/-- `lsSort` finishes a range: by whole rotations, every entry marked, equal rotations of one rank. -/
def lsRange (block : List Byte) (r : Nat × Nat) (w : SortWork) : SortWork :=
  let xs := rangeEntries r w.pa
  { w with
    engine := { w.engine with method := .lsSort }
    pa := onRange r.1 r.2 (fun l => markAll (sortByPrefix block block.length l)) w.pa
    isa := rerank (textOrder w.pa) w.isa r.1 xs (prefixRank block block.length xs) }

/-- `trIntroSort` partitions a range by the ranks the B* suffixes ahead of its entries have in ISA. The entries at the
pivot stay tied and are done with for this round; the other two parts are compared on, the part above first, which is
the model's choice (log 37). -/
def introRange (free : Nat) (f : Frame) (r : Nat × Nat) (w : SortWork) : Option SortWork :=
  let xs := rangeEntries r w.pa
  let ps := textOrder w.pa
  let key := aheadRank ps w.isa f.depth.toNat
  let v := key (entryPos (pivotEntry free xs))
  let below := xs.countP (fun x => decide (key (entryPos x) < v))
  let level := xs.countP (fun x => decide (key (entryPos x) = v))
  let above := xs.countP (fun x => decide (v < key (entryPos x)))
  (pushFrames
      (partFrame f.first.toNat below f.depth f.limit ++ partFrame (f.first.toNat + below + level) above f.depth f.limit)
      w.engine).map
    (fun e =>
      { engine := e
        pa := onRange r.1 r.2
          (fun l => markAlone (fun p => side v (key p)) (partition3 (fun x => key (entryPos x)) v l)) w.pa
        isa := rerank ps w.isa r.1 xs (fun p => side v (key p)) })

/-- The entries of a range stand the same distance from the B* suffixes ahead of them, so that the order of those is
theirs. -/
def rangeAligned (n h : Nat) (ps : List Nat) (xs : List Word) : Bool :=
  xs.all (fun x => xs.all (fun y => decide (aheadDistance n ps h (entryPos x) = aheadDistance n ps h (entryPos y))))

/-- A step over the range of a frame that has been popped. A range with no tie to break is skipped. Any other is charged
to the budget; then `trIntroSort` partitions it, or, with the budget spent, `lsSort` finishes it. A range that is not
aligned stays as it is and is charged again. -/
def refineRange (block : List Byte) (n free : Nat) (f : Frame) (e : Engine) (w : SortWork) : Option SortWork :=
  let r := frameRange e.pa f
  let xs := rangeEntries r w.pa
  let charge := chargeBudget xs.length e.budget
  let w' := { w with engine := { e with budget := charge.1, method := charge.2 } }
  if xs.length < 2 ∨ allDone xs then some { w with engine := e }
  else if charge.2 = .lsSort then some (lsRange block r w')
  else if rangeAligned n f.depth.toNat (textOrder w.pa) xs then introRange free f r w'
  else (pushFrame f w'.engine).map (fun e' => { w' with engine := e' })

/-- A step of the refinement: over the range of the top frame; with no frame left, the next group of this round is taken
up, or the next round starts. `none` is a push that finds all 64 frames in use. -/
def refinementStep (block : List Byte) (n free : Nat) (w : SortWork) : Option SortWork :=
  match popFrame w.engine with
  | none => if w.engine.taken < w.pa.length then takeGroup w else some (nextRound w)
  | some (f, e) => refineRange block n free f e w

/-- The step in place of a partition whose parts find no frame: charged all the same, and the range finished by `lsSort`
(log 36). -/
def refinementSpill (block : List Byte) (w : SortWork) : SortWork :=
  match popFrame w.engine with
  | none => w
  | some (f, e) =>
    let r := frameRange e.pa f
    let charge := chargeBudget (rangeEntries r w.pa).length e.budget
    lsRange block r { w with engine := { e with budget := charge.1 } }

/-- The refinement has come to its end: no frame is left and every entry is marked. -/
def refinementDone (w : SortWork) : Bool :=
  decide (w.engine.ssize = 0) && allDone w.pa

/-! ## Free moves -/

/-- The free moves each phase makes beside its steps (42_bwt_engine.md R172, R173, R177, R179). A run with `n <= 1` "does
no bucket, stack or budget work". -/
def moveAllowed (n : Nat) (p : Phase) (mv : EngineMove) : Bool :=
  decide (2 ≤ n) &&
    match p, mv with
    | .idle, _ => false
    | .sssort, .buffer _ => true
    | .trsort, .buffer _ => true
    | _, .buffer _ => false
    | _, _ => true

/-- What a free move does. One that would break a bound the spec states is not made. -/
def applyMove (nMax : Nat) (mv : EngineMove) (e : Engine) : Engine :=
  match mv with
  | .silent => e
  | .setBucketA c0 v => if bucketValueOk nMax v then { e with bucketA := bucketWrite e.bucketA c0.toNat v } else e
  | .setBucketB c0 c1 v =>
    if bucketValueOk nMax v then { e with bucketB := bucketWrite e.bucketB (pairIndex c0 c1) v } else e
  | .buffer r => if regionsOk e.nLat.toNat e.pa e.isa r then { e with buffer := r } else e

/-- The engine after a free move, where the phase makes it, and with one internal step less before the phase's next. -/
def moved (s : State) (mv : EngineMove) : Engine :=
  let e := { s.engine with work := s.engine.work - 1 }
  if moveAllowed (runLength s) e.phase mv then applyMove s.nMax.toNat mv e else e

/-- An internal step that makes a free move (42_bwt_engine.md R168; log 8). -/
def moveStep (s : State) : State :=
  storeWork { loadWork s with engine := moved s (Config.freeMove s.draws) } (s.drawn 1)

/-! ## Steps of the run -/

/-- `internal_fault()` (42_bwt_engine.md R167). -/
def internalFault (s : State) : State :=
  let s' := redrawSa s
  (s'.setEngine { s'.engine with phase := .idle }).setStatus s'.status.internalFault

/-- A step of the sort, with a free number of internal steps before the next one (log 7). A push beyond the stack ends
the run by the internal fault, where that is possible (42_bwt_engine.md R167, R178), and else the range is finished
without it (log 36). -/
def sortStep (next : Option SortWork) (spill : SortWork) (s : State) : State :=
  let resume := fun w : SortWork =>
    storeWork { w with engine := { w.engine with work := Config.freeNat (s.draws + 1) } } (s.drawn 2)
  match next with
  | some w => resume w
  | none => if Config.internalFaultPossible then internalFault (s.drawn 2) else resume spill

/-- The bytes `L` in the low bits of words whose upper bits take any value. -/
def looseWords (ws : List Word) (out : List Byte) : List Word :=
  List.zipWith (fun w b => w.extractLsb' 8 24 ++ b) ws out

/-- The last internal step of CONSTRUCT: the full order induced from the sorted B* suffixes in PA, and the transformed
bytes written in place, `SA[0..n-1]`; the engine knows `s` (42_bwt_engine.md R179). -/
def induceStep (s : State) : State :=
  let n := runLength s
  let block := blockOf s n
  let out := inducedTransform block ((regionRead s.saMem s.engine.pa).map entryPos)
  let sa :=
    if n = 0 then s.saMem
    else Memory.fill s.saMem 0 (looseWords (drawWords s.draws n) out ++ [Config.freeWord (s.draws + n)])
  ((s.setSaMem sa).setEngine
    { s.engine with work := s.engine.work - 1, tie := Config.freeNat s.draws }).drawn (n + 1)

/-- An internal step that does not move the sort on: the step that ends the induction, or a free move of the phase
(42_bwt_engine.md R168). -/
def internalStep (s : State) : State :=
  if s.engine.phase = .construct ∧ s.engine.work = 1 then induceStep s else moveStep s

/-! ## The phases of a run, and its end -/

/-- `complete()` (42_bwt_engine.md R166, and R164 for `n = 0`). -/
def complete (s : State) : State :=
  let block := blockOf s (runLength s)
  let out := (transform block).map (fun b => b.setWidth 32)
  let sa :=
    if runLength s = 0 then s.saMem
    else Memory.fill s.saMem 0 (out ++ [Config.freeWord s.draws])
  let row := startRow Config.startTie block s.engine.tie
  ((((s.setSaMem sa).setStartPtr (BitVec.ofNat 24 row)).setEngine { s.engine with phase := .idle }).setStatus
    s.status.complete).drawn 1

/-- Enter a phase with the sort's work so far and a number of internal steps to take in it (42_bwt_engine.md R168;
log 7). -/
def enterPhase (p : Phase) (steps : Nat) (w : SortWork) (s : State) : State :=
  storeWork { w with engine := { w.engine with phase := p, work := steps } } (s.drawn 1)

/-- The work CLASSIFY leaves: the B* positions in PA, bucket after bucket (42_bwt_engine.md R173). -/
def classifiedWork (s : State) : SortWork :=
  let block := blockOf s (runLength s)
  let classes := suffixClasses (Config.freeClass s.draws) block
  { engine := classified s.engine block classes (Config.freeRegions s.draws)
    pa := bucketed block (bStarPositions classes)
    isa := [] }

/-- The step a phase comes to: of CLASSIFY its end, of SSSORT and TRSORT a step of the sort or, once that is done, their
end, of CONSTRUCT completion; with `n <= 1` CLASSIFY goes straight to completion (42_bwt_engine.md R172). CONSTRUCT
takes at least the step that writes `L`. -/
def phaseStep (s : State) : State :=
  let n := runLength s
  let block := blockOf s n
  let w := loadWork s
  let free := Config.freeNat s.draws
  match s.engine.phase with
  | .idle => s
  | .classify => if n ≤ 1 then complete s else enterPhase .sssort free (classifiedWork s) s
  | .sssort =>
    if substringsDone w then enterPhase .trsort free (startRefinement block n w) s
    else sortStep (substringStep block n free w) (substringSpill block n w) s
  | .trsort =>
    if refinementDone w then enterPhase .construct (free + 1) { w with pa := unmarked w.pa } s
    else sortStep (refinementStep block n free w) (refinementSpill block w) s
  | .construct => complete s

/-- One engine step, with the number of host steps before the next one drawn anew (log 6). -/
def engineStep (s : State) : State :=
  let s' := (s.setHostTurns (Config.freeNat s.draws)).drawn 1
  if s.engine.work = 0 then phaseStep s' else internalStep s'

end Sys2Proof.Machine
end

