-- ==== Sys2Proof/Machine/Command.lean ====
section
/-! DEFINITION. The commands NOP, BWT and CLEAR, and the dispatch of a word written to `CMD` (41_commands.md). -/

namespace Sys2Proof.Machine

/-- Every byte `T[0..n]` has been written since reset (41_commands.md R142, 10_state.md R45). -/
def inputWritten (s : State) (n : Nat) : Bool :=
  (List.range (n + 1)).all (fun j => (Memory.read s.tMem j).isSome)

/-- The wrap byte check, `T[n] = T[0]` (41_commands.md R142). -/
def wrapByteOk (s : State) (n : Nat) : Bool :=
  decide (Memory.read s.tMem n = Memory.read s.tMem 0)

/-- The engine at the start of a run: `N_LAT <- n; PHASE <- CLASSIFY`; the per-block structures are created anew
(41_commands.md R142, 10_state.md R39; log 7). -/
def startedEngine (e : Engine) (n : Len) (work : Nat) : Engine :=
  { e with
    phase := .classify
    nLat := n
    ssize := 0
    m := 0
    pa := ⟨0, 0⟩
    isa := ⟨0, 0⟩
    buffer := ⟨0, 0⟩
    method := .none
    depth := 0
    sorted := 0
    taken := 0
    tie := 0
    work := work }

/-- BWT accepted: `STATUS` and the engine as 41_commands.md R142 says; the model draws how long the run and the engine's
first step take (log 6, 7). -/
def acceptBwt (s : State) : State :=
  (((s.setStatus s.status.accept).setEngine
    (startedEngine s.engine s.len (Config.freeNat s.draws))).setHostTurns (Config.freeNat (s.draws + 1))).drawn 2

/-- `bwt_start()`, its checks in the order of 60_exceptions.md R212 (41_commands.md R142). -/
def bwtStart (s : State) : State :=
  let n := s.len.toNat
  if s.nMax.toNat < n then setError .len s
  else if 1 ≤ n ∧ inputWritten s n = false then raiseFault .unwrittenInput s
  else if 1 ≤ n ∧ wrapByteOk s n = false then setError .wrap s
  else acceptBwt s

/-- `command_write(w)` (41_commands.md R140). -/
def commandWrite (w : Word) (s : State) : State :=
  if w = 0x00000000#32 then s
  else if s.status.busy = true then refuseWrite s
  else if w = 0x00000001#32 then bwtStart s
  else if w = 0x00000002#32 then clearStatus s
  else setError .illegalCmd s

/-- NOP (41_commands.md R141). -/
def execNop (s : State) : Host.Outcome State Fault Refusal :=
  .next s

/-- BWT (41_commands.md R142), refused while `BUSY = 1` (R140). -/
def execBwt (s : State) : Host.Outcome State Fault Refusal :=
  .next (unlessBusy bwtStart s)

/-- CLEAR (41_commands.md R143), refused while `BUSY = 1` (R140). -/
def execClear (s : State) : Host.Outcome State Fault Refusal :=
  .next (unlessBusy clearStatus s)

end Sys2Proof.Machine
end

