-- ==== Sys2Proof/Machine/Bus.lean ====
section
/-! DEFINITION. The host bus transactions RD8, RD32, WR8 and WR32 (40_bus_access.md). A transaction no window takes
raises `BusError` and changes nothing else (20_memory.md R64, 60_exceptions.md R205). -/

namespace Sys2Proof.Machine

/-- A word read in a window: the value and the state after its draws (40_bus_access.md R121). -/
def readWord (win : Window) (i : Nat) (s : State) : Word × State :=
  match win with
  | .reg => (readReg i s, s)
  | .tMem => readT32 i s
  | .saMem => readSa i s

/-- A word written to a register (40_bus_access.md R123, 30_encoding.md R98): `CMD`, `LEN` and `IRQ_EN` take it; RO and
reserved offsets ignore it (10_state.md R34). -/
def writeReg (offset : Nat) (w : Word) (s : State) : State :=
  if offset = 0x04 then commandWrite w s
  else if offset = 0x0C then unlessBusy (fun s => s.setLen (w.setWidth 24)) s
  else if offset = 0x14 then s.setIrqEn (w.setWidth 3)
  else s

/-- A word written in a window (40_bus_access.md R123). -/
def writeWord (win : Window) (i : Nat) (w : Word) (s : State) : State :=
  match win with
  | .reg => writeReg i w s
  | .tMem => unlessBusy (writeT32 i w) s
  | .saMem => unlessBusy (writeSa i w) s

/-- RD8: the byte, zero-extended, into `RES` (40_bus_access.md R122). -/
def execRd8 (addr : Addr) (s : State) : Host.Outcome State Fault Refusal :=
  match decodeAddr s.nMax.toNat addr .byte with
  | none => .next (raiseFault (.busError addr) s)
  | some (_, i) => .next ((readT i s).2.setRes ((readT i s).1.setWidth 32))

/-- RD32: the word into `RES` (40_bus_access.md R121). -/
def execRd32 (addr : Addr) (s : State) : Host.Outcome State Fault Refusal :=
  match decodeAddr s.nMax.toNat addr .word with
  | none => .next (raiseFault (.busError addr) s)
  | some (win, i) => .next ((readWord win i s).2.setRes (readWord win i s).1)

/-- WR8 (40_bus_access.md R124). -/
def execWr8 (addr : Addr) (data : Byte) (s : State) : Host.Outcome State Fault Refusal :=
  match decodeAddr s.nMax.toNat addr .byte with
  | none => .next (raiseFault (.busError addr) s)
  | some (_, i) => .next (unlessBusy (writeT i data) s)

/-- WR32 (40_bus_access.md R123). -/
def execWr32 (addr : Addr) (data : Word) (s : State) : Host.Outcome State Fault Refusal :=
  match decodeAddr s.nMax.toNat addr .word with
  | none => .next (raiseFault (.busError addr) s)
  | some (win, i) => .next (writeWord win i data s)

end Sys2Proof.Machine
end

