-- ==== Sys2Proof/Machine/Dispatch.lean ====
section
/-! DEFINITION. The dispatch of an instruction to its meaning. -/

namespace Sys2Proof.Machine

def exec (i : Instr) (s : State) : Host.Outcome State Fault Refusal :=
  match i with
  -- commands (41_commands.md)
  | .nop => Sys2Proof.Machine.execNop s
  | .bwt => Sys2Proof.Machine.execBwt s
  | .clear => Sys2Proof.Machine.execClear s
  -- bus transactions (40_bus_access.md)
  | .rd8 addr => Sys2Proof.Machine.execRd8 addr s
  | .rd32 addr => Sys2Proof.Machine.execRd32 addr s
  | .wr8 addr data => Sys2Proof.Machine.execWr8 addr data s
  | .wr32 addr data => Sys2Proof.Machine.execWr32 addr data s

end Sys2Proof.Machine
end

