-- ==== Sys2Proof/Decode.lean ====
section
/-! DEFINITION. Decoding of command words and bus descriptors (30_encoding.md R91, R92, R95), total and rejecting by
name; the encoder beside it; and the opcode table's numbering of bits. -/

namespace Sys2Proof

/-- Bits [28:23] of a `bus` descriptor, `MBZ` (30_encoding.md R91). -/
def descriptorMbz (w : Word) : BitVec 6 := w.extractLsb' 23 6

/-- Bits [30:29] of a `bus` descriptor, `SZ` (30_encoding.md R91). -/
def descriptorSz (w : Word) : BitVec 2 := w.extractLsb' 29 2

/-- Bit [31] of a `bus` descriptor, `W` (30_encoding.md R91). -/
def descriptorW (w : Word) : BitVec 1 := w.extractLsb' 31 1

/-- Bits [22:0] of a `bus` descriptor, `ADDR` (30_encoding.md R91). -/
def descriptorAddr (w : Word) : Addr := w.extractLsb' 0 23

/-- Why a packet spells no instruction. -/
inductive DecodeError where
  /-- A `bus` descriptor with bits [28:23] not 0: "bus: MBZ bits set" (30_encoding.md R92). -/
  | mbzSet
  /-- A `bus` descriptor with `SZ` 01 or 11: "bus: reserved SZ" (30_encoding.md R92). -/
  | reservedSize
  /-- A data operand of a size the descriptor does not fix (30_encoding.md R90; log 1). -/
  | operandSize
  /-- A `cmd` word other than the three commands (30_encoding.md R97). -/
  | illegalCommand
  deriving DecidableEq, Repr

/-- Decoding a `cmd` word: the exact words of 30_encoding.md R95. -/
def decodeCommand (w : Word) : Except DecodeError Instr :=
  if w = 0x00000000#32 then .ok .nop
  else if w = 0x00000001#32 then .ok .bwt
  else if w = 0x00000002#32 then .ok .clear
  else .error .illegalCommand

/-- The instruction of a descriptor whose `MBZ` is 0 and whose `SZ` is legal. -/
def decodeOperand (write size32 : Bool) (addr : Addr) (d : DataOperand) : Except DecodeError Instr :=
  match write, size32, d with
  | false, false, .none => .ok (.rd8 addr)
  | false, true, .none => .ok (.rd32 addr)
  | true, false, .d8 b => .ok (.wr8 addr b)
  | true, true, .d32 x => .ok (.wr32 addr x)
  | _, _, _ => .error .operandSize

/-- Decoding a `bus` descriptor in the order of 30_encoding.md R92: the `MBZ` check, then `SZ`. -/
def decodeBus (w : Word) (d : DataOperand) : Except DecodeError Instr :=
  if descriptorMbz w ≠ 0#6 then .error .mbzSet
  else if descriptorSz w = 0#2 then decodeOperand (descriptorW w == 1#1) false (descriptorAddr w) d
  else if descriptorSz w = 2#2 then decodeOperand (descriptorW w == 1#1) true (descriptorAddr w) d
  else .error .reservedSize

/-- Decoding a packet (30_encoding.md R90). -/
def decode (p : Packet) : Except DecodeError Instr :=
  match p with
  | .cmd w => decodeCommand w
  | .bus w d => decodeBus w d

/-- A `bus` descriptor from its fields `W`, `SZ` and `ADDR`, with `MBZ = 0` (30_encoding.md R91). -/
def descriptor (write : BitVec 1) (size : BitVec 2) (addr : Addr) : Word :=
  write ++ size ++ 0#6 ++ addr

/-- The packet of an instruction (30_encoding.md R91, R95). -/
def encode (i : Instr) : Packet :=
  match i with
  | .nop => .cmd 0x00000000#32
  | .bwt => .cmd 0x00000001#32
  | .clear => .cmd 0x00000002#32
  | .rd8 addr => .bus (descriptor 0#1 0#2 addr) .none
  | .rd32 addr => .bus (descriptor 0#1 2#2 addr) .none
  | .wr8 addr data => .bus (descriptor 1#1 0#2 addr) (.d8 data)
  | .wr32 addr data => .bus (descriptor 1#1 2#2 addr) (.d32 data)

/-- The data operand of descriptor `w` whose bits are those of `x`: the size `W` and `SZ` fix (30_encoding.md R90). -/
def operandOf (w : Word) (x : Nat) : DataOperand :=
  if descriptorW w = 0#1 then .none
  else if descriptorSz w = 0#2 then .d8 (BitVec.ofNat 8 x)
  else .d32 (BitVec.ofNat 32 x)

/-- The packet of an instruction whose bits are `w`, numbered as spec/opcode_table.json numbers them. The table's two
formats overlap on the three command words, which are also descriptors of byte reads of addresses 0, 1 and 2; such a
word is taken as the command (log 2). Bits 32 and up are the data operand. -/
def packetOfTable (nbits w : Nat) : Packet :=
  let v := w % 2 ^ nbits
  if v ≤ 2 then .cmd (BitVec.ofNat 32 v)
  else .bus (BitVec.ofNat 32 v) (operandOf (BitVec.ofNat 32 v) (v / 2 ^ 32))

/-- The instruction the decoder reads from an instruction whose bits are `w` (log 2). -/
def decodeTableWord (nbits w : Nat) : Option Instr :=
  (decode (packetOfTable nbits w)).toOption

end Sys2Proof
end

