-- ==== Sys2Proof/Machine/Script.lean ====
section
/-! DEFINITION. The host script: symbols, the expansion of pseudo-instructions into lines (30_encoding.md R110-R112),
and the host's control lines (30_encoding.md R113). -/

namespace Sys2Proof.Machine

/-! ## Symbols and operands -/

/-- The values of 30_encoding.md R111. -/
def symbolValue (x : Symbol) : Nat :=
  match x with
  | .regId => 0x000000
  | .regCmd => 0x000004
  | .regStatus => 0x000008
  | .regLen => 0x00000C
  | .regStart => 0x000010
  | .regIrqEn => 0x000014
  | .regNMax => 0x000018
  | .tBase => tBase
  | .saBase => saBase
  | .sa i => saBase + 4 * i

/-- Literals and symbols combined with `+` (30_encoding.md R110; log 25). -/
def operandValue (x : Operand) : Nat :=
  match x with
  | .lit n => n
  | .sym y => symbolValue y
  | .add x y => operandValue x + operandValue y

/-! ## Pseudo-instructions -/

/-- Why a source line has no expansion: a value that does not fit its field (log 25). -/
inductive ScriptError where
  | addressTooLarge (n : Nat)
  | dataTooLarge (n : Nat)
  deriving DecidableEq, Repr

/-- An address operand, 23 bits. -/
def operandAddr (x : Operand) : Except ScriptError Addr :=
  if operandValue x < 2 ^ 23 then .ok (BitVec.ofNat 23 (operandValue x))
  else .error (.addressTooLarge (operandValue x))

/-- A byte operand `D8`. -/
def operandByte (x : Operand) : Except ScriptError Byte :=
  if operandValue x < 2 ^ 8 then .ok (BitVec.ofNat 8 (operandValue x))
  else .error (.dataTooLarge (operandValue x))

/-- A word operand `D32`. -/
def operandWord (x : Operand) : Except ScriptError Word :=
  if operandValue x < 2 ^ 32 then .ok (BitVec.ofNat 32 (operandValue x))
  else .error (.dataTooLarge (operandValue x))

/-- A transaction line encodes to one descriptor (30_encoding.md R110). -/
def transactionLine (i : Instr) : Line := .transaction (encode i)

/-- The command word of a command name (30_encoding.md R112). -/
def commandWord (c : CommandName) : Word :=
  match c with
  | .nop => 0x0#32
  | .bwt => 0x1#32
  | .clear => 0x2#32

/-- `cmd NOP`, `cmd BWT`, `cmd CLEAR`: `wr32 REG_CMD, word` (30_encoding.md R112). -/
def commandLine (c : CommandName) : Line :=
  transactionLine (.wr32 (BitVec.ofNat 23 (symbolValue .regCmd)) (commandWord c))

/-- `wait_idle`: `L: rd32 REG_STATUS` then `jbit 0, L`, with `L` fresh (30_encoding.md R112). -/
def waitIdleLines (fresh : Nat) : List Line :=
  [.label (.fresh fresh), transactionLine (.rd32 (BitVec.ofNat 23 (symbolValue .regStatus))),
    .jbit 0 (.fresh fresh)]

/-- `load_block B0, ..., Bk`: `wr8 T_BASE+j, Bj` for `j = 0..k`, in order (30_encoding.md R112). -/
def loadBlockLines (j : Nat) (bytes : List Operand) : Except ScriptError (List Line) :=
  match bytes with
  | [] => .ok []
  | b :: r => do
    let a ← operandAddr (.add (.sym .tBase) (.lit j))
    let d ← operandByte b
    let rest ← loadBlockLines (j + 1) r
    return transactionLine (.wr8 a d) :: rest

/-- The lines of the source line that stands at place `k` (30_encoding.md R110, R112, R113). -/
def expandLine (k : Nat) (x : SourceLine) : Except ScriptError (List Line) :=
  match x with
  | .label id => .ok [.label (.named id)]
  | .rd8 a => do return [transactionLine (.rd8 (← operandAddr a))]
  | .rd32 a => do return [transactionLine (.rd32 (← operandAddr a))]
  | .wr8 a d => do return [transactionLine (.wr8 (← operandAddr a) (← operandByte d))]
  | .wr32 a d => do return [transactionLine (.wr32 (← operandAddr a) (← operandWord d))]
  | .jbit b id => .ok [.jbit b (.named id)]
  | .jnbit b id => .ok [.jnbit b (.named id)]
  | .jmp id => .ok [.jmp (.named id)]
  | .halt => .ok [.halt]
  | .cmd c => .ok [commandLine c]
  | .waitIdle => .ok (waitIdleLines k)
  | .bwt n => do
    let len ← operandWord n
    return transactionLine (.wr32 (BitVec.ofNat 23 (symbolValue .regLen)) len) :: commandLine .bwt :: waitIdleLines k
  | .loadBlock bytes => loadBlockLines 0 bytes
  | .expect v => do return [.expect (← operandWord v)]

/-- The script of source lines that stand from place `k` on. -/
def assembleFrom (k : Nat) (source : List SourceLine) : Except ScriptError (List Line) :=
  match source with
  | [] => .ok []
  | x :: r => do
    let lines ← expandLine k x
    let rest ← assembleFrom (k + 1) r
    return lines ++ rest

/-- The host script of a program (30_encoding.md R110). -/
def assemble (source : List SourceLine) : Except ScriptError (List Line) :=
  assembleFrom 0 source

/-! ## The host agent's own steps (30_encoding.md R113) -/

/-- The place of the line that defines a label, counted from `k` on. -/
def labelPlace (l : Label) (script : List Line) (k : Nat) : Option Nat :=
  match script with
  | [] => none
  | x :: r => if x = .label l then some k else labelPlace l r (k + 1)

/-- The host moves on to the next line. -/
def nextLine (s : State) : State :=
  s.setAgent { s.agent with line := s.agent.line + 1 }

/-- The host goes to a label; a label the script lacks is refused by name (log 18). -/
def jumpTo (l : Label) (s : State) : Host.Outcome State Fault Refusal :=
  match labelPlace l s.agent.script 0 with
  | some k => .next (s.setAgent { s.agent with line := k })
  | none => .refused (.undefinedLabel l)

/-- `jbit` and `jnbit`: jump if bit `b` of `RES` is `v`, else fall through. -/
def jumpOnBit (b : Fin 32) (v : Bool) (l : Label) (s : State) : Host.Outcome State Fault Refusal :=
  if s.agent.res.getLsbD b.val = v then jumpTo l s else .next (nextLine s)

/-- `halt`. -/
def haltHost (s : State) : State :=
  s.setAgent { s.agent with halted := true }

/-- `expect RES, V`: the host notes whether `RES = V` (log 19). -/
def checkRes (v : Word) (s : State) : State :=
  nextLine (s.setAgent { s.agent with expectOk := s.agent.expectOk && decide (s.agent.res = v) })

end Sys2Proof.Machine
end

