-- ==== Sys2Proof/Machine/Agents.lean ====
section
/-! DEFINITION. The two agents taking turns (00_scope.md R13, 20_memory.md R74): the host's step over the line it stands
on, the engine's step, the reset input, and what `step` and `withFetchWord` of Step.lean are made of. -/

namespace Sys2Proof.Machine

/-- The line the host stands on, unless it has halted or run past the script's end. -/
def hostLine (s : State) : Option Line :=
  if s.agent.halted = true then none else s.agent.script[s.agent.line]?

/-- The transaction of a packet. A descriptor that spells no instruction is refused by name (30_encoding.md R92); a `cmd`
word that is no command is a write to `CMD` all the same (41_commands.md R140, R144; log 3). -/
def issue (p : Packet) (s : State) : Host.Outcome State Fault Refusal :=
  match decode p with
  | .ok i => exec i s
  | .error .illegalCommand => .next (unlessBusy (setError .illegalCmd) s)
  | .error .mbzSet => .refused .busMbzSet
  | .error .reservedSize => .refused .busReservedSize
  | .error .operandSize => .refused .busOperandSize

/-- A host step over a line: the host moves on, then the line's transaction runs; control lines as 30_encoding.md R113
says. -/
def lineStep (x : Line) (s : State) : Host.Outcome State Fault Refusal :=
  match x with
  | .label _ => .next (nextLine s)
  | .transaction p => issue p (nextLine s)
  | .jbit b l => jumpOnBit b true l s
  | .jnbit b l => jumpOnBit b false l s
  | .jmp l => jumpTo l s
  | .halt => .next (haltHost s)
  | .expect v => .next (checkRes v s)

/-- A host step. A host with no line issues nothing, and the block's state persists (60_exceptions.md R225; log 17). -/
def hostStep (s : State) : Host.Outcome State Fault Refusal :=
  match hostLine s with
  | none => .next s
  | some x => lineStep x s

/-- The engine moves next: it runs (00_scope.md R13), and the host's turns before it are spent or the host has no line
(70_reset_and_hazards.md R256; log 6). -/
def engineMoves (s : State) : Bool :=
  s.status.busy && (decide (s.hostTurns = 0) || (hostLine s).isNone)

/-- The host takes one of its turns before the engine's next step. -/
def spendTurn (s : State) : State :=
  if s.status.busy = true then s.setHostTurns (s.hostTurns - 1) else s

/-- One step of whichever agent moves next. -/
def agentStep (s : State) : Host.Outcome State Fault Refusal :=
  if engineMoves s = true then .next (engineStep s) else hostStep (spendTurn s)

/-- One step with the reset input's level: asserted, the block resets and no agent moves (70_reset_and_hazards.md R240;
log 16). -/
def levelStep (s : State) : Host.Outcome State Fault Refusal :=
  match s.resetIn with
  | [] => agentStep s
  | true :: r => .next ((blockReset s).setResetIn r)
  | false :: r => agentStep (s.setResetIn r)

/-- One step of the machine; a state that holds `MODEL_FAULT` has no meaning beyond (10_state.md R46). -/
def machineStep (s : State) : Host.Outcome State Fault Refusal :=
  match s.modelFault with
  | some r => .fault r
  | none => levelStep s

/-- The levels of the reset input with the next one not asserted. -/
def withoutReset (levels : List Bool) : List Bool :=
  match levels with
  | [] => []
  | _ :: r => false :: r

/-- The state with a script of one transaction line loaded, and the host to move next, so that the next step issues
exactly that packet (log 15). -/
def loadPacket (p : Packet) (s : State) : State :=
  { s with
    agent := { s.agent with script := [.transaction p], line := 0, halted := false }
    hostTurns := if s.hostTurns = 0 then 1 else s.hostTurns
    resetIn := withoutReset s.resetIn
    modelFault := none }

end Sys2Proof.Machine
end

