-- ==== Sys2Proof/Machine/Step.lean ====
section
/-! DEFINITION. One step of the machine, and the placing of an instruction where the next step fetches. -/

namespace Sys2Proof.Machine

/-- One step (20_memory.md R74). -/
def step (s : State) : Host.Outcome State Fault Refusal :=
  machineStep s

/-- The state whose very next step runs the instruction with the table bits `w` (log 2, 15). -/
def State.withFetchWord (s : State) (nbits w : Nat) : State :=
  loadPacket (packetOfTable nbits w) s

end Sys2Proof.Machine
end

