-- ==== Sys2Proof/WellFormed.lean ====
section
/-! DEFINITION. Which packets spell an instruction, and which host scripts have a meaning. An `Instr` needs no check of
its own: its fields have exactly the widths of 30_encoding.md R93. -/

namespace Sys2Proof

/-- A data operand has the size the descriptor's `W` and `SZ` fix (30_encoding.md R90). -/
def operandFits (w : Word) (d : DataOperand) : Bool :=
  match d with
  | .none => descriptorW w == 0#1
  | .d8 _ => descriptorW w == 1#1 && descriptorSz w == 0#2
  | .d32 _ => descriptorW w == 1#1 && descriptorSz w == 2#2

/-- The packet spells one instruction of the table (30_encoding.md R91, R92, R95). -/
def Packet.wellFormed (p : Packet) : Bool :=
  match p with
  | .cmd w => w == 0#32 || w == 1#32 || w == 2#32
  | .bus w d =>
    descriptorMbz w == 0#6 && (descriptorSz w == 0#2 || descriptorSz w == 2#2) && operandFits w d

/-- The label a line defines. -/
def Line.defines (line : Line) : Option Label :=
  match line with
  | .label l => some l
  | _ => none

/-- The label a line jumps to (30_encoding.md R113). -/
def Line.target (line : Line) : Option Label :=
  match line with
  | .jbit _ l => some l
  | .jnbit _ l => some l
  | .jmp l => some l
  | _ => none

/-- Every transaction line spells an instruction. A command word that is no command is a transaction the block takes
(41_commands.md R144), so a `cmd` packet is never ill-formed here. -/
def Line.wellFormed (line : Line) : Bool :=
  match line with
  | .transaction (.bus w d) => (Packet.bus w d).wellFormed
  | _ => true

/-- No label is defined twice, every target is defined, and every line is well-formed (30_encoding.md R110, R113). -/
def scriptWellFormed (script : List Line) : Bool :=
  decide (script.filterMap Line.defines).Nodup &&
  (script.filterMap Line.target).all (fun l => decide (l ∈ script.filterMap Line.defines)) &&
  script.all Line.wellFormed

end Sys2Proof
end

