-- ==== Sys2Proof/Safety.lean ====
section
/-! DEFINITION. What counts as a safe run, in the terms the claims use: final states (70_reset_and_hazards.md R255), row
orders and the inverse transform (42_bwt_engine.md R161, R182), and the invariant every step keeps. -/

namespace Sys2Proof.Machine

/-- The end of a run: the host has halted, `BUSY = 0` and `MODEL_FAULT = false` (70_reset_and_hazards.md R255). -/
def State.Final (s : State) : Prop :=
  s.agent.halted = true ∧ s.status.busy = false ∧ s.modelFault = none

/-- `k` steps of the machine, stopping at the first fault or refusal. -/
def runSteps (k : Nat) (s : State) : Host.Outcome State Fault Refusal :=
  match k with
  | 0 => .next s
  | k + 1 =>
    match step s with
    | .next t => runSteps k t
    | .fault r => .fault r
    | .refused r => .refused r

/-! ## The result of a run, without the engine's way of computing it -/

/-- A row order of a block: a permutation of `[0, n)` that lists the rotations in non-decreasing order (42_bwt_engine.md
R161). -/
def IsRowOrder (block : List Byte) (pi : List Nat) : Prop :=
  pi.Perm (List.range block.length) ∧ pi.Pairwise (RowLe block)

/-- `T[0..n-1]` holds the block, every byte written (42_bwt_engine.md R160). -/
def HoldsBlock (s : State) (block : List Byte) : Prop :=
  ∀ i (h : i < block.length), Memory.read s.tMem i = some block[i]

/-- The positions of `L` sorted by byte value, equal bytes in rising order of position: the successor of each row under
the cyclic inverse (42_bwt_engine.md R182). -/
def inverseLinks (out : List Byte) : List Nat :=
  (List.range out.length).insertionSort (fun p q => (out.getD p 0#8).toNat ≤ (out.getD q 0#8).toNat)

/-- Follow the links from a row, `k` bytes. -/
def followLinks (out : List Byte) (links : List Nat) (row k : Nat) : List Byte :=
  match k with
  | 0 => []
  | k + 1 =>
    let next := links.getD row 0
    out.getD next 0#8 :: followLinks out links next k

/-- The inverse BWT of `L`, "seeded at the start pointer" (42_bwt_engine.md R182). -/
def inverseTransform (out : List Byte) (start : Nat) : List Byte :=
  followLinks out (inverseLinks out) start out.length

/-- A period of a block: `p` divides `n` and `T[j] = T[(j + p) mod n]` for every `j` (42_bwt_engine.md R183). -/
def IsPeriod (block : List Byte) (p : Nat) : Prop :=
  1 ≤ p ∧ p ∣ block.length ∧
    ∀ j, j < block.length → block.getD j 0#8 = block.getD ((j + p) % block.length) 0#8

/-! ## The invariant -/

/-- A legal `N_MAX`: 1 to 1048572 (00_scope.md R7). -/
def NMaxLegal (nMax : Len) : Prop := 1 ≤ nMax.toNat ∧ nMax.toNat ≤ Config.nMaxLimit

/-- `N_MAX` is legal, both memories are in canonical form and inside their depths, and the start pointer is below `N_MAX`
(00_scope.md R7, R8, 10_state.md R35, R36). -/
structure StorageInv (s : State) : Prop where
  nMax_legal  : NMaxLegal s.nMax
  tMem_wf     : Memory.wf s.tMem
  tMem_depth  : ∀ c ∈ s.tMem, c.1 < Config.tDepth s.nMax.toNat
  saMem_wf    : Memory.wf s.saMem
  saMem_depth : ∀ c ∈ s.saMem, c.1 < Config.saDepth s.nMax.toNat
  startPtr_lt : s.startPtr.toNat < s.nMax.toNat

/-- The invariants of `STATUS` (10_state.md R25). -/
structure StatusInv (f : Status) : Prop where
  busy_excludes : f.busy = true → f.done = false ∧ f.err = false
  done_or_err   : ¬ (f.done = true ∧ f.err = true)
  no_code       : f.err = false → f.errCode = .none
  a_code        : f.err = true → f.errCode ≠ .none

/-- What holds while the engine runs (42_bwt_engine.md R160), and `PHASE = IDLE` exactly while it does not (10_state.md
R37). -/
structure RunInv (s : State) : Prop where
  phase_idle : s.engine.phase = .idle ↔ s.status.busy = false
  latched    : s.status.busy = true → s.engine.nLat = s.len
  length_ok  : s.status.busy = true → s.len.toNat ≤ s.nMax.toNat
  input_ok   : s.status.busy = true → 1 ≤ s.len.toNat → inputWritten s s.len.toNat = true
  wrap_ok    : s.status.busy = true → 1 ≤ s.len.toNat → wrapByteOk s s.len.toNat = true

/-- What the sort works in stays inside its bounds: the 64-frame stack, whose frames index `SA[0..n]` with a depth of at
most `n` and a limit of at least -1, the disjoint regions of `SA[0..n]` with an entry for each B* suffix in PA and in
ISA, `m <= n`, and the depth of the depth doubling (10_state.md R40, R42, 42_bwt_engine.md R175, R177, R178). -/
structure BoundsInv (e : Engine) : Prop where
  stack_depth : e.ssize ≤ Config.stackSize
  frames_ok   : ∀ k (h : k < 64), k < e.ssize → frameOk e.nLat.toNat e.stack[k] = true
  regions     : regionsOk e.nLat.toNat e.pa e.isa e.buffer = true
  entries     : e.pa.len = e.m ∧ e.isa.len = e.m
  m_le        : e.m ≤ e.nLat.toNat
  depth_le    : e.depth ≤ max 1 e.m

/-- The hidden state stays inside its bounds, the buckets' indexes among them (10_state.md R39-R42). -/
structure HiddenInv (e : Engine) : Prop extends BoundsInv e where
  bucketA_ok : Memory.wf e.bucketA ∧ ∀ c ∈ e.bucketA, c.1 < Config.bucketASize
  bucketB_ok : Memory.wf e.bucketB ∧ ∀ c ∈ e.bucketB, c.1 < Config.bucketBSize

/-- The invariant of the machine. -/
structure State.Inv (s : State) : Prop where
  storage : StorageInv s
  status  : StatusInv s.status
  run     : RunInv s
  hidden  : HiddenInv s.engine

/-! ## The invariant of the sort -/

/-- The positions of the entries of PA. -/
def paPositions (s : State) : List Nat := (regionRead s.saMem s.engine.pa).map entryPos

/-- The frames in use, the top one last. -/
def framesOf (e : Engine) : List Frame := e.stack.toList.take e.ssize

/-- Entry `k` of PA stands in the range of a frame. -/
abbrev InFrame (pa : Region) (f : Frame) (k : Nat) : Prop :=
  (frameRange pa f).1 ≤ k ∧ k < (frameRange pa f).1 + (frameRange pa f).2

/-- PA lists the B* positions of the run's block, for some class of its last position (42_bwt_engine.md R173). -/
def HoldsBStar (s : State) : Prop :=
  ∃ last, (paPositions s).Perm (bStarPositions (suffixClasses last (blockOf s (runLength s))))

/-- What SSSORT has done so far, `d` bytes deep: the entries before `sorted` are in order; of those taken up since, any
two are in order unless both stand in the range of one frame; the entries of a frame agree on the bytes before its
depth (42_bwt_engine.md R174). -/
structure SubstringInv (block : List Byte) (d : Nat) (e : Engine) (pa : List Word) : Prop where
  cursors : e.sorted ≤ e.taken ∧ e.taken ≤ pa.length
  run     : (pa.take e.sorted).Pairwise (PrefixLe block d)
  pending : ∀ k l, e.sorted ≤ k → k < l → l < e.taken →
    PrefixLe block d (pa.getD k 0#32) (pa.getD l 0#32) ∨ ∃ f ∈ framesOf e, InFrame e.pa f k ∧ InFrame e.pa f l
  ranges  : ∀ f ∈ framesOf e, e.pa.base ≤ f.first.toNat ∧ e.sorted ≤ (frameRange e.pa f).1 ∧
    (frameRange e.pa f).1 + (frameRange e.pa f).2 ≤ e.taken ∧ f.depth.toNat < d ∧
    ∀ k l j, InFrame e.pa f k → InFrame e.pa f l → j < f.depth.toNat →
      byteAt block j (entryPos (pa.getD k 0#32)) = byteAt block j (entryPos (pa.getD l 0#32))
  apart   : (framesOf e).Pairwise (fun f g => ∀ k, ¬ (InFrame e.pa f k ∧ InFrame e.pa g k))

/-- Two positions agree on every byte up to the B* suffixes `h` ahead of them, where those are the same distance away. -/
def AgreeAhead (block : List Byte) (ps : List Nat) (h p q : Nat) : Prop :=
  aheadDistance block.length ps h p = aheadDistance block.length ps h q →
    ∀ j, j < aheadDistance block.length ps h p → byteAt block j p = byteAt block j q

/-- What TRSORT has done so far: PA is in the order of the ranks, and a rank counts the entries of lower rank; a lower
rank means an earlier rotation; the rotation of a marked entry equals every one it ties with; ties agree up to the B*
suffix `depth` ahead, and twice as far where this round has come past them; a frame holds a whole group of ties
(42_bwt_engine.md R175). -/
structure RefineInv (block : List Byte) (e : Engine) (pa isa : List Word) : Prop where
  ordered : (pa.map entryPos).Pairwise (fun p q => rankAt (textOrder pa) isa p ≤ rankAt (textOrder pa) isa q)
  counted : ∀ p ∈ textOrder pa, rankAt (textOrder pa) isa p =
    (textOrder pa).countP (fun q => decide (rankAt (textOrder pa) isa q < rankAt (textOrder pa) isa p))
  sound   : ∀ p ∈ textOrder pa, ∀ q ∈ textOrder pa, rankAt (textOrder pa) isa p < rankAt (textOrder pa) isa q →
    lexLt (rotation block p) (rotation block q) = true
  marked  : ∀ x ∈ pa, x.msb = true → ∀ q ∈ textOrder pa,
    rankAt (textOrder pa) isa q = rankAt (textOrder pa) isa (entryPos x) → rotation block q = rotation block (entryPos x)
  tied    : ∀ p ∈ textOrder pa, ∀ q ∈ textOrder pa, rankAt (textOrder pa) isa p = rankAt (textOrder pa) isa q →
    AgreeAhead block (textOrder pa) e.depth p q
  passed  : ∀ p ∈ textOrder pa, ∀ q ∈ textOrder pa, rankAt (textOrder pa) isa p = rankAt (textOrder pa) isa q →
    rankAt (textOrder pa) isa p < e.taken →
    (∀ f ∈ framesOf e, (frameRange e.pa f).1 ≠ rankAt (textOrder pa) isa p) →
    AgreeAhead block (textOrder pa) (2 * e.depth) p q
  cursor  : e.taken ≤ pa.length ∧
    (textOrder pa).countP (fun p => decide (rankAt (textOrder pa) isa p < e.taken)) = e.taken
  groups  : ∀ f ∈ framesOf e, e.pa.base ≤ f.first.toNat ∧ f.depth.toNat = e.depth ∧ 2 ≤ (frameRange e.pa f).2 ∧
    (frameRange e.pa f).1 + (frameRange e.pa f).2 ≤ e.taken ∧
    (textOrder pa).countP (fun p => decide (rankAt (textOrder pa) isa p = (frameRange e.pa f).1)) =
      (frameRange e.pa f).2
  apart   : (framesOf e).Pairwise (fun f g => (frameRange e.pa f).1 ≠ (frameRange e.pa g).1)

/-- What the phases of a run hand on: from SSSORT until the induction PA lists the B* suffixes, and they are sorted as
far as SSSORT and TRSORT have come; in CONSTRUCT they are in the order of their rotations, and once it has written
them `SA[0..n-1]` hold `L` in their low bytes (42_bwt_engine.md R174, R175, R179). -/
structure SortInv (s : State) : Prop where
  bStar     : s.engine.phase = .sssort ∨ s.engine.phase = .trsort ∨ (s.engine.phase = .construct ∧ s.engine.work ≠ 0) →
    HoldsBStar s
  substring : s.engine.phase = .sssort →
    SubstringInv (blockOf s (runLength s)) (substringDepth (runLength s) (textOrder (loadWork s).pa)) s.engine
      (loadWork s).pa
  refined   : s.engine.phase = .trsort → RefineInv (blockOf s (runLength s)) s.engine (loadWork s).pa (loadWork s).isa
  sorted    : s.engine.phase = .construct → s.engine.work ≠ 0 →
    (paPositions s).Pairwise (RowLe (blockOf s (runLength s)))
  placed    : s.engine.phase = .construct → s.engine.work = 0 → ∀ i, i < runLength s →
    ∃ w, Memory.read s.saMem i = some w ∧ w.extractLsb' 0 8 = (transform (blockOf s (runLength s))).getD i 0#8

end Sys2Proof.Machine
end

