-- ==== Sys2Proof/Certificates/Slice0/Obligations.lean ====
section
/-! DEFINITION. The statements for the provers. Each docstring names the rules of spec/ it formalises. -/

open Sys2Proof Sys2Proof.Machine

/-! ## Encoding (30_encoding.md) -/

/-- Every instruction, with every operand at every value its encoding admits, decodes from its own encoding
(30_encoding.md R91, R92, R95). -/
def Obligations.DecodeOfEncodeIsTheInstruction : Prop :=
  ∀ i : Instr, decode (encode i) = .ok i

/-- 30_encoding.md R92: the match and mask of each `bus` row, with the operand the row takes. -/
def Obligations.BusRowsMatchTheirMasks : Prop :=
  ∀ w : Word,
    (w &&& 0xFF800000#32 = 0x00000000#32 → decode (.bus w .none) = .ok (.rd8 (w.setWidth 23))) ∧
    (w &&& 0xFF800000#32 = 0x40000000#32 → decode (.bus w .none) = .ok (.rd32 (w.setWidth 23))) ∧
    (∀ d, w &&& 0xFF800000#32 = 0x80000000#32 → decode (.bus w (.d8 d)) = .ok (.wr8 (w.setWidth 23) d)) ∧
    (∀ d, w &&& 0xFF800000#32 = 0xC0000000#32 → decode (.bus w (.d32 d)) = .ok (.wr32 (w.setWidth 23) d))

/-- 30_encoding.md R92: the two named refusals of a descriptor, the `MBZ` check first, whatever operand comes with it;
and a refused descriptor is never issued: the step of a host that stands on it stops by the decoder's name. -/
def Obligations.ReservedDescriptorsAreRefusedByName : Prop :=
  ∀ (w : Word) (d : DataOperand),
    ((w.extractLsb' 23 6 ≠ 0#6 → decode (.bus w d) = .error .mbzSet) ∧
      (w.extractLsb' 23 6 = 0#6 → w.extractLsb' 29 2 = 1#2 ∨ w.extractLsb' 29 2 = 3#2 →
        decode (.bus w d) = .error .reservedSize)) ∧
    ∀ s : State, s.modelFault = none → s.resetIn = [] → hostLine s = some (.transaction (.bus w d)) →
      s.status.busy = false ∨ 1 ≤ s.hostTurns →
      (w.extractLsb' 23 6 ≠ 0#6 → step s = .refused .busMbzSet) ∧
      (w.extractLsb' 23 6 = 0#6 → w.extractLsb' 29 2 = 1#2 ∨ w.extractLsb' 29 2 = 3#2 →
        step s = .refused .busReservedSize)

/-- A packet is well-formed exactly if it decodes, and then it is the encoding of what it decodes to: no instruction has
two encodings (30_encoding.md R91, R92, R95; the operand's size is the model's log 1). -/
def Obligations.PacketsThatDecodeAreEncodings : Prop :=
  ∀ p : Packet, (p.wellFormed = true ↔ ∃ i, decode p = .ok i) ∧ ∀ i : Instr, decode p = .ok i → encode i = p

/-- 30_encoding.md R95: the three command words, and no other word is a command. -/
def Obligations.CommandWordsAreExact : Prop :=
  ∀ w : Word,
    (decode (.cmd w) = .ok .nop ↔ w = 0x00000000#32) ∧ (decode (.cmd w) = .ok .bwt ↔ w = 0x00000001#32) ∧
    (decode (.cmd w) = .ok .clear ↔ w = 0x00000002#32) ∧
    (w ≠ 0x00000000#32 → w ≠ 0x00000001#32 → w ≠ 0x00000002#32 → decode (.cmd w) = .error .illegalCommand)

/-- Words written out from the encodings of 30_encoding.md R91 and R95, one of each row (95_test_vectors.md B1, B32,
B33 and P1). -/
def Obligations.WrittenOutWordsDecode : Prop :=
  decode (.cmd 0b00000000000000000000000000000000#32) = .ok .nop ∧
  decode (.cmd 0b00000000000000000000000000000001#32) = .ok .bwt ∧
  decode (.cmd 0b00000000000000000000000000000010#32) = .ok .clear ∧
  decode (.bus 0b00000000000100000000000000000010#32 .none) = .ok (.rd8 0x100002#23) ∧
  decode (.bus 0b01000000000000000000000000000000#32 .none) = .ok (.rd32 0x000000#23) ∧
  decode (.bus 0b10000000000100000000000000000110#32 (.d8 0x62#8)) = .ok (.wr8 0x100006#23 0x62#8) ∧
  decode (.bus 0b11000000000000000000000000001100#32 (.d32 6#32)) = .ok (.wr32 0x00000C#23 6#32)

/-! ## The address map (20_memory.md) -/

/-- 40_bus_access.md R120, 00_scope.md R7: the window and index of every byte and word transaction, at every legal
`N_MAX`; at the default, `T_DEPTH = 900004` and `SA_DEPTH = 900001`. -/
def Obligations.AddressMapIsTheSpecs : Prop :=
  (∀ nMax : Nat, nMax ≤ 1048572 → ∀ (a : Addr) (win : Window) (i : Nat),
    (decodeAddr nMax a .byte = some (win, i) ↔ win = .tMem ∧ a.toNat = 0x100000 + i ∧ i < Config.tDepth nMax) ∧
    (decodeAddr nMax a .word = some (win, i) ↔
      (win = .reg ∧ a.toNat = i ∧ i ≤ 0xFF ∧ i % 4 = 0) ∨
      (win = .tMem ∧ a.toNat = 0x100000 + i ∧ i % 4 = 0 ∧ i + 3 < Config.tDepth nMax) ∨
      (win = .saMem ∧ a.toNat = 0x400000 + 4 * i ∧ i < Config.saDepth nMax))) ∧
  (∀ nMax : Nat, Config.saDepth nMax = nMax + 1 ∧ Config.tDepth nMax % 4 = 0 ∧ nMax + 1 ≤ Config.tDepth nMax ∧
    Config.tDepth nMax ≤ nMax + 4) ∧
  Config.tDepth 900000 = 900004 ∧ Config.saDepth 900000 = 900001

/-- 20_memory.md R64, 60_exceptions.md R205: a transaction to an unmapped address, of a size its window does not take,
unaligned, or past the window's depth raises `BusError`, the model's sticky fault, and changes nothing else. -/
def Obligations.BusErrorOnlyMarksTheFault : Prop :=
  ∀ (s : State) (a : Addr) (d8 : Byte) (d32 : Word), s.nMax.toNat ≤ Config.nMaxLimit →
    (a.toNat < 0x100000 ∨ 0x100000 + Config.tDepth s.nMax.toNat ≤ a.toNat →
      exec (.rd8 a) s = .next { s with modelFault := some (.busError a) } ∧
      exec (.wr8 a d8) s = .next { s with modelFault := some (.busError a) }) ∧
    ((0xFF < a.toNat ∧ a.toNat < 0x100000) ∨ (0x100000 + Config.tDepth s.nMax.toNat ≤ a.toNat ∧ a.toNat < 0x400000) ∨
        0x400000 + 4 * Config.saDepth s.nMax.toNat ≤ a.toNat ∨ a.toNat % 4 ≠ 0 →
      exec (.rd32 a) s = .next { s with modelFault := some (.busError a) } ∧
      exec (.wr32 a d32) s = .next { s with modelFault := some (.busError a) })

/-- 10_state.md R46: `MODEL_FAULT` is sticky. A state that holds it has no step, and neither an instruction nor reset
clears it, and it is never final. -/
def Obligations.ModelFaultIsSticky : Prop :=
  (∀ (s : State) (r : Fault), s.modelFault = some r → step s = .fault r) ∧
  (∀ (i : Instr) (s t : State), s.modelFault ≠ none → exec i s = .next t → t.modelFault ≠ none) ∧
  (∀ s : State, (blockReset s).modelFault = s.modelFault) ∧
  (∀ s : State, s.modelFault ≠ none → ¬ s.Final)

/-! ## Bus transactions (40_bus_access.md) -/

/-- 40_bus_access.md R122, 20_memory.md R71, R73: RD8, whatever `BUSY` is, puts the byte, zero-extended, into `RES` and
changes nothing else: the stored byte, or, where nothing has written it, a fresh draw, the free byte of this draw's
number. The numbering of draws is the model's (log 21). -/
def Obligations.Rd8ReadsAByte : Prop :=
  ∀ (s : State) (i : Nat), s.nMax.toNat ≤ Config.nMaxLimit → i < Config.tDepth s.nMax.toNat →
    (∀ b, Memory.read s.tMem i = some b →
      exec (.rd8 (BitVec.ofNat 23 (0x100000 + i))) s =
        .next { s with agent := { s.agent with res := b.setWidth 32 } }) ∧
    (Memory.read s.tMem i = none →
      exec (.rd8 (BitVec.ofNat 23 (0x100000 + i))) s =
        .next { s with
          agent := { s.agent with res := (Config.freeByte s.draws).setWidth 32 }
          draws := s.draws + 1 })

/-- 40_bus_access.md R121, the register column; 10_state.md R23, R24, R30-R34. -/
def Obligations.Rd32ReadsEachRegister : Prop :=
  ∀ (s : State) (a : Addr) (v : Word),
    (a = 0x00#23 ∧ v = 0x53410001#32) ∨ (a = 0x04#23 ∧ v = 0#32) ∨ (a = 0x08#23 ∧ v = s.status.word) ∨
    (a = 0x0C#23 ∧ v = s.len.setWidth 32) ∨ (a = 0x10#23 ∧ v = s.startPtr.setWidth 32) ∨
    (a = 0x14#23 ∧ v = s.irqEn.setWidth 32) ∨ (a = 0x18#23 ∧ v = s.nMax.setWidth 32) ∨
    (0x1C ≤ a.toNat ∧ a.toNat ≤ 0xFC ∧ a.toNat % 4 = 0 ∧ v = 0#32) →
    exec (.rd32 a) s = .next { s with agent := { s.agent with res := v } }

/-- 10_state.md R25, 30_encoding.md R99: bit by bit, the word a read of `STATUS` returns. -/
def Obligations.StatusWordLayout : Prop :=
  ∀ s : State, ∃ t, exec (.rd32 0x08#23) s = .next t ∧
    t.agent.res.getLsbD 0 = s.status.busy ∧ t.agent.res.getLsbD 1 = s.status.done ∧
    t.agent.res.getLsbD 2 = s.status.err ∧ t.agent.res.getLsbD 3 = s.status.viol ∧
    t.agent.res.extractLsb' 4 4 =
      (match s.status.errCode with
        | .none => 0#4 | .illegalCmd => 1#4 | .len => 2#4 | .wrap => 3#4 | .internal => 4#4) ∧
    t.agent.res.extractLsb' 8 24 = 0#24

/-- 20_memory.md R66, 40_bus_access.md R121: a word read of `T_MEM` puts every written byte `T[i+k]` in lane `k`; the
read changes nothing but `RES` and the model's count of draws. -/
def Obligations.Rd32ReadsATWordLittleEndian : Prop :=
  ∀ (s : State) (i : Nat), s.nMax.toNat ≤ Config.nMaxLimit → i % 4 = 0 → i + 3 < Config.tDepth s.nMax.toNat →
    ∃ t, exec (.rd32 (BitVec.ofNat 23 (0x100000 + i))) s = .next t ∧
      t = { s with agent := { s.agent with res := t.agent.res }, draws := t.draws } ∧
      (∀ k, k < 4 → ∀ b : Byte, Memory.read s.tMem (i + k) = some b → t.agent.res.extractLsb' (8 * k) 8 = b) ∧
      ((∀ k, k < 4 → Memory.read s.tMem (i + k) ≠ none) → t.draws = s.draws)

/-- 20_memory.md R72, R73: a read of `SA[i]` returns a fresh draw while the engine owns it or where nothing has been
written, and else the stored word. -/
def Obligations.Rd32ReadsAnSaWord : Prop :=
  ∀ (s : State) (i : Nat), s.nMax.toNat ≤ Config.nMaxLimit → i < Config.saDepth s.nMax.toNat →
    (s.status.busy = true → i ≤ s.engine.nLat.toNat →
      exec (.rd32 (BitVec.ofNat 23 (0x400000 + 4 * i))) s =
        .next { s with agent := { s.agent with res := Config.freeWord s.draws }, draws := s.draws + 1 }) ∧
    (s.status.busy = false ∨ s.engine.nLat.toNat < i → ∀ w, Memory.read s.saMem i = some w →
      exec (.rd32 (BitVec.ofNat 23 (0x400000 + 4 * i))) s = .next { s with agent := { s.agent with res := w } }) ∧
    (Memory.read s.saMem i = none →
      exec (.rd32 (BitVec.ofNat 23 (0x400000 + 4 * i))) s =
        .next { s with agent := { s.agent with res := Config.freeWord s.draws }, draws := s.draws + 1 })

/-- 20_memory.md R69: no read has a side effect on the block. At every address, mapped or not, RD8 and RD32 complete and
leave every register, status bit, memory byte and word and the engine as they were; only `RES`, the model's count of
draws and, on a bus error, the model's fault mark may change. -/
def Obligations.ReadsHaveNoSideEffect : Prop :=
  ∀ (s : State) (a : Addr) (i : Instr), i = .rd8 a ∨ i = .rd32 a →
    ∃ t, exec i s = .next t ∧
      t = { s with
        agent := { s.agent with res := t.agent.res }
        draws := t.draws
        modelFault := t.modelFault }

/-- 40_bus_access.md R124: WR8 while idle stores its byte, marks it written, and changes nothing else. -/
def Obligations.Wr8StoresItsByte : Prop :=
  ∀ (s : State) (i : Nat) (b : Byte), s.nMax.toNat ≤ Config.nMaxLimit → i < Config.tDepth s.nMax.toNat →
    s.status.busy = false →
    ∃ t, exec (.wr8 (BitVec.ofNat 23 (0x100000 + i)) b) s = .next t ∧
      t = { s with tMem := t.tMem } ∧
      Memory.read t.tMem i = some b ∧ ∀ j, j ≠ i → Memory.read t.tMem j = Memory.read s.tMem j

/-- 20_memory.md R66, 40_bus_access.md R123: WR32 to `T_MEM` while idle stores its four bytes, the lowest lane at the
lowest index, and changes nothing else. -/
def Obligations.Wr32StoresATWordLittleEndian : Prop :=
  ∀ (s : State) (i : Nat) (w : Word), s.nMax.toNat ≤ Config.nMaxLimit → i % 4 = 0 →
    i + 3 < Config.tDepth s.nMax.toNat → s.status.busy = false →
    ∃ t, exec (.wr32 (BitVec.ofNat 23 (0x100000 + i)) w) s = .next t ∧
      t = { s with tMem := t.tMem } ∧
      (∀ k, k < 4 → Memory.read t.tMem (i + k) = some (w.extractLsb' (8 * k) 8)) ∧
      ∀ j, j < i ∨ i + 3 < j → Memory.read t.tMem j = Memory.read s.tMem j

/-- 40_bus_access.md R123: WR32 to `SA_MEM` while idle stores its word, marks it written, and changes nothing else. -/
def Obligations.Wr32StoresAnSaWord : Prop :=
  ∀ (s : State) (i : Nat) (w : Word), s.nMax.toNat ≤ Config.nMaxLimit → i < Config.saDepth s.nMax.toNat →
    s.status.busy = false →
    ∃ t, exec (.wr32 (BitVec.ofNat 23 (0x400000 + 4 * i)) w) s = .next t ∧
      t = { s with saMem := t.saMem } ∧
      Memory.read t.saMem i = some w ∧ ∀ j, j ≠ i → Memory.read t.saMem j = Memory.read s.saMem j

/-- 20_memory.md R67: a byte write then a read of the aligned word that holds it returns the new byte in its lane and
every other written byte of the word in its own; a word write then a byte read returns that byte's lane. -/
def Obligations.MixedWidthAccessesAgree : Prop :=
  ∀ (s : State) (i k : Nat) (b : Byte) (w : Word), s.nMax.toNat ≤ Config.nMaxLimit → i % 4 = 0 →
    i + 3 < Config.tDepth s.nMax.toNat → k < 4 → s.status.busy = false →
    (∃ t u, exec (.wr8 (BitVec.ofNat 23 (0x100000 + (i + k))) b) s = .next t ∧
      exec (.rd32 (BitVec.ofNat 23 (0x100000 + i))) t = .next u ∧
      u.agent.res.extractLsb' (8 * k) 8 = b ∧
      ∀ j c, j < 4 → j ≠ k → Memory.read s.tMem (i + j) = some c → u.agent.res.extractLsb' (8 * j) 8 = c) ∧
    (∃ t u, exec (.wr32 (BitVec.ofNat 23 (0x100000 + i)) w) s = .next t ∧
      exec (.rd8 (BitVec.ofNat 23 (0x100000 + (i + k)))) t = .next u ∧
      u.agent.res = (w.extractLsb' (8 * k) 8).setWidth 32)

/-- 10_state.md R30: a write of `LEN` while idle stores bits [23:0] and nothing else changes, whatever bits [31:24]
are and whether or not the length is at most `N_MAX`; while `BUSY = 1` it only sets `VIOL`; a read returns `LEN`
zero-extended. -/
def Obligations.LenTakesItsLow24BitsWhileIdle : Prop :=
  ∀ (s : State) (w : Word),
    (s.status.busy = false → exec (.wr32 0x0C#23 w) s = .next { s with len := w.extractLsb' 0 24 }) ∧
    (s.status.busy = true → exec (.wr32 0x0C#23 w) s = .next { s with status := { s.status with viol := true } }) ∧
    exec (.rd32 0x0C#23) s = .next { s with agent := { s.agent with res := s.len.setWidth 32 } }

/-- 10_state.md R32: a write of `IRQ_EN` is taken whatever `BUSY` is, and stores bits [2:0]. -/
def Obligations.Wr32IrqEnIsTakenAtAnyTime : Prop :=
  ∀ (s : State) (w : Word), exec (.wr32 0x14#23 w) s = .next { s with irqEn := w.extractLsb' 0 3 }

/-- 10_state.md R34: writes to `ID`, `STATUS`, `START_PTR`, `NMAX` and the reserved offsets are ignored, whatever `BUSY`
is, and set no status bit; the reserved offsets read as 0. -/
def Obligations.ReadOnlyAndReservedOffsetsIgnoreWrites : Prop :=
  ∀ (s : State) (a : Addr) (w : Word),
    (a = 0x00#23 ∨ a = 0x08#23 ∨ a = 0x10#23 ∨ (0x18 ≤ a.toNat ∧ a.toNat ≤ 0xFC ∧ a.toNat % 4 = 0) →
      exec (.wr32 a w) s = .next s) ∧
    (0x1C ≤ a.toNat → a.toNat ≤ 0xFC → a.toNat % 4 = 0 →
      exec (.rd32 a) s = .next { s with agent := { s.agent with res := 0#32 } })

/-- 41_commands.md R140: a write of `CMD` runs the command its word names; while `BUSY = 1` every word but NOP's only
sets `VIOL`; an idle block latches ERR_ILLEGAL_CMD for every other word. -/
def Obligations.Wr32CmdDispatchesItsWord : Prop :=
  ∀ (s : State) (w : Word),
    (∀ i, decode (.cmd w) = .ok i → exec (.wr32 0x04#23 w) s = exec i s) ∧
    (decode (.cmd w) = .error .illegalCommand →
      exec (.wr32 0x04#23 w) s =
        .next { s with
          status :=
            if s.status.busy then { s.status with viol := true }
            else { s.status with err := true, errCode := .illegalCmd, done := false } })

/-- 60_exceptions.md R204: while `BUSY = 1`, each write of `T_MEM`, `SA_MEM`, `LEN`, and of `CMD` with a word other than
0, stores nothing and only sets `VIOL`. -/
def Obligations.BusyBlockRefusesHostWrites : Prop :=
  ∀ (s : State) (i : Instr), s.nMax.toNat ≤ Config.nMaxLimit → s.status.busy = true →
    (∃ k b, k < Config.tDepth s.nMax.toNat ∧ i = .wr8 (BitVec.ofNat 23 (0x100000 + k)) b) ∨
    (∃ k w, k % 4 = 0 ∧ k + 3 < Config.tDepth s.nMax.toNat ∧ i = .wr32 (BitVec.ofNat 23 (0x100000 + k)) w) ∨
    (∃ k w, k < Config.saDepth s.nMax.toNat ∧ i = .wr32 (BitVec.ofNat 23 (0x400000 + 4 * k)) w) ∨
    (∃ w, i = .wr32 0x0C#23 w) ∨ (∃ w, w ≠ 0#32 ∧ i = .wr32 0x04#23 w) →
    exec i s = .next { s with status := { s.status with viol := true } }

/-! ## Commands (41_commands.md) -/

/-- 41_commands.md R141: the word 0 is NOP, and NOP has no effect, busy or idle; `VIOL` is not set. -/
def Obligations.NopHasNoEffect : Prop :=
  decode (.cmd 0x00000000#32) = .ok .nop ∧
  ∀ s : State, exec .nop s = .next s ∧ exec (.wr32 0x04#23 0x00000000#32) s = .next s

/-- 41_commands.md R143: CLEAR while idle makes `DONE`, `ERR`, `ERR_CODE` and `VIOL` 0 and changes nothing else, so `IRQ`
falls; while `BUSY = 1` it is refused and sets `VIOL`. Its word is 2. -/
def Obligations.ClearAcknowledgesTheStatus : Prop :=
  decode (.cmd 0x00000002#32) = .ok .clear ∧
  ∀ s : State, exec (.wr32 0x04#23 0x00000002#32) s = exec .clear s ∧
    (s.status.busy = false →
      ∃ t, exec .clear s = .next t ∧ t = { s with status := t.status } ∧ t.status.word = 0#32 ∧ t.irq = false) ∧
    (s.status.busy = true → exec .clear s = .next { s with status := { s.status with viol := true } })

/-- 41_commands.md R144, 60_exceptions.md R214: a command word other than 0, 1 and 2, written while idle, sets `ERR` with
code 1 and clears `DONE`, whatever error stood before, and changes nothing else; while `BUSY = 1` it only sets
`VIOL`. -/
def Obligations.IllegalCommandLatchesItsError : Prop :=
  ∀ (s : State) (w : Word), w ≠ 0#32 → w ≠ 1#32 → w ≠ 2#32 →
    (s.status.busy = false →
      exec (.wr32 0x04#23 w) s =
        .next { s with status := { s.status with err := true, errCode := .illegalCmd, done := false } }) ∧
    (s.status.busy = true → exec (.wr32 0x04#23 w) s = .next { s with status := { s.status with viol := true } })

/-- 41_commands.md R140, R142, 60_exceptions.md R212: what turns a BWT away, in the order of the checks; while `BUSY = 1`
it is refused and only sets `VIOL`. -/
def Obligations.BwtChecksInOrder : Prop :=
  ∀ s : State,
    (s.status.busy = true → exec .bwt s = .next { s with status := { s.status with viol := true } }) ∧
    (s.status.busy = false →
      (s.nMax.toNat < s.len.toNat →
        exec .bwt s = .next { s with status := { s.status with err := true, errCode := .len, done := false } }) ∧
      (1 ≤ s.len.toNat → s.len.toNat ≤ s.nMax.toNat → (∃ j, j ≤ s.len.toNat ∧ Memory.read s.tMem j = none) →
        exec .bwt s = .next { s with modelFault := some .unwrittenInput }) ∧
      (1 ≤ s.len.toNat → s.len.toNat ≤ s.nMax.toNat → (∀ j, j ≤ s.len.toNat → Memory.read s.tMem j ≠ none) →
        Memory.read s.tMem s.len.toNat ≠ Memory.read s.tMem 0 →
        exec .bwt s = .next { s with status := { s.status with err := true, errCode := .wrap, done := false } }))

/-- 41_commands.md R142: a BWT with a legal length, a written input and its wrap byte is accepted: `BUSY` 1, `DONE`,
`ERR` and `ERR_CODE` 0, `VIOL` kept, `N_LAT = LEN`, `PHASE = CLASSIFY`; no other register and no memory changes. -/
def Obligations.BwtIsAccepted : Prop :=
  ∀ s : State, s.status.busy = false → s.len.toNat ≤ s.nMax.toNat →
    (1 ≤ s.len.toNat → (∀ j, j ≤ s.len.toNat → Memory.read s.tMem j ≠ none) ∧
      Memory.read s.tMem s.len.toNat = Memory.read s.tMem 0) →
    ∃ t, exec .bwt s = .next t ∧
      t = { s with status := t.status, engine := t.engine, hostTurns := t.hostTurns, draws := t.draws } ∧
      t.status = { busy := true, done := false, err := false, viol := s.status.viol, errCode := .none } ∧
      t.engine.phase = .classify ∧ t.engine.nLat = s.len

/-! ## The engine (42_bwt_engine.md) -/

/-- 42_bwt_engine.md R166: the completion step, of a run of `n >= 1` bytes whose block is `T[0..n-1]`: `SA[i]` is byte
`L[i]` zero-extended, `START_PTR` a row of `[lo, lo + cnt - 1]`, `BUSY` 0, `DONE` 1; `SA[n]` is written, no `SA[i]` with
`i > n` changes, and no other register and no byte of `T_MEM` changes. `L` is that of any row order (R162). -/
def Obligations.CompletionPublishesTheTransform : Prop :=
  ∀ (s : State) (block : List Byte) (pi : List Nat),
    s.engine.phase = .construct → s.engine.work = 0 → s.engine.nLat.toNat = block.length → 1 ≤ block.length →
    HoldsBlock s block → IsRowOrder block pi →
    ∃ t, engineStep s = t ∧
      t = { s with
        status := { s.status with busy := false, done := true }
        startPtr := t.startPtr
        saMem := t.saMem
        engine := { s.engine with phase := .idle }
        hostTurns := t.hostTurns
        draws := t.draws } ∧
      (∀ i (h : i < pi.length), Memory.read t.saMem i =
        some ((block.getD ((pi[i] + block.length - 1) % block.length) 0#8).setWidth 32)) ∧
      Memory.read t.saMem block.length ≠ none ∧
      (∀ i, block.length < i → Memory.read t.saMem i = Memory.read s.saMem i) ∧
      rowsBelow block ≤ t.startPtr.toNat ∧ t.startPtr.toNat < rowsBelow block + rowsEqual block

/-- 42_bwt_engine.md R164, R165: a run of the empty block completes with `SA_MEM` unchanged and `START_PTR = 0`; a run of
one byte completes with `SA[0]` that byte and `START_PTR = 0`; both straight from CLASSIFY (R172). -/
def Obligations.ShortBlocksCompleteTrivially : Prop :=
  ∀ s : State, s.engine.phase = .classify → s.engine.work = 0 →
    (s.engine.nLat = 0#24 →
      (engineStep s).saMem = s.saMem ∧ (engineStep s).startPtr = 0#24 ∧
      (engineStep s).status = { s.status with busy := false, done := true }) ∧
    (∀ b, s.engine.nLat = 1#24 → Memory.read s.tMem 0 = some b →
      Memory.read (engineStep s).saMem 0 = some (b.setWidth 32) ∧ (engineStep s).startPtr = 0#24 ∧
      (engineStep s).status = { s.status with busy := false, done := true })

/-- 42_bwt_engine.md R169, 20_memory.md R80: whatever an engine step does, every byte of `T_MEM`, every `SA[i]` with `i >
n`, `LEN`, `IRQ_EN`, `NMAX` and `VIOL` stay, and so do the host and the fault mark, and `START_PTR` until the step
that completes; with `n = 0` all of `SA_MEM` stays (R164). -/
def Obligations.EngineStepIsConfined : Prop :=
  ∀ s : State,
    (engineStep s).tMem = s.tMem ∧ (engineStep s).len = s.len ∧ (engineStep s).irqEn = s.irqEn ∧
    (engineStep s).nMax = s.nMax ∧
    (engineStep s).status.viol = s.status.viol ∧ (engineStep s).agent = s.agent ∧
    (engineStep s).modelFault = s.modelFault ∧ (engineStep s).resetIn = s.resetIn ∧
    (∀ i, s.engine.nLat.toNat < i → Memory.read (engineStep s).saMem i = Memory.read s.saMem i) ∧
    ((engineStep s).startPtr = s.startPtr ∨
      ((engineStep s).status = { s.status with busy := false, done := true } ∧ (engineStep s).engine.phase = .idle)) ∧
    (s.engine.nLat = 0#24 → (engineStep s).saMem = s.saMem)

/-- 42_bwt_engine.md R166-R168, 60_exceptions.md R203: an engine step of a running block either leaves `STATUS` and
`START_PTR` alone, or completes with `DONE`, or, only where `INTERNAL_FAULT_POSSIBLE`, ends with ERR_INTERNAL and
`START_PTR` unchanged. -/
def Obligations.EngineStepHasThreeOutcomes : Prop :=
  ∀ s : State, s.status.busy = true → s.engine.phase ≠ .idle →
    ((engineStep s).status = s.status ∧ (engineStep s).startPtr = s.startPtr ∧ (engineStep s).engine.phase ≠ .idle) ∨
    ((engineStep s).status = { s.status with busy := false, done := true } ∧ (engineStep s).engine.phase = .idle) ∨
    (Config.internalFaultPossible = true ∧
      (engineStep s).status = { s.status with busy := false, done := false, err := true, errCode := .internal } ∧
      (engineStep s).startPtr = s.startPtr ∧ (engineStep s).engine.phase = .idle)

/-- 42_bwt_engine.md R172: the phases of a run follow CLASSIFY, SSSORT, TRSORT, CONSTRUCT; the run completes (`DONE`)
only from CONSTRUCT, or from CLASSIFY with `n <= 1`. A run with `n <= 1` does no bucket, stack or budget work. -/
def Obligations.PhasesFollowInOrder : Prop :=
  ∀ s : State, s.engine.phase ≠ .idle →
    ((engineStep s).engine.phase = s.engine.phase ∨
      (s.engine.phase = .classify ∧ 2 ≤ s.engine.nLat.toNat ∧ (engineStep s).engine.phase = .sssort) ∨
      (s.engine.phase = .sssort ∧ (engineStep s).engine.phase = .trsort) ∨
      (s.engine.phase = .trsort ∧ (engineStep s).engine.phase = .construct) ∨
      ((engineStep s).engine.phase = .idle ∧
        ((engineStep s).status.err = true ∨ s.engine.phase = .construct ∨
          (s.engine.phase = .classify ∧ s.engine.nLat.toNat ≤ 1)))) ∧
    (s.engine.phase = .classify → s.engine.nLat.toNat ≤ 1 →
      (engineStep s).engine =
        { s.engine with phase := (engineStep s).engine.phase, work := (engineStep s).engine.work })

/-- 42_bwt_engine.md R168, R176: the number of engine steps of a run is finite, for every input and every free value. The
bounds of the hidden state (R40, R42, R177) are the premise, which every step keeps. -/
def Obligations.EveryRunIsFinite : Prop :=
  ∀ s : State, s.engine.phase ≠ .idle → BoundsInv s.engine → s.status.busy = true →
    ∃ k, (engineStep^[k] s).status.busy = false

/-- 42_bwt_engine.md R161-R168, 41_commands.md R142: from any idle block that holds `T[0..n]` with its wrap byte and `LEN
= n <= N_MAX`, a BWT is accepted, and with nothing else asked of the block the machine comes, in finitely many steps
and whatever the free values, to the end of the run: `DONE` with `SA[0..n-1]` the transform of `T` and `START_PTR` a
row of rotation 0, or, only where `INTERNAL_FAULT_POSSIBLE`, ERR_INTERNAL with `START_PTR` as before. `T_MEM`, `LEN`,
`IRQ_EN`, `VIOL` and `SA[i]` with `i > n` are as before (R169). -/
def Obligations.BwtRunComputesTheTransform : Prop :=
  ∀ (s : State) (block : List Byte) (pi : List Nat),
    s.status.busy = false → s.modelFault = none → s.resetIn = [] → hostLine s = none →
    s.len.toNat = block.length → block.length ≤ s.nMax.toNat → HoldsBlock s block →
    (1 ≤ block.length → Memory.read s.tMem block.length = Memory.read s.tMem 0) → IsRowOrder block pi →
    ∃ t0, exec .bwt s = .next t0 ∧ t0.status.busy = true ∧
      ∃ k t, runSteps k t0 = .next t ∧ t.tMem = s.tMem ∧ t.len = s.len ∧ t.irqEn = s.irqEn ∧
        (∀ i, block.length < i → Memory.read t.saMem i = Memory.read s.saMem i) ∧
        ((t.status = { busy := false, done := true, err := false, viol := s.status.viol, errCode := .none } ∧
            (∀ i (h : i < pi.length), Memory.read t.saMem i =
              some ((block.getD ((pi[i] + block.length - 1) % block.length) 0#8).setWidth 32)) ∧
            (block.length = 0 → t.saMem = s.saMem ∧ t.startPtr = 0#24) ∧
            (1 ≤ block.length → rowsBelow block ≤ t.startPtr.toNat ∧
              t.startPtr.toNat < rowsBelow block + rowsEqual block)) ∨
          (Config.internalFaultPossible = true ∧
            t.status = { busy := false, done := false, err := true, viol := s.status.viol, errCode := .internal } ∧
            t.startPtr = s.startPtr))

/-- 70_reset_and_hazards.md R256: weak fairness. While the block runs, no reset comes and the host goes on, at most
`hostTurns` steps pass before the engine moves, unless the host's program stops (a refused line or a fault). The count
`hostTurns` is the model's (log 6). -/
def Obligations.EngineMovesWithinItsTurns : Prop :=
  ∀ s : State, s.status.busy = true → s.modelFault = none → s.resetIn = [] →
    ∃ k, k ≤ s.hostTurns ∧
      ((∃ r, runSteps k s = .refused r) ∨ (∃ r, runSteps k s = .fault r) ∨
        ∃ t, runSteps k s = .next t ∧
          (t.modelFault ≠ none ∨ (engineMoves t = true ∧ step t = .next (engineStep t))))

/-- 70_reset_and_hazards.md R256, 30_encoding.md R112, R113: every `wait_idle` loop ends, whatever the schedule and the
free values. A host at the head of the loop `L: rd32 REG_STATUS; jbit 0, L` comes past it in finitely many steps, with
`BUSY = 0`, the last `STATUS` in `RES`, and `T_MEM` as before. It rests on the model's schedule (log 6). -/
def Obligations.WaitIdleLoopEnds : Prop :=
  ∀ (s : State) (k : Nat) (l : Label), s.modelFault = none → s.resetIn = [] → s.agent.halted = false →
    (s.status.busy = true → s.engine.phase ≠ .idle ∧ BoundsInv s.engine) →
    s.agent.line = k → labelPlace l s.agent.script 0 = some k →
    s.agent.script[k]? = some (.label l) → s.agent.script[k + 1]? = some (.transaction (.bus 0x40000008#32 .none)) →
    s.agent.script[k + 2]? = some (.jbit 0 l) →
    ∃ m t, runSteps m s = .next t ∧ t.status.busy = false ∧ t.modelFault = none ∧ t.tMem = s.tMem ∧
      t.agent = { s.agent with line := k + 3, res := t.status.word }

/-! ## The sort (42_bwt_engine.md R174, R175, R179) -/

/-- 42_bwt_engine.md R174: the sub-sorts of SSSORT agree. Insertion sort and heapsort (`sortByPrefix`) leave the same
entries, sorted by the first `d` bytes of their rotations; a merge, forward or backward, does so with two sorted runs; a
partition leaves the same entries in three parts by the pivot's byte. Insertion sort takes a range of fewer than 8
entries, heapsort one whose recursion limit is used up, and a partition any other; `SS_MERGE_POLICY` says which way
to merge, given the buffer. PA is taken up in blocks of at most 1024 entries: one frame for a block of two entries or
more, none for a single entry. That all of a block is sorted by one depth, and that PA as a whole is taken up in blocks,
is the model's (log 32); so are what a limit counts and what `SS_MERGE_POLICY` and `SS_DEPTH_LIMIT` are functions of
(log 8). -/
def Obligations.SubstringSortsAgree : Prop :=
  (∀ (block : List Byte) (d k v : Nat) (method : SortMethod) (xs ys : List Word),
    ((sortByPrefix block d xs).Perm xs ∧ (sortByPrefix block d xs).Pairwise (PrefixLe block d)) ∧
    ((mergeBy method block d xs ys).Perm (xs ++ ys) ∧
      (xs.Pairwise (PrefixLe block d) → ys.Pairwise (PrefixLe block d) →
        (mergeBy method block d xs ys).Pairwise (PrefixLe block d))) ∧
    (partition3 (byteKey block k) v xs).Perm xs ∧
    (partition3 (byteKey block k) v xs).Pairwise (fun x y =>
      byteKey block k x < v ∨ v < byteKey block k y ∨ byteKey block k x = v ∧ byteKey block k y = v)) ∧
  (∀ (size buffer : Nat) (limit : BitVec 32),
    (ssMethod size limit = .insertion ↔ size < 8) ∧ (ssMethod size limit = .heap ↔ 8 ≤ size ∧ limit.toInt < 0) ∧
    (ssMethod size limit = .multikey ↔ 8 ≤ size ∧ 0 ≤ limit.toInt) ∧
    mergeMethod buffer size = if Config.ssMergeForward buffer size then .mergeForward else .mergeBackward) ∧
  (∀ w : SortWork, BoundsInv w.engine → w.pa.length = w.engine.pa.len → w.engine.ssize = 0 →
    w.engine.taken < w.pa.length →
    ∃ v, takeBlock w = some v ∧ v.pa = w.pa ∧ v.isa = w.isa ∧
      v.engine.taken = w.engine.taken + min 1024 (w.pa.length - w.engine.taken) ∧
      (framesOf v.engine).length = (if 2 ≤ min 1024 (w.pa.length - w.engine.taken) then 1 else 0) ∧
      ∀ f ∈ framesOf v.engine,
        frameRange w.engine.pa f = (w.engine.taken, min 1024 (w.pa.length - w.engine.taken)) ∧
        f.depth = 0#32 ∧ 0 ≤ f.limit.toInt)

/-- 42_bwt_engine.md R175: depth doubling over ISA. TRSORT starts from ranks that order the entries by their first `d`
bytes. Where the ranks agree with the order of the rotations and ties agree up to the B* suffix `h` ahead, two tied
entries the same distance from the B* suffixes `h` ahead of them are ordered by the ranks of those; where these tie
too, the two agree `2 h` suffixes ahead; and once `h` counts all B* suffixes the rotations are equal. That ranks see
the B* suffixes, and that a rank counts the entries before it, is the model's (log 33). -/
def Obligations.DepthDoublingDoublesTheDepth : Prop :=
  (∀ (block : List Byte) (d : Nat) (pa : List Word), pa.length < 2 ^ 32 → ∀ x ∈ pa, ∀ y ∈ pa,
    (rankAt (textOrder pa) (ranks block d pa) (entryPos x) < rankAt (textOrder pa) (ranks block d pa) (entryPos y) ↔
      prefixBefore block d (entryPos x) (entryPos y) = true)) ∧
  (∀ (block : List Byte) (ps : List Nat) (isa : List Word) (h p q : Nat),
    ps.Pairwise (· < ·) → (∀ x ∈ ps, x < block.length) → p ∈ ps → q ∈ ps →
    (∀ x ∈ ps, ∀ y ∈ ps, rankAt ps isa x < rankAt ps isa y → lexLt (rotation block x) (rotation block y) = true) →
    (∀ x ∈ ps, ∀ y ∈ ps, rankAt ps isa x = rankAt ps isa y → AgreeAhead block ps h x y) →
    rankAt ps isa p = rankAt ps isa q →
    aheadDistance block.length ps h p = aheadDistance block.length ps h q →
    (aheadRank ps isa h p < aheadRank ps isa h q → lexLt (rotation block p) (rotation block q) = true) ∧
    (aheadRank ps isa h p = aheadRank ps isa h q → AgreeAhead block ps (2 * h) p q) ∧
    (ps.length ≤ h → rotation block p = rotation block q))

/-- 42_bwt_engine.md R179: where PA holds sorted positions, the step that ends the induction leaves `L` of R162 in the
low bytes of `SA[0..n-1]`, with the run still in CONSTRUCT and no register changed; the next engine step completes,
and publishes the start pointer the engine knows by then, a row of `[lo, lo + cnt - 1]`. That one step writes all of
`L` is the model's (log 7). -/
def Obligations.ConstructWritesLInPlace : Prop :=
  ∀ (s : State) (block : List Byte), s.engine.phase = .construct → s.engine.work = 1 →
    s.engine.nLat.toNat = block.length → 1 ≤ block.length → HoldsBlock s block →
    (paPositions s).Pairwise (RowLe block) →
    ∃ t, engineStep s = t ∧ t.engine.phase = .construct ∧ t.engine.work = 0 ∧ t.status = s.status ∧
      t.startPtr = s.startPtr ∧ t.len = s.len ∧ t.irqEn = s.irqEn ∧ t.nMax = s.nMax ∧ t.tMem = s.tMem ∧
      (∀ i, i < block.length → ∃ w, Memory.read t.saMem i = some w ∧ w.extractLsb' 0 8 = (transform block).getD i 0#8) ∧
      (engineStep t).status = { s.status with busy := false, done := true } ∧
      (engineStep t).startPtr.toNat = startRow Config.startTie block t.engine.tie ∧
      rowsBelow block ≤ (engineStep t).startPtr.toNat ∧
      (engineStep t).startPtr.toNat < rowsBelow block + rowsEqual block

/-! ## Laws of the result (42_bwt_engine.md) -/

/-- 00_scope.md R11: a rotation's bytes, and the order of byte strings of equal length: the first byte that differs
decides, taken as an unsigned integer. -/
def Obligations.RotationsCompareAsUnsignedBytes : Prop :=
  (∀ (block : List Byte) (r j : Nat), r < block.length → j < block.length →
    (rotation block r).getD j 0#8 = block.getD ((r + j) % block.length) 0#8) ∧
  (∀ x y : List Byte, x.length = y.length →
    (lexLt x y = true ↔ ∃ k, k < x.length ∧ (∀ j, j < k → x.getD j 0#8 = y.getD j 0#8) ∧
      (x.getD k 0#8).toNat < (y.getD k 0#8).toNat))

/-- 42_bwt_engine.md R180: the engine's row order is a permutation of `[0, n)` that sorts the rotations. -/
def Obligations.RowOrderSortsTheRotations : Prop :=
  ∀ block : List Byte, IsRowOrder block (rowOrder block)

/-- 42_bwt_engine.md R162: `L` does not depend on the choice among row orders. -/
def Obligations.TransformIsIndependentOfTies : Prop :=
  ∀ (block : List Byte) (pi : List Nat), IsRowOrder block pi → pi.map (lastByte block) = transform block

/-- 42_bwt_engine.md R181: `L` is a rearrangement of the block. -/
def Obligations.TransformRearrangesTheBlock : Prop :=
  ∀ block : List Byte, (transform block).Perm block

/-- 42_bwt_engine.md R163: `[lo, lo + cnt - 1]` is exactly the set of rows rotation 0 has among the row orders, and `cnt`
is at least 1. -/
def Obligations.StartPointerRangeIsExact : Prop :=
  ∀ (block : List Byte) (v : Nat), 1 ≤ block.length →
    1 ≤ rowsEqual block ∧
    ((∃ pi, IsRowOrder block pi ∧ pi[v]? = some 0) ↔
      rowsBelow block ≤ v ∧ v < rowsBelow block + rowsEqual block)

/-- 42_bwt_engine.md R182: from every start pointer of the range, the cyclic inverse reconstructs the block. -/
def Obligations.InverseTransformReconstructsTheBlock : Prop :=
  ∀ (block : List Byte) (v : Nat), rowsBelow block ≤ v → v < rowsBelow block + rowsEqual block →
    inverseTransform (transform block) v = block

/-- 42_bwt_engine.md R183: `cnt` is `n / p`, for `p` the smallest period of the block. -/
def Obligations.EqualRowsCountThePeriods : Prop :=
  ∀ (block : List Byte) (p : Nat), 1 ≤ block.length → IsPeriod block p → (∀ q, IsPeriod block q → p ≤ q) →
    rowsEqual block ∣ block.length ∧ rowsEqual block = block.length / p

/-! ## The whole machine -/

/-- The state after reset meets the invariant of the machine and of its sort (00_scope.md R7, 10_state.md R25, R37,
R47). -/
def Obligations.ResetMeetsTheInvariant : Prop :=
  State.Inv State.reset ∧ SortInv State.reset

/-- 10_state.md R25, R35-R37, R40, R42, 42_bwt_engine.md R160, R177, R178, 00_scope.md R7: every step of the machine,
whichever agent moves and whatever the reset input and the free values, keeps the invariant: among the rest, `N_MAX`
stays legal, and the frames of the stack index `SA[0..n]`, with a depth of at most `n` and a limit of at least -1. -/
def Obligations.EveryStepKeepsTheInvariant : Prop :=
  ∀ s t : State, State.Inv s → step s = .next t → State.Inv t

/-- 42_bwt_engine.md R173-R175, R179: every step of the machine, whatever the free values, keeps the invariant of the
sort. PA holds the B* suffixes from SSSORT until the induction; in SSSORT the merged run and what stands outside the
frames is in order; in TRSORT PA is in the order of the ranks in ISA, which never contradict the rotations; in CONSTRUCT
PA is in the order of the rotations, and in the end `SA[0..n-1]` hold `L` in their low bytes. What a rank counts is the
model's (log 33). -/
def Obligations.EveryStepKeepsTheSort : Prop :=
  ∀ s t : State, State.Inv s → SortInv s → step s = .next t → SortInv t

/-- 10_state.md R47, 70_reset_and_hazards.md R240: with the reset input asserted, whatever the block is doing, the next
state has every register and status bit 0, the engine idle and both memories unwritten; the fault mark and the host are
left alone, and so is the parameter `N_MAX`. -/
def Obligations.ResetInputResetsTheBlock : Prop :=
  ∀ (s : State) (levels : List Bool), s.modelFault = none → s.resetIn = true :: levels →
    ∃ t, step s = .next t ∧ t.status.word = 0#32 ∧ t.len = 0#24 ∧ t.startPtr = 0#24 ∧ t.irqEn = 0#3 ∧
      t.nMax = s.nMax ∧ t.irq = false ∧ t.engine.phase = .idle ∧ (∀ i, Memory.read t.tMem i = none) ∧
      (∀ i, Memory.read t.saMem i = none) ∧ t.modelFault = none ∧ t.agent = s.agent ∧ t.resetIn = levels

/-- 10_state.md R47, 70_reset_and_hazards.md R241: what the host reads of the registers right after reset
(95_test_vectors.md Z1-Z6), and that no byte, word or interrupt is there. -/
def Obligations.ResetStateReadsAsSpecified : Prop :=
  (∀ a v, (a, v) ∈ [(0x00#23, 0x53410001#32), (0x08#23, 0#32), (0x0C#23, 0#32), (0x10#23, 0#32), (0x14#23, 0#32),
      (0x18#23, 0x000DBBA0#32)] →
    exec (.rd32 a) State.reset =
      .next { State.reset with agent := { State.reset.agent with res := v } }) ∧
  State.reset.irq = false ∧ State.reset.modelFault = none ∧
  (∀ i, Memory.read State.reset.tMem i = none ∧ Memory.read State.reset.saMem i = none)

/-- A step runs the decoded instruction: where the host stands on a transaction line whose packet decodes to `i`, no
fault is marked, the reset input is not asserted and the host moves next, the step is `exec i` with the host moved on to
its next line and one of its turns spent (00_scope.md R13, 30_encoding.md R110). -/
def Obligations.StepRunsTheDecodedInstruction : Prop :=
  ∀ (s : State) (p : Packet) (i : Instr), s.modelFault = none → s.resetIn = [] → hostLine s = some (.transaction p) →
    s.status.busy = false ∨ 1 ≤ s.hostTurns → decode p = .ok i →
    step s = exec i { s with
      agent := { s.agent with line := s.agent.line + 1 }
      hostTurns := if s.status.busy then s.hostTurns - 1 else s.hostTurns }

/-- 30_encoding.md R113: what the host's control lines do, and that they touch nothing of the block. -/
def Obligations.ControlLinesMoveTheHost : Prop :=
  ∀ (s : State) (b : Fin 32) (l : Label) (k : Nat), labelPlace l s.agent.script 0 = some k →
    lineStep (.jbit b l) s = .next { s with
      agent := { s.agent with line := if s.agent.res.getLsbD b.val then k else s.agent.line + 1 } } ∧
    lineStep (.jnbit b l) s = .next { s with
      agent := { s.agent with line := if s.agent.res.getLsbD b.val then s.agent.line + 1 else k } } ∧
    lineStep (.jmp l) s = .next { s with agent := { s.agent with line := k } } ∧
    lineStep .halt s = .next { s with agent := { s.agent with halted := true } }

/-- 20_memory.md R78, 10_state.md R30, R38: while the block runs and is not reset, no step of either agent changes a byte
of `T_MEM`, `LEN` or `N_LAT`, and `START_PTR` changes only with the step that completes. -/
def Obligations.InputIsStableWhileBusy : Prop :=
  ∀ s t : State, s.status.busy = true → s.resetIn = [] → step s = .next t →
    t.tMem = s.tMem ∧ t.len = s.len ∧ t.engine.nLat = s.engine.nLat ∧
    (t.startPtr = s.startPtr ∨ (t.status.busy = false ∧ t.status.done = true))

/-- 10_state.md R29: `VIOL`, once set, is cleared by reset and CLEAR alone: a step after which it is 0 is a reset or runs
a line that is CLEAR, as a command word or as a write of `CMD`. -/
def Obligations.OnlyClearAndResetClearViol : Prop :=
  ∀ s t : State, s.status.viol = true → step s = .next t → t.status.viol = false →
    s.resetIn.head? = some true ∨
    (s.status.busy = false ∧ ∃ p, hostLine s = some (.transaction p) ∧
      (decode p = .ok .clear ∨ decode p = .ok (.wr32 0x04#23 2#32)))

/-- 10_state.md R26: `BUSY` rises only with the host write that starts a BWT, and falls only with an engine step or
reset. -/
def Obligations.BusyRisesWithBwtAlone : Prop :=
  ∀ s t : State, step s = .next t →
    (s.status.busy = false → t.status.busy = true →
      ∃ p, hostLine s = some (.transaction p) ∧ (decode p = .ok .bwt ∨ decode p = .ok (.wr32 0x04#23 1#32))) ∧
    (s.status.busy = true → t.status.busy = false →
      s.resetIn.head? = some true ∨ (engineMoves s = true ∧ t.status = (engineStep s).status))

/-- 60_exceptions.md R225: while `BUSY = 0` the engine does not move, and while the host issues nothing all state
persists. -/
def Obligations.IdleBlockPersists : Prop :=
  ∀ s : State, s.status.busy = false → engineMoves s = false ∧
    (s.modelFault = none → s.resetIn = [] → hostLine s = none → step s = .next s)

/-- 60_exceptions.md R210, R211: which status bit raises `IRQ` under which enable: `IRQ` is 1 exactly if some bit that is
set is enabled, at every one of the three sources. -/
def Obligations.IrqIsTheEnabledStatus : Prop :=
  ∀ s t : State, exec (.rd32 0x08#23) s = .next t → ∀ u, exec (.rd32 0x14#23) s = .next u →
    (s.irq = true ↔
      (t.agent.res.getLsbD 1 = true ∧ u.agent.res.getLsbD 0 = true) ∨
      (t.agent.res.getLsbD 2 = true ∧ u.agent.res.getLsbD 1 = true) ∨
      (t.agent.res.getLsbD 3 = true ∧ u.agent.res.getLsbD 2 = true))
end

