-- ==== Sys2Proof/Laws/Bwt.lean ====
section
/-! SUPPORT. Rotations, their order, and the sizes of the results. -/

namespace Sys2Proof.Machine

@[simp] theorem rotation_length (block : List Byte) (r : Nat) : (rotation block r).length = block.length := by
  simp [rotation]
  omega

/-- Byte `j` of rotation `r` is `T[(r + j) mod n]` (00_scope.md R11). -/
theorem rotation_getD (block : List Byte) {r j : Nat} (hr : r < block.length) (hj : j < block.length) :
    (rotation block r).getD j 0#8 = block.getD ((r + j) % block.length) 0#8 := by
  by_cases h : r + j < block.length
  · rw [Nat.mod_eq_of_lt h]
    simp [rotation, List.getElem?_append, h, show j < block.length - r by omega]
  · rw [Nat.mod_eq_sub_mod (by omega), Nat.mod_eq_of_lt (by omega)]
    simp [rotation, List.getElem?_append, show ¬ j < block.length - r by omega]
    rw [List.getElem?_take_of_lt (by omega), show j - (block.length - r) = r + j - block.length by omega]

@[simp] theorem lexLt_irrefl (x : List Byte) : lexLt x x = false := by
  induction x with
  | nil => rfl
  | cons a x ih => simp [lexLt, ih]

theorem lexLt_trans {x y z : List Byte} (h : lexLt x y = true) (h' : lexLt y z = true) : lexLt x z = true := by
  induction x generalizing y z with
  | nil => cases y <;> cases z <;> simp_all [lexLt]
  | cons a x ih =>
    cases y with
    | nil => simp [lexLt] at h
    | cons b y =>
      cases z with
      | nil => simp [lexLt] at h'
      | cons c z =>
        simp only [lexLt, Bool.or_eq_true, Bool.and_eq_true, decide_eq_true_eq] at h h' ⊢
        rcases h with h | ⟨rfl, h⟩ <;> rcases h' with h' | ⟨rfl, h'⟩
        · left; omega
        · left; exact h
        · left; exact h'
        · right; exact ⟨rfl, ih h h'⟩

/-- Neither of two strings stands before the other only if they are equal. -/
theorem eq_of_not_lexLt {x y : List Byte} (h : lexLt x y = false) (h' : lexLt y x = false) : x = y := by
  induction x generalizing y with
  | nil => cases y <;> simp_all [lexLt]
  | cons a x ih =>
    cases y with
    | nil => simp [lexLt] at h'
    | cons b y =>
      simp only [lexLt, Bool.or_eq_false_iff, Bool.and_eq_false_iff, decide_eq_false_iff_not] at h h'
      have hab : a = b := BitVec.eq_of_toNat_eq (by omega)
      subst hab
      simp at h h'
      rw [ih h h']

theorem rowOrder_perm (block : List Byte) : (rowOrder block).Perm (List.range block.length) :=
  List.perm_insertionSort _ _

@[simp] theorem rowOrder_length (block : List Byte) : (rowOrder block).length = block.length := by
  rw [(rowOrder_perm block).length_eq, List.length_range]

@[simp] theorem transform_length (block : List Byte) : (transform block).length = block.length := by
  simp [transform]

/-- The rows before rotation 0 and the rows equal to it are different rows. -/
theorem rowsBelow_add_rowsEqual_le (block : List Byte) : rowsBelow block + rowsEqual block ≤ block.length := by
  suffices h : ∀ l : List Nat, l.countP (fun r => lexLt (rotation block r) (rotation block 0)) +
      l.countP (fun r => decide (rotation block r = rotation block 0)) ≤ l.length by
    simpa [rowsBelow, rowsEqual] using h (List.range block.length)
  intro l
  induction l with
  | nil => simp
  | cons r l ih =>
    simp only [List.countP_cons, List.length_cons]
    by_cases h : rotation block r = rotation block 0
    · simp [h]; omega
    · simp [h]; split <;> omega

/-- Rotation 0 is one of the rows equal to it. -/
theorem one_le_rowsEqual {block : List Byte} (h : 0 < block.length) : 1 ≤ rowsEqual block :=
  List.one_le_countP_iff.2 ⟨0, by simpa using h, by simp⟩

/-- The start pointer is a row (42_bwt_engine.md R163). -/
theorem startRow_lt (tie : StartTie) {block : List Byte} (free : Nat) (h : 0 < block.length) :
    startRow tie block free < block.length := by
  have h1 := rowsBelow_add_rowsEqual_le block
  have h2 := one_le_rowsEqual h
  unfold startRow
  rw [if_neg (by omega)]
  split
  · omega
  · cases tie
    · have := Nat.mod_lt free h2; simp only; omega
    · simp only; omega

/-- The start pointer lies in `[lo, lo + cnt - 1]` (42_bwt_engine.md R163). -/
theorem startRow_range (tie : StartTie) {block : List Byte} (free : Nat) (h : 0 < block.length) :
    rowsBelow block ≤ startRow tie block free ∧ startRow tie block free < rowsBelow block + rowsEqual block := by
  have h2 := one_le_rowsEqual h
  unfold startRow
  rw [if_neg (by omega)]
  split
  · omega
  · cases tie
    · have := Nat.mod_lt free h2; simp only; omega
    · simp only; omega

@[simp] theorem suffixClasses_length (last : SuffixClass) (block : List Byte) :
    (suffixClasses last block).length = block.length := by
  induction block with
  | nil => rfl
  | cons b r ih =>
    cases r with
    | nil => rfl
    | cons c r => simpa [suffixClasses] using ih

end Sys2Proof.Machine
end

