-- ==== Sys2Proof/Laws/Decode.lean ====
section
/-! SUPPORT. The fields of a descriptor that was assembled from them. -/

namespace Sys2Proof

/-- Bit by bit, a descriptor is `ADDR`, six zeros, `SZ` and `W`, from the lowest bit up (30_encoding.md R91). -/
theorem descriptor_getLsbD (w : BitVec 1) (z : BitVec 2) (a : Addr) (k : Nat) :
    (descriptor w z a).getLsbD k =
      if k < 23 then a.getLsbD k else if k < 29 then false else if k < 31 then z.getLsbD (k - 29)
      else w.getLsbD (k - 31) := by
  change (w ++ z ++ 0#6 ++ a : BitVec (1 + 2 + 6 + 23)).getLsbD k = _
  simp only [BitVec.getLsbD_append, BitVec.getLsbD_zero]
  grind

@[simp] theorem descriptorMbz_descriptor (w : BitVec 1) (z : BitVec 2) (a : Addr) :
    descriptorMbz (descriptor w z a) = 0#6 := by
  ext i hi
  simp [descriptorMbz, descriptor_getLsbD]
  grind

@[simp] theorem descriptorSz_descriptor (w : BitVec 1) (z : BitVec 2) (a : Addr) :
    descriptorSz (descriptor w z a) = z := by
  ext i hi
  simp [descriptorSz, descriptor_getLsbD]
  grind

@[simp] theorem descriptorW_descriptor (w : BitVec 1) (z : BitVec 2) (a : Addr) :
    descriptorW (descriptor w z a) = w := by
  ext i hi
  simp [descriptorW, descriptor_getLsbD]
  grind

@[simp] theorem descriptorAddr_descriptor (w : BitVec 1) (z : BitVec 2) (a : Addr) :
    descriptorAddr (descriptor w z a) = a := by
  ext i hi
  simp [descriptorAddr, descriptor_getLsbD]
  grind

/-- Every packet the encoder makes spells an instruction. -/
theorem encode_wellFormed (i : Instr) : (encode i).wellFormed = true := by
  cases i <;> simp [encode, Packet.wellFormed, operandFits]

end Sys2Proof
end

