-- ==== Sys2Proof/Laws/Memory.lean ====
section
/-! SUPPORT. The laws of sparse memory: read after write, other indexes alone, and every operation keeps the canonical
form and the bound on indexes. -/

namespace Sys2Proof.Machine

variable {α : Type}

/-- Every index of a memory lies below `d`. -/
abbrev Memory.below (m : Memory α) (d : Nat) : Prop := ∀ c ∈ m, c.1 < d

@[simp] theorem Memory.read_nil (i : Nat) : Memory.read ([] : Memory α) i = none := rfl

theorem Memory.read_write (m : Memory α) (i j : Nat) (x : α) :
    Memory.read (Memory.write m i x) j = if j = i then some x else Memory.read m j := by
  induction m with
  | nil => by_cases h : j = i <;> simp [Memory.write, Memory.read, h]
  | cons c r ih =>
    obtain ⟨k, v⟩ := c
    simp only [Memory.write]
    split
    · by_cases h : j = i <;> simp [Memory.read, h]
    · split
      · next h => subst h; by_cases h : j = i <;> simp [Memory.read, h]
      · simp only [Memory.read, ih]
        by_cases h : j = k
        · subst h; simp [show ¬ j = i by omega]
        · simp [h]

@[simp] theorem Memory.read_write_same (m : Memory α) (i : Nat) (x : α) :
    Memory.read (Memory.write m i x) i = some x := by
  simp [Memory.read_write]

theorem Memory.read_write_other (m : Memory α) {i j : Nat} (x : α) (h : j ≠ i) :
    Memory.read (Memory.write m i x) j = Memory.read m j := by
  simp [Memory.read_write, h]

theorem Memory.mem_write (m : Memory α) (i : Nat) (x : α) {c : Nat × α} (h : c ∈ Memory.write m i x) :
    c = (i, x) ∨ c ∈ m := by
  induction m with
  | nil => simpa [Memory.write] using h
  | cons d r ih =>
    obtain ⟨k, v⟩ := d
    simp only [Memory.write] at h
    split at h
    · simpa using h
    · split at h
      · rcases List.mem_cons.1 h with h | h <;> simp [h]
      · rcases List.mem_cons.1 h with h | h
        · simp [h]
        · rcases ih h with h | h <;> simp [h]

theorem Memory.wf_cons {k : Nat} {v : α} {r : Memory α} :
    Memory.wf ((k, v) :: r) ↔ (∀ c ∈ r, k < c.1) ∧ Memory.wf r := by
  simp [Memory.wf]

theorem Memory.wf_write {m : Memory α} (i : Nat) (x : α) (h : Memory.wf m) : Memory.wf (Memory.write m i x) := by
  induction m with
  | nil => simp [Memory.write, Memory.wf]
  | cons c r ih =>
    obtain ⟨k, v⟩ := c
    obtain ⟨hk, hr⟩ := Memory.wf_cons.1 h
    simp only [Memory.write]
    split
    · next hi =>
      refine Memory.wf_cons.2 ⟨fun c hc => ?_, h⟩
      rcases List.mem_cons.1 hc with rfl | hc
      · exact hi
      · exact Nat.lt_trans hi (hk c hc)
    · split
      · next hi => subst hi; exact Memory.wf_cons.2 ⟨hk, hr⟩
      · refine Memory.wf_cons.2 ⟨fun c hc => ?_, ih hr⟩
        rcases Memory.mem_write r i x hc with rfl | hc
        · simp only; omega
        · exact hk c hc

theorem Memory.below_write {m : Memory α} {d i : Nat} (x : α) (h : Memory.below m d) (hi : i < d) :
    Memory.below (Memory.write m i x) d := by
  intro c hc
  rcases Memory.mem_write m i x hc with rfl | hc
  · exact hi
  · exact h c hc

theorem Memory.mem_erase (m : Memory α) (i : Nat) {c : Nat × α} (h : c ∈ Memory.erase m i) : c ∈ m := by
  induction m with
  | nil => simp [Memory.erase] at h
  | cons d r ih =>
    obtain ⟨k, v⟩ := d
    simp only [Memory.erase] at h
    split at h
    · simp [h]
    · rcases List.mem_cons.1 h with h | h
      · simp [h]
      · simp [ih h]

theorem Memory.wf_erase {m : Memory α} (i : Nat) (h : Memory.wf m) : Memory.wf (Memory.erase m i) := by
  induction m with
  | nil => simp [Memory.erase, Memory.wf]
  | cons c r ih =>
    obtain ⟨k, v⟩ := c
    obtain ⟨hk, hr⟩ := Memory.wf_cons.1 h
    simp only [Memory.erase]
    split
    · exact hr
    · exact Memory.wf_cons.2 ⟨fun c hc => hk c (Memory.mem_erase r i hc), ih hr⟩

theorem Memory.below_erase {m : Memory α} {d : Nat} (i : Nat) (h : Memory.below m d) :
    Memory.below (Memory.erase m i) d :=
  fun c hc => h c (Memory.mem_erase m i hc)

theorem Memory.wf_fill {m : Memory α} (i : Nat) (xs : List α) (h : Memory.wf m) :
    Memory.wf (Memory.fill m i xs) := by
  induction xs generalizing m i with
  | nil => exact h
  | cons x r ih => exact ih (i + 1) (Memory.wf_write i x h)

theorem Memory.below_fill {m : Memory α} {d i : Nat} (xs : List α) (h : Memory.below m d)
    (hi : i + xs.length ≤ d) : Memory.below (Memory.fill m i xs) d := by
  induction xs generalizing m i with
  | nil => exact h
  | cons x r ih =>
    simp only [List.length_cons] at hi
    exact ih (Memory.below_write x h (by omega)) (by omega)

/-- What a block of consecutive writes leaves at each index. -/
theorem Memory.read_fill (m : Memory α) (i j : Nat) (xs : List α) :
    Memory.read (Memory.fill m i xs) j = if i ≤ j ∧ j < i + xs.length then xs[j - i]? else Memory.read m j := by
  induction xs generalizing m i with
  | nil => simp [Memory.fill]
  | cons x r ih =>
    simp only [Memory.fill, ih, Memory.read_write, List.length_cons]
    by_cases h : j = i
    · subst h; simp
    · by_cases h1 : i + 1 ≤ j ∧ j < i + 1 + r.length
      · rw [if_pos h1, if_pos (by omega), List.getElem?_cons, if_neg (by omega)]
        congr 1
      · rw [if_neg h1, if_neg h, if_neg (by omega)]

theorem Memory.read_fill_outside (m : Memory α) {i j : Nat} (xs : List α) (h : j < i ∨ i + xs.length ≤ j) :
    Memory.read (Memory.fill m i xs) j = Memory.read m j := by
  rw [Memory.read_fill, if_neg (by omega)]

/-- In canonical form an erased index is unwritten and every other index is left alone. -/
theorem Memory.read_erase {m : Memory α} (i j : Nat) (h : Memory.wf m) :
    Memory.read (Memory.erase m i) j = if j = i then none else Memory.read m j := by
  induction m with
  | nil => simp [Memory.erase]
  | cons c r ih =>
    obtain ⟨k, v⟩ := c
    obtain ⟨hk, hr⟩ := Memory.wf_cons.1 h
    simp only [Memory.erase]
    split
    · next hi =>
      subst hi
      by_cases hj : j = i
      · subst hj
        have hn : ∀ r : Memory α, (∀ c ∈ r, j < c.1) → Memory.read r j = none := by
          intro r hr
          induction r with
          | nil => rfl
          | cons c r ih =>
            have h1 := hr c (by simp)
            simp only [Memory.read, show ¬ j = c.1 by omega, if_false]
            exact ih (fun d hd => hr d (by simp [hd]))
        simpa using hn r hk
      · simp [Memory.read, hj]
    · next hi =>
      by_cases hj : j = k
      · subst hj; simp [Memory.read, show ¬ j = i by omega]
      · simp [Memory.read, hj, ih hr]

end Sys2Proof.Machine
end

