-- ==== Sys2Proof/Laws/State.lean ====
section
/-! SUPPORT. What each update of State leaves in each field. -/

namespace Sys2Proof.Machine

/-! ## `setStatus` -/

@[simp] theorem setStatus_status (s : State) (v : Status) : (s.setStatus v).status = v := rfl
@[simp] theorem setStatus_len (s : State) (v : Status) : (s.setStatus v).len = s.len := rfl
@[simp] theorem setStatus_startPtr (s : State) (v : Status) : (s.setStatus v).startPtr = s.startPtr := rfl
@[simp] theorem setStatus_irqEn (s : State) (v : Status) : (s.setStatus v).irqEn = s.irqEn := rfl
@[simp] theorem setStatus_nMax (s : State) (v : Status) : (s.setStatus v).nMax = s.nMax := rfl
@[simp] theorem setStatus_tMem (s : State) (v : Status) : (s.setStatus v).tMem = s.tMem := rfl
@[simp] theorem setStatus_saMem (s : State) (v : Status) : (s.setStatus v).saMem = s.saMem := rfl
@[simp] theorem setStatus_engine (s : State) (v : Status) : (s.setStatus v).engine = s.engine := rfl
@[simp] theorem setStatus_modelFault (s : State) (v : Status) : (s.setStatus v).modelFault = s.modelFault := rfl
@[simp] theorem setStatus_agent (s : State) (v : Status) : (s.setStatus v).agent = s.agent := rfl
@[simp] theorem setStatus_hostTurns (s : State) (v : Status) : (s.setStatus v).hostTurns = s.hostTurns := rfl
@[simp] theorem setStatus_resetIn (s : State) (v : Status) : (s.setStatus v).resetIn = s.resetIn := rfl
@[simp] theorem setStatus_draws (s : State) (v : Status) : (s.setStatus v).draws = s.draws := rfl

/-! ## `setLen` -/

@[simp] theorem setLen_status (s : State) (v : Len) : (s.setLen v).status = s.status := rfl
@[simp] theorem setLen_len (s : State) (v : Len) : (s.setLen v).len = v := rfl
@[simp] theorem setLen_startPtr (s : State) (v : Len) : (s.setLen v).startPtr = s.startPtr := rfl
@[simp] theorem setLen_irqEn (s : State) (v : Len) : (s.setLen v).irqEn = s.irqEn := rfl
@[simp] theorem setLen_nMax (s : State) (v : Len) : (s.setLen v).nMax = s.nMax := rfl
@[simp] theorem setLen_tMem (s : State) (v : Len) : (s.setLen v).tMem = s.tMem := rfl
@[simp] theorem setLen_saMem (s : State) (v : Len) : (s.setLen v).saMem = s.saMem := rfl
@[simp] theorem setLen_engine (s : State) (v : Len) : (s.setLen v).engine = s.engine := rfl
@[simp] theorem setLen_modelFault (s : State) (v : Len) : (s.setLen v).modelFault = s.modelFault := rfl
@[simp] theorem setLen_agent (s : State) (v : Len) : (s.setLen v).agent = s.agent := rfl
@[simp] theorem setLen_hostTurns (s : State) (v : Len) : (s.setLen v).hostTurns = s.hostTurns := rfl
@[simp] theorem setLen_resetIn (s : State) (v : Len) : (s.setLen v).resetIn = s.resetIn := rfl
@[simp] theorem setLen_draws (s : State) (v : Len) : (s.setLen v).draws = s.draws := rfl

/-! ## `setStartPtr` -/

@[simp] theorem setStartPtr_status (s : State) (v : Len) : (s.setStartPtr v).status = s.status := rfl
@[simp] theorem setStartPtr_len (s : State) (v : Len) : (s.setStartPtr v).len = s.len := rfl
@[simp] theorem setStartPtr_startPtr (s : State) (v : Len) : (s.setStartPtr v).startPtr = v := rfl
@[simp] theorem setStartPtr_irqEn (s : State) (v : Len) : (s.setStartPtr v).irqEn = s.irqEn := rfl
@[simp] theorem setStartPtr_nMax (s : State) (v : Len) : (s.setStartPtr v).nMax = s.nMax := rfl
@[simp] theorem setStartPtr_tMem (s : State) (v : Len) : (s.setStartPtr v).tMem = s.tMem := rfl
@[simp] theorem setStartPtr_saMem (s : State) (v : Len) : (s.setStartPtr v).saMem = s.saMem := rfl
@[simp] theorem setStartPtr_engine (s : State) (v : Len) : (s.setStartPtr v).engine = s.engine := rfl
@[simp] theorem setStartPtr_modelFault (s : State) (v : Len) : (s.setStartPtr v).modelFault = s.modelFault := rfl
@[simp] theorem setStartPtr_agent (s : State) (v : Len) : (s.setStartPtr v).agent = s.agent := rfl
@[simp] theorem setStartPtr_hostTurns (s : State) (v : Len) : (s.setStartPtr v).hostTurns = s.hostTurns := rfl
@[simp] theorem setStartPtr_resetIn (s : State) (v : Len) : (s.setStartPtr v).resetIn = s.resetIn := rfl
@[simp] theorem setStartPtr_draws (s : State) (v : Len) : (s.setStartPtr v).draws = s.draws := rfl

/-! ## `setIrqEn` -/

@[simp] theorem setIrqEn_status (s : State) (v : BitVec 3) : (s.setIrqEn v).status = s.status := rfl
@[simp] theorem setIrqEn_len (s : State) (v : BitVec 3) : (s.setIrqEn v).len = s.len := rfl
@[simp] theorem setIrqEn_startPtr (s : State) (v : BitVec 3) : (s.setIrqEn v).startPtr = s.startPtr := rfl
@[simp] theorem setIrqEn_irqEn (s : State) (v : BitVec 3) : (s.setIrqEn v).irqEn = v := rfl
@[simp] theorem setIrqEn_nMax (s : State) (v : BitVec 3) : (s.setIrqEn v).nMax = s.nMax := rfl
@[simp] theorem setIrqEn_tMem (s : State) (v : BitVec 3) : (s.setIrqEn v).tMem = s.tMem := rfl
@[simp] theorem setIrqEn_saMem (s : State) (v : BitVec 3) : (s.setIrqEn v).saMem = s.saMem := rfl
@[simp] theorem setIrqEn_engine (s : State) (v : BitVec 3) : (s.setIrqEn v).engine = s.engine := rfl
@[simp] theorem setIrqEn_modelFault (s : State) (v : BitVec 3) : (s.setIrqEn v).modelFault = s.modelFault := rfl
@[simp] theorem setIrqEn_agent (s : State) (v : BitVec 3) : (s.setIrqEn v).agent = s.agent := rfl
@[simp] theorem setIrqEn_hostTurns (s : State) (v : BitVec 3) : (s.setIrqEn v).hostTurns = s.hostTurns := rfl
@[simp] theorem setIrqEn_resetIn (s : State) (v : BitVec 3) : (s.setIrqEn v).resetIn = s.resetIn := rfl
@[simp] theorem setIrqEn_draws (s : State) (v : BitVec 3) : (s.setIrqEn v).draws = s.draws := rfl

/-! ## `setTMem` -/

@[simp] theorem setTMem_status (s : State) (v : List Host.Cell) : (s.setTMem v).status = s.status := rfl
@[simp] theorem setTMem_len (s : State) (v : List Host.Cell) : (s.setTMem v).len = s.len := rfl
@[simp] theorem setTMem_startPtr (s : State) (v : List Host.Cell) : (s.setTMem v).startPtr = s.startPtr := rfl
@[simp] theorem setTMem_irqEn (s : State) (v : List Host.Cell) : (s.setTMem v).irqEn = s.irqEn := rfl
@[simp] theorem setTMem_nMax (s : State) (v : List Host.Cell) : (s.setTMem v).nMax = s.nMax := rfl
@[simp] theorem setTMem_tMem (s : State) (v : List Host.Cell) : (s.setTMem v).tMem = v := rfl
@[simp] theorem setTMem_saMem (s : State) (v : List Host.Cell) : (s.setTMem v).saMem = s.saMem := rfl
@[simp] theorem setTMem_engine (s : State) (v : List Host.Cell) : (s.setTMem v).engine = s.engine := rfl
@[simp] theorem setTMem_modelFault (s : State) (v : List Host.Cell) : (s.setTMem v).modelFault = s.modelFault := rfl
@[simp] theorem setTMem_agent (s : State) (v : List Host.Cell) : (s.setTMem v).agent = s.agent := rfl
@[simp] theorem setTMem_hostTurns (s : State) (v : List Host.Cell) : (s.setTMem v).hostTurns = s.hostTurns := rfl
@[simp] theorem setTMem_resetIn (s : State) (v : List Host.Cell) : (s.setTMem v).resetIn = s.resetIn := rfl
@[simp] theorem setTMem_draws (s : State) (v : List Host.Cell) : (s.setTMem v).draws = s.draws := rfl

/-! ## `setSaMem` -/

@[simp] theorem setSaMem_status (s : State) (v : Memory Word) : (s.setSaMem v).status = s.status := rfl
@[simp] theorem setSaMem_len (s : State) (v : Memory Word) : (s.setSaMem v).len = s.len := rfl
@[simp] theorem setSaMem_startPtr (s : State) (v : Memory Word) : (s.setSaMem v).startPtr = s.startPtr := rfl
@[simp] theorem setSaMem_irqEn (s : State) (v : Memory Word) : (s.setSaMem v).irqEn = s.irqEn := rfl
@[simp] theorem setSaMem_nMax (s : State) (v : Memory Word) : (s.setSaMem v).nMax = s.nMax := rfl
@[simp] theorem setSaMem_tMem (s : State) (v : Memory Word) : (s.setSaMem v).tMem = s.tMem := rfl
@[simp] theorem setSaMem_saMem (s : State) (v : Memory Word) : (s.setSaMem v).saMem = v := rfl
@[simp] theorem setSaMem_engine (s : State) (v : Memory Word) : (s.setSaMem v).engine = s.engine := rfl
@[simp] theorem setSaMem_modelFault (s : State) (v : Memory Word) : (s.setSaMem v).modelFault = s.modelFault := rfl
@[simp] theorem setSaMem_agent (s : State) (v : Memory Word) : (s.setSaMem v).agent = s.agent := rfl
@[simp] theorem setSaMem_hostTurns (s : State) (v : Memory Word) : (s.setSaMem v).hostTurns = s.hostTurns := rfl
@[simp] theorem setSaMem_resetIn (s : State) (v : Memory Word) : (s.setSaMem v).resetIn = s.resetIn := rfl
@[simp] theorem setSaMem_draws (s : State) (v : Memory Word) : (s.setSaMem v).draws = s.draws := rfl

/-! ## `setEngine` -/

@[simp] theorem setEngine_status (s : State) (v : Engine) : (s.setEngine v).status = s.status := rfl
@[simp] theorem setEngine_len (s : State) (v : Engine) : (s.setEngine v).len = s.len := rfl
@[simp] theorem setEngine_startPtr (s : State) (v : Engine) : (s.setEngine v).startPtr = s.startPtr := rfl
@[simp] theorem setEngine_irqEn (s : State) (v : Engine) : (s.setEngine v).irqEn = s.irqEn := rfl
@[simp] theorem setEngine_nMax (s : State) (v : Engine) : (s.setEngine v).nMax = s.nMax := rfl
@[simp] theorem setEngine_tMem (s : State) (v : Engine) : (s.setEngine v).tMem = s.tMem := rfl
@[simp] theorem setEngine_saMem (s : State) (v : Engine) : (s.setEngine v).saMem = s.saMem := rfl
@[simp] theorem setEngine_engine (s : State) (v : Engine) : (s.setEngine v).engine = v := rfl
@[simp] theorem setEngine_modelFault (s : State) (v : Engine) : (s.setEngine v).modelFault = s.modelFault := rfl
@[simp] theorem setEngine_agent (s : State) (v : Engine) : (s.setEngine v).agent = s.agent := rfl
@[simp] theorem setEngine_hostTurns (s : State) (v : Engine) : (s.setEngine v).hostTurns = s.hostTurns := rfl
@[simp] theorem setEngine_resetIn (s : State) (v : Engine) : (s.setEngine v).resetIn = s.resetIn := rfl
@[simp] theorem setEngine_draws (s : State) (v : Engine) : (s.setEngine v).draws = s.draws := rfl

/-! ## `setModelFault` -/

@[simp] theorem setModelFault_status (s : State) (v : Option Fault) : (s.setModelFault v).status = s.status := rfl
@[simp] theorem setModelFault_len (s : State) (v : Option Fault) : (s.setModelFault v).len = s.len := rfl
@[simp] theorem setModelFault_startPtr (s : State) (v : Option Fault) : (s.setModelFault v).startPtr = s.startPtr := rfl
@[simp] theorem setModelFault_irqEn (s : State) (v : Option Fault) : (s.setModelFault v).irqEn = s.irqEn := rfl
@[simp] theorem setModelFault_nMax (s : State) (v : Option Fault) : (s.setModelFault v).nMax = s.nMax := rfl
@[simp] theorem setModelFault_tMem (s : State) (v : Option Fault) : (s.setModelFault v).tMem = s.tMem := rfl
@[simp] theorem setModelFault_saMem (s : State) (v : Option Fault) : (s.setModelFault v).saMem = s.saMem := rfl
@[simp] theorem setModelFault_engine (s : State) (v : Option Fault) : (s.setModelFault v).engine = s.engine := rfl
@[simp] theorem setModelFault_modelFault (s : State) (v : Option Fault) : (s.setModelFault v).modelFault = v := rfl
@[simp] theorem setModelFault_agent (s : State) (v : Option Fault) : (s.setModelFault v).agent = s.agent := rfl
@[simp] theorem setModelFault_hostTurns (s : State) (v : Option Fault) : (s.setModelFault v).hostTurns = s.hostTurns := rfl
@[simp] theorem setModelFault_resetIn (s : State) (v : Option Fault) : (s.setModelFault v).resetIn = s.resetIn := rfl
@[simp] theorem setModelFault_draws (s : State) (v : Option Fault) : (s.setModelFault v).draws = s.draws := rfl

/-! ## `setAgent` -/

@[simp] theorem setAgent_status (s : State) (v : Agent) : (s.setAgent v).status = s.status := rfl
@[simp] theorem setAgent_len (s : State) (v : Agent) : (s.setAgent v).len = s.len := rfl
@[simp] theorem setAgent_startPtr (s : State) (v : Agent) : (s.setAgent v).startPtr = s.startPtr := rfl
@[simp] theorem setAgent_irqEn (s : State) (v : Agent) : (s.setAgent v).irqEn = s.irqEn := rfl
@[simp] theorem setAgent_nMax (s : State) (v : Agent) : (s.setAgent v).nMax = s.nMax := rfl
@[simp] theorem setAgent_tMem (s : State) (v : Agent) : (s.setAgent v).tMem = s.tMem := rfl
@[simp] theorem setAgent_saMem (s : State) (v : Agent) : (s.setAgent v).saMem = s.saMem := rfl
@[simp] theorem setAgent_engine (s : State) (v : Agent) : (s.setAgent v).engine = s.engine := rfl
@[simp] theorem setAgent_modelFault (s : State) (v : Agent) : (s.setAgent v).modelFault = s.modelFault := rfl
@[simp] theorem setAgent_agent (s : State) (v : Agent) : (s.setAgent v).agent = v := rfl
@[simp] theorem setAgent_hostTurns (s : State) (v : Agent) : (s.setAgent v).hostTurns = s.hostTurns := rfl
@[simp] theorem setAgent_resetIn (s : State) (v : Agent) : (s.setAgent v).resetIn = s.resetIn := rfl
@[simp] theorem setAgent_draws (s : State) (v : Agent) : (s.setAgent v).draws = s.draws := rfl

/-! ## `setHostTurns` -/

@[simp] theorem setHostTurns_status (s : State) (v : Nat) : (s.setHostTurns v).status = s.status := rfl
@[simp] theorem setHostTurns_len (s : State) (v : Nat) : (s.setHostTurns v).len = s.len := rfl
@[simp] theorem setHostTurns_startPtr (s : State) (v : Nat) : (s.setHostTurns v).startPtr = s.startPtr := rfl
@[simp] theorem setHostTurns_irqEn (s : State) (v : Nat) : (s.setHostTurns v).irqEn = s.irqEn := rfl
@[simp] theorem setHostTurns_nMax (s : State) (v : Nat) : (s.setHostTurns v).nMax = s.nMax := rfl
@[simp] theorem setHostTurns_tMem (s : State) (v : Nat) : (s.setHostTurns v).tMem = s.tMem := rfl
@[simp] theorem setHostTurns_saMem (s : State) (v : Nat) : (s.setHostTurns v).saMem = s.saMem := rfl
@[simp] theorem setHostTurns_engine (s : State) (v : Nat) : (s.setHostTurns v).engine = s.engine := rfl
@[simp] theorem setHostTurns_modelFault (s : State) (v : Nat) : (s.setHostTurns v).modelFault = s.modelFault := rfl
@[simp] theorem setHostTurns_agent (s : State) (v : Nat) : (s.setHostTurns v).agent = s.agent := rfl
@[simp] theorem setHostTurns_hostTurns (s : State) (v : Nat) : (s.setHostTurns v).hostTurns = v := rfl
@[simp] theorem setHostTurns_resetIn (s : State) (v : Nat) : (s.setHostTurns v).resetIn = s.resetIn := rfl
@[simp] theorem setHostTurns_draws (s : State) (v : Nat) : (s.setHostTurns v).draws = s.draws := rfl

/-! ## `setResetIn` -/

@[simp] theorem setResetIn_status (s : State) (v : List Bool) : (s.setResetIn v).status = s.status := rfl
@[simp] theorem setResetIn_len (s : State) (v : List Bool) : (s.setResetIn v).len = s.len := rfl
@[simp] theorem setResetIn_startPtr (s : State) (v : List Bool) : (s.setResetIn v).startPtr = s.startPtr := rfl
@[simp] theorem setResetIn_irqEn (s : State) (v : List Bool) : (s.setResetIn v).irqEn = s.irqEn := rfl
@[simp] theorem setResetIn_nMax (s : State) (v : List Bool) : (s.setResetIn v).nMax = s.nMax := rfl
@[simp] theorem setResetIn_tMem (s : State) (v : List Bool) : (s.setResetIn v).tMem = s.tMem := rfl
@[simp] theorem setResetIn_saMem (s : State) (v : List Bool) : (s.setResetIn v).saMem = s.saMem := rfl
@[simp] theorem setResetIn_engine (s : State) (v : List Bool) : (s.setResetIn v).engine = s.engine := rfl
@[simp] theorem setResetIn_modelFault (s : State) (v : List Bool) : (s.setResetIn v).modelFault = s.modelFault := rfl
@[simp] theorem setResetIn_agent (s : State) (v : List Bool) : (s.setResetIn v).agent = s.agent := rfl
@[simp] theorem setResetIn_hostTurns (s : State) (v : List Bool) : (s.setResetIn v).hostTurns = s.hostTurns := rfl
@[simp] theorem setResetIn_resetIn (s : State) (v : List Bool) : (s.setResetIn v).resetIn = v := rfl
@[simp] theorem setResetIn_draws (s : State) (v : List Bool) : (s.setResetIn v).draws = s.draws := rfl

/-! ## `drawn` and `setRes` -/

@[simp] theorem drawn_status (s : State) (k : Nat) : (s.drawn k).status = s.status := rfl
@[simp] theorem drawn_len (s : State) (k : Nat) : (s.drawn k).len = s.len := rfl
@[simp] theorem drawn_startPtr (s : State) (k : Nat) : (s.drawn k).startPtr = s.startPtr := rfl
@[simp] theorem drawn_irqEn (s : State) (k : Nat) : (s.drawn k).irqEn = s.irqEn := rfl
@[simp] theorem drawn_nMax (s : State) (k : Nat) : (s.drawn k).nMax = s.nMax := rfl
@[simp] theorem drawn_tMem (s : State) (k : Nat) : (s.drawn k).tMem = s.tMem := rfl
@[simp] theorem drawn_saMem (s : State) (k : Nat) : (s.drawn k).saMem = s.saMem := rfl
@[simp] theorem drawn_engine (s : State) (k : Nat) : (s.drawn k).engine = s.engine := rfl
@[simp] theorem drawn_modelFault (s : State) (k : Nat) : (s.drawn k).modelFault = s.modelFault := rfl
@[simp] theorem drawn_agent (s : State) (k : Nat) : (s.drawn k).agent = s.agent := rfl
@[simp] theorem drawn_hostTurns (s : State) (k : Nat) : (s.drawn k).hostTurns = s.hostTurns := rfl
@[simp] theorem drawn_resetIn (s : State) (k : Nat) : (s.drawn k).resetIn = s.resetIn := rfl
@[simp] theorem drawn_draws (s : State) (k : Nat) : (s.drawn k).draws = s.draws + k := rfl
@[simp] theorem setRes_status (s : State) (v : Word) : (s.setRes v).status = s.status := rfl
@[simp] theorem setRes_len (s : State) (v : Word) : (s.setRes v).len = s.len := rfl
@[simp] theorem setRes_startPtr (s : State) (v : Word) : (s.setRes v).startPtr = s.startPtr := rfl
@[simp] theorem setRes_irqEn (s : State) (v : Word) : (s.setRes v).irqEn = s.irqEn := rfl
@[simp] theorem setRes_nMax (s : State) (v : Word) : (s.setRes v).nMax = s.nMax := rfl
@[simp] theorem setRes_tMem (s : State) (v : Word) : (s.setRes v).tMem = s.tMem := rfl
@[simp] theorem setRes_saMem (s : State) (v : Word) : (s.setRes v).saMem = s.saMem := rfl
@[simp] theorem setRes_engine (s : State) (v : Word) : (s.setRes v).engine = s.engine := rfl
@[simp] theorem setRes_modelFault (s : State) (v : Word) : (s.setRes v).modelFault = s.modelFault := rfl
@[simp] theorem setRes_agent (s : State) (v : Word) : (s.setRes v).agent = { s.agent with res := v } := rfl
@[simp] theorem setRes_hostTurns (s : State) (v : Word) : (s.setRes v).hostTurns = s.hostTurns := rfl
@[simp] theorem setRes_resetIn (s : State) (v : Word) : (s.setRes v).resetIn = s.resetIn := rfl
@[simp] theorem setRes_draws (s : State) (v : Word) : (s.setRes v).draws = s.draws := rfl

/-! ## Status events, bit by bit -/

@[simp] theorem status_setError_busy (f : Status) (c : ErrCode) : (f.setError c).busy = f.busy := rfl
@[simp] theorem status_setError_done (f : Status) (c : ErrCode) : (f.setError c).done = false := rfl
@[simp] theorem status_setError_err (f : Status) (c : ErrCode) : (f.setError c).err = true := rfl
@[simp] theorem status_setError_viol (f : Status) (c : ErrCode) : (f.setError c).viol = f.viol := rfl
@[simp] theorem status_setError_errCode (f : Status) (c : ErrCode) : (f.setError c).errCode = c := rfl
@[simp] theorem status_refuse_busy (f : Status) : (f.refuse).busy = f.busy := rfl
@[simp] theorem status_refuse_done (f : Status) : (f.refuse).done = f.done := rfl
@[simp] theorem status_refuse_err (f : Status) : (f.refuse).err = f.err := rfl
@[simp] theorem status_refuse_viol (f : Status) : (f.refuse).viol = true := rfl
@[simp] theorem status_refuse_errCode (f : Status) : (f.refuse).errCode = f.errCode := rfl
@[simp] theorem status_accept_busy (f : Status) : (f.accept).busy = true := rfl
@[simp] theorem status_accept_done (f : Status) : (f.accept).done = false := rfl
@[simp] theorem status_accept_err (f : Status) : (f.accept).err = false := rfl
@[simp] theorem status_accept_viol (f : Status) : (f.accept).viol = f.viol := rfl
@[simp] theorem status_accept_errCode (f : Status) : (f.accept).errCode = .none := rfl
@[simp] theorem status_clear_busy (f : Status) : (f.clear).busy = f.busy := rfl
@[simp] theorem status_clear_done (f : Status) : (f.clear).done = false := rfl
@[simp] theorem status_clear_err (f : Status) : (f.clear).err = false := rfl
@[simp] theorem status_clear_viol (f : Status) : (f.clear).viol = false := rfl
@[simp] theorem status_clear_errCode (f : Status) : (f.clear).errCode = .none := rfl
@[simp] theorem status_complete_busy (f : Status) : (f.complete).busy = false := rfl
@[simp] theorem status_complete_done (f : Status) : (f.complete).done = true := rfl
@[simp] theorem status_complete_err (f : Status) : (f.complete).err = f.err := rfl
@[simp] theorem status_complete_viol (f : Status) : (f.complete).viol = f.viol := rfl
@[simp] theorem status_complete_errCode (f : Status) : (f.complete).errCode = f.errCode := rfl
@[simp] theorem status_internalFault_busy (f : Status) : (f.internalFault).busy = false := rfl
@[simp] theorem status_internalFault_done (f : Status) : (f.internalFault).done = false := rfl
@[simp] theorem status_internalFault_err (f : Status) : (f.internalFault).err = true := rfl
@[simp] theorem status_internalFault_viol (f : Status) : (f.internalFault).viol = f.viol := rfl
@[simp] theorem status_internalFault_errCode (f : Status) : (f.internalFault).errCode = .internal := rfl

end Sys2Proof.Machine
end

