-- ==== Sys2Proof/Laws/Sort.lean ====
section
/-! SUPPORT. The engine's sort: every step of it rearranges the entries, the ranks see only which positions there are,
and the order induced from sorted B* suffixes is a row order. -/

namespace Sys2Proof.Machine

/-! ## Entries -/

theorem entryPos_entryOf {p : Nat} (h : p < 2 ^ 31) : entryPos (entryOf p) = p := by
  have hm : (entryOf p).msb = false := by
    simp [entryOf, BitVec.msb_eq_decide]; omega
  rw [entryPos, hm]
  simp [entryOf]
  omega

theorem entryPos_entryDone {p : Nat} (h : p < 2 ^ 31) : entryPos (entryDone p) = p := by
  have hm : (entryOf p).msb = false := by
    simp [entryOf, BitVec.msb_eq_decide]; omega
  simp [entryPos, entryDone, hm]
  simp [entryOf]
  omega

/-- A position an entry holds has 31 bits. -/
theorem entryPos_lt (w : Word) : entryPos w < 2 ^ 31 := by
  unfold entryPos
  cases hm : w.msb
  · simp [BitVec.msb_eq_decide] at hm
    simp; omega
  · simp [BitVec.msb_eq_decide] at hm
    simp [BitVec.toNat_not]; omega

/-! ## Every step rearranges -/

theorem onRange_perm {f : List Word → List Word} (h : ∀ l, (f l).Perm l) (i k : Nat) (pa : List Word) :
    (onRange i k f pa).Perm pa := by
  have h1 : (onRange i k f pa).Perm (pa.take i ++ ((pa.drop i).take k ++ (pa.drop i).drop k)) :=
    ((h _).append_right _).append_left _
  simpa using h1

theorem sortByPrefix_perm (block : List Byte) (d : Nat) (xs : List Word) : (sortByPrefix block d xs).Perm xs :=
  List.perm_insertionSort _ _

theorem mergeHead_perm {le : Word → Word → Bool} {x : Word} {xs : List Word} {rest : List Word → List Word}
    (h : ∀ ys, (rest ys).Perm (xs ++ ys)) (ys : List Word) : (mergeHead le x rest ys).Perm (x :: (xs ++ ys)) := by
  induction ys with
  | nil => exact (h []).cons x
  | cons y r ih =>
    simp only [mergeHead]
    split
    · exact (h (y :: r)).cons x
    · exact (ih.cons y).trans (List.perm_middle (l₁ := x :: xs)).symm

theorem mergeRuns_perm (le : Word → Word → Bool) (xs ys : List Word) : (mergeRuns le xs ys).Perm (xs ++ ys) := by
  induction xs generalizing ys with
  | nil => exact List.Perm.refl _
  | cons x r ih => exact mergeHead_perm ih ys

/-- Sorted runs merge into a sorted list, for an order that is transitive and total. -/
theorem mergeRuns_pairwise {r : Word → Word → Prop} {le : Word → Word → Bool} (hle : ∀ x y, le x y = true ↔ r x y)
    (ht : ∀ x y z, r x y → r y z → r x z) (hT : ∀ x y, r x y ∨ r y x) {xs ys : List Word} (hx : xs.Pairwise r)
    (hy : ys.Pairwise r) : (mergeRuns le xs ys).Pairwise r := by
  induction xs generalizing ys with
  | nil => exact hy
  | cons x xs ih =>
    rw [List.pairwise_cons] at hx
    show (mergeHead le x (mergeRuns le xs) ys).Pairwise r
    have first : ∀ ys : List Word, ys.Pairwise r → (∀ y ∈ ys, r x y) → (x :: mergeRuns le xs ys).Pairwise r := by
      intro ys hy hxy
      refine List.pairwise_cons.2 ⟨fun z hz => ?_, ih hx.2 hy⟩
      rcases List.mem_append.1 ((mergeRuns_perm le xs ys).mem_iff.1 hz) with hz | hz
      · exact hx.1 z hz
      · exact hxy z hz
    induction ys with
    | nil => exact first [] hy (by simp)
    | cons y ys ihy =>
      have hy' := List.pairwise_cons.1 hy
      simp only [mergeHead]
      split
      · next h =>
        have h := (hle x y).1 h
        refine first _ hy fun z hz => ?_
        rcases List.mem_cons.1 hz with rfl | hz
        · exact h
        · exact ht _ _ _ h (hy'.1 z hz)
      · next h =>
        have h := (hT x y).resolve_left fun h' => h ((hle x y).2 h')
        refine List.pairwise_cons.2 ⟨fun z hz => ?_, ihy hy'.2⟩
        rcases List.mem_cons.1 ((mergeHead_perm (mergeRuns_perm le xs) ys).mem_iff.1 hz) with rfl | hz
        · exact h
        · rcases List.mem_append.1 hz with hz | hz
          · exact ht _ _ _ h (hx.1 z hz)
          · exact hy'.1 z hz

theorem mergeForward_perm (block : List Byte) (d : Nat) (xs ys : List Word) :
    (mergeForward block d xs ys).Perm (xs ++ ys) :=
  mergeRuns_perm _ xs ys

theorem mergeBackward_perm (block : List Byte) (d : Nat) (xs ys : List Word) :
    (mergeBackward block d xs ys).Perm (xs ++ ys) := by
  refine (List.reverse_perm _).trans ((mergeRuns_perm _ _ _).trans ?_)
  exact ((List.reverse_perm _).append (List.reverse_perm _)).trans List.perm_append_comm

theorem mergeBy_perm (method : SortMethod) (block : List Byte) (d : Nat) (xs ys : List Word) :
    (mergeBy method block d xs ys).Perm (xs ++ ys) := by
  unfold mergeBy
  split
  · exact mergeForward_perm block d xs ys
  · exact mergeBackward_perm block d xs ys

theorem partition3_perm (key : Word → Nat) (v : Nat) (xs : List Word) : (partition3 key v xs).Perm xs := by
  unfold partition3
  induction xs with
  | nil => simp
  | cons w r ih =>
    simp only [List.filter_cons]
    rcases lt_trichotomy (key w) v with h | h | h
    · simpa [h, h.ne, show ¬ v < key w by omega] using ih
    · simp only [h, lt_irrefl, decide_false, Bool.false_eq_true, if_false, decide_true, if_true]
      simpa using (List.perm_middle (l₁ := r.filter _) (a := w)).trans (ih.cons w)
    · simp only [show ¬ key w < v by omega, h.ne', h, decide_false, Bool.false_eq_true, if_false, decide_true, if_true]
      rw [← List.append_assoc]
      exact List.perm_middle.trans ((by rw [List.append_assoc]; exact ih : List.Perm _ r).cons w)

/-- Below the pivot, at it, above it: a partition is sorted by side. -/
theorem partition3_pairwise (key : Word → Nat) (v : Nat) (xs : List Word) :
    (partition3 key v xs).Pairwise (fun x y => side v (key x) ≤ side v (key y)) := by
  have hs : ∀ {k l : Nat}, (k < v ∨ l > v ∨ k = v ∧ l = v) → side v k ≤ side v l := by
    intro k l h
    unfold side
    (repeat' split) <;> omega
  have hf : ∀ (p : Word → Bool), (∀ x y, p x = true → p y = true → side v (key x) ≤ side v (key y)) →
      (xs.filter p).Pairwise (fun x y => side v (key x) ≤ side v (key y)) :=
    fun p hp => List.pairwise_of_forall_mem_list fun x hx y hy =>
      hp x y (List.mem_filter.1 hx).2 (List.mem_filter.1 hy).2
  have hc : ∀ (p : Word → Bool) (x : Word), x ∈ xs.filter p → p x = true := fun p x hx => (List.mem_filter.1 hx).2
  refine List.pairwise_append.2 ⟨hf _ ?_, List.pairwise_append.2 ⟨hf _ ?_, hf _ ?_, ?_⟩, ?_⟩
  · intro x y hx _
    exact hs (.inl (by simpa using hx))
  · intro x y hx hy
    exact hs (.inr (.inr ⟨by simpa using hx, by simpa using hy⟩))
  · intro x y _ hy
    exact hs (.inr (.inl (by simpa using hy)))
  · intro x _ y hy
    exact hs (.inr (.inl (by simpa using hc _ _ hy)))
  · intro x hx y _
    exact hs (.inl (by simpa using hc _ _ hx))

@[simp] theorem markDone_length (block : List Byte) (d : Nat) (pa : List Word) :
    (markDone block d pa).length = pa.length := by
  simp [markDone]

@[simp] theorem unmarked_length (pa : List Word) : (unmarked pa).length = pa.length := by
  simp [unmarked]

/-- Marking one way or the other changes no position. -/
theorem remark_positions {f : Word → Word} (h : ∀ w, f w = entryOf (entryPos w) ∨ f w = entryDone (entryPos w))
    (pa : List Word) : (pa.map f).map entryPos = pa.map entryPos := by
  simp only [List.map_map]
  apply List.map_congr_left
  intro w _
  simp only [Function.comp]
  rcases h w with e | e <;> rw [e]
  · exact entryPos_entryOf (entryPos_lt w)
  · exact entryPos_entryDone (entryPos_lt w)

@[simp] theorem markDone_positions (block : List Byte) (d : Nat) (pa : List Word) :
    (markDone block d pa).map entryPos = pa.map entryPos :=
  remark_positions (fun w => by split <;> simp) pa

@[simp] theorem unmarked_positions (pa : List Word) : (unmarked pa).map entryPos = pa.map entryPos :=
  remark_positions (fun _ => .inl rfl) pa

@[simp] theorem markAll_positions (pa : List Word) : (markAll pa).map entryPos = pa.map entryPos :=
  remark_positions (fun _ => .inr rfl) pa

@[simp] theorem markAlone_positions (key : Nat → Nat) (pa : List Word) :
    (markAlone key pa).map entryPos = pa.map entryPos :=
  remark_positions (fun w => by split <;> simp) pa

@[simp] theorem markAll_length (pa : List Word) : (markAll pa).length = pa.length := by simp [markAll]

@[simp] theorem markAlone_length (key : Nat → Nat) (pa : List Word) : (markAlone key pa).length = pa.length := by
  simp [markAlone]

/-! ## The B* suffixes in text order, and their ranks -/

theorem textOrder_perm (pa : List Word) : (textOrder pa).Perm (pa.map entryPos) := List.perm_insertionSort _ _

@[simp] theorem textOrder_length (pa : List Word) : (textOrder pa).length = pa.length := by
  simpa using (textOrder_perm pa).length_eq

theorem mem_textOrder {pa : List Word} {p : Nat} : p ∈ textOrder pa ↔ p ∈ pa.map entryPos :=
  (textOrder_perm pa).mem_iff

theorem entryPos_mem_textOrder {pa : List Word} {x : Word} (h : x ∈ pa) : entryPos x ∈ textOrder pa :=
  mem_textOrder.2 (List.mem_map_of_mem h)

/-- The text order sees which positions PA holds, not their order or their marks. -/
theorem textOrder_congr {pa qa : List Word} (h : (pa.map entryPos).Perm (qa.map entryPos)) :
    textOrder pa = textOrder qa := by
  refine List.Perm.eq_of_pairwise (le := (· ≤ ·)) (fun _ _ _ _ h h' => Nat.le_antisymm h h')
    (List.pairwise_insertionSort _ _) (List.pairwise_insertionSort _ _) ?_
  exact (textOrder_perm pa).trans (h.trans (textOrder_perm qa).symm)

@[simp] theorem ranks_length (block : List Byte) (d : Nat) (pa : List Word) :
    (ranks block d pa).length = pa.length := by
  simp [ranks]

@[simp] theorem rerank_length (ps : List Nat) (isa : List Word) (a : Nat) (xs : List Word) (key : Nat → Nat) :
    (rerank ps isa a xs key).length = ps.length := by
  simp [rerank]

/-- A rank of a list that gives each position its rank. -/
theorem rankAt_map {ps : List Nat} (f : Nat → Nat) (hf : ∀ p ∈ ps, f p < 2 ^ 32) {p : Nat} (h : p ∈ ps) :
    rankAt ps (ps.map (fun p => BitVec.ofNat 32 (f p))) p = f p := by
  have hi := List.idxOf_lt_length_of_mem h
  rw [rankAt, List.getD_eq_getElem?_getD, List.getElem?_map, List.getElem?_eq_getElem hi, List.getElem_idxOf]
  simp only [Option.map_some, Option.getD_some, BitVec.toNat_ofNat]
  exact Nat.mod_eq_of_lt (hf p h)

/-! ## B* positions -/

theorem bStarPositions_lt {classes : List SuffixClass} {p : Nat} (h : p ∈ bStarPositions classes) :
    p < classes.length := by
  simp only [bStarPositions, List.mem_filter, List.mem_range] at h
  exact h.1

/-- No two neighbours are of type B*, so at most every other position is. -/
theorem bStarPositions_length_le (last : SuffixClass) (block : List Byte) :
    2 * (bStarPositions (suffixClasses last block)).length ≤ block.length + 1 := by
  have hl : ∀ cs : List SuffixClass, (bStarPositions cs).length = cs.countP (fun c => decide (c = .bStar)) := by
    intro cs
    induction cs with
    | nil => rfl
    | cons c cs ih =>
      rw [bStarPositions, ← List.countP_eq_length_filter] at ih ⊢
      rw [List.length_cons, List.range_succ_eq_map, List.countP_cons, List.countP_map, List.countP_cons]
      simp only [List.getElem?_cons_zero, Option.some.injEq]
      rw [show ((fun i => decide ((c :: cs)[i]? = some SuffixClass.bStar)) ∘ Nat.succ) =
        (fun i => decide (cs[i]? = some SuffixClass.bStar)) from rfl, ih]
  rw [hl]
  have h : ∀ b : List Byte, 2 * (suffixClasses last b).countP (fun c => decide (c = .bStar)) ≤
      b.length + (if (suffixClasses last b).head? = some .bStar then 1 else 0) := by
    intro b
    induction b with
    | nil => simp [suffixClasses]
    | cons x r ih =>
      cases r with
      | nil => cases last <;> simp [suffixClasses]
      | cons y r =>
        rw [suffixClasses]
        generalize suffixClasses last (y :: r) = rest at ih ⊢
        simp only [List.countP_cons, List.head?_cons, Option.some.injEq, List.length_cons] at ih ⊢
        by_cases hA : rest.head? = some SuffixClass.a
        · rw [if_neg (by rw [hA]; simp)] at ih
          split <;> simp <;> omega
        · have ih' : 2 * rest.countP (fun c => decide (c = SuffixClass.bStar)) ≤ r.length + 1 + 1 := by
            split at ih <;> omega
          split <;> simp <;> omega
  have := h block
  split at this <;> omega

theorem bucketed_positions (block : List Byte) {ps : List Nat} (h : ∀ p ∈ ps, p < 2 ^ 31) :
    ((bucketed block ps).map entryPos).Perm ps := by
  have hp := List.perm_insertionSort (fun p q => bucketOf block p ≤ bucketOf block q) ps
  refine List.Perm.trans ?_ hp
  simp only [bucketed, List.map_map]
  have e : ∀ l : List Nat, (∀ p ∈ l, p < 2 ^ 31) → l.map (entryPos ∘ entryOf) = l := fun l hl =>
    (List.map_congr_left (g := id) (fun p hp => entryPos_entryOf (hl p hp))).trans (List.map_id l)
  rw [e _ (fun p hp' => h p (hp.mem_iff.1 hp'))]

@[simp] theorem bucketed_length (block : List Byte) (ps : List Nat) : (bucketed block ps).length = ps.length := by
  simp [bucketed]

/-! ## The order of whole rotations -/

theorem lexLt_asymm {x y : List Byte} (h : lexLt x y = true) : lexLt y x = false := by
  cases h' : lexLt y x
  · rfl
  · have := lexLt_trans h h'
    simp at this

theorem RowLe.trans {block : List Byte} {p q r : Nat} (h : RowLe block p q) (h' : RowLe block q r) :
    RowLe block p r := by
  cases h1 : lexLt (rotation block r) (rotation block p)
  · exact h1
  · exfalso
    by_cases h2 : lexLt (rotation block p) (rotation block q) = true
    · have := lexLt_trans h1 h2
      rw [h'] at this
      simp at this
    · have e := eq_of_not_lexLt (by simpa using h2) h
      rw [e, h'] at h1
      simp at h1

theorem RowLe.total (block : List Byte) (p q : Nat) : RowLe block p q ∨ RowLe block q p := by
  cases h : lexLt (rotation block q) (rotation block p)
  · exact .inl h
  · exact .inr (lexLt_asymm h)

/-- An insertion sort by a relation that, where it holds, agrees with a transitive order and, where it fails, with its
converse, is sorted in that order, whether or not the relation is itself transitive. -/
theorem pairwise_insertionSort_of_agrees {α : Type} {r s : α → α → Prop} [DecidableRel r]
    (hs : ∀ a b c, s a b → s b c → s a c) {P : α → Prop} (h1 : ∀ a b, P a → P b → r a b → s a b)
    (h2 : ∀ a b, P a → P b → ¬ r a b → s b a) {l : List α} (hP : ∀ a ∈ l, P a) : (l.insertionSort r).Pairwise s := by
  have hins : ∀ (a : α) (l : List α), P a → (∀ b ∈ l, P b) → l.Pairwise s → (l.orderedInsert r a).Pairwise s := by
    intro a l ha hl hp
    induction l with
    | nil => simp
    | cons b l ih =>
      have hb := hl b (by simp)
      rw [List.pairwise_cons] at hp
      simp only [List.orderedInsert]
      split
      · next hr =>
        rw [List.pairwise_cons, List.pairwise_cons]
        refine ⟨fun c hc => ?_, hp⟩
        rcases List.mem_cons.1 hc with rfl | hc
        · exact h1 _ _ ha hb hr
        · exact hs _ _ _ (h1 _ _ ha hb hr) (hp.1 c hc)
      · next hr =>
        rw [List.pairwise_cons]
        refine ⟨fun c hc => ?_, ih (fun c hc => hl c (by simp [hc])) hp.2⟩
        rcases (List.mem_orderedInsert r).1 hc with rfl | hc
        · exact h2 _ _ ha hb hr
        · exact hp.1 c hc
  induction l with
  | nil => simp
  | cons a l ih =>
    rw [List.insertionSort_cons]
    refine hins a _ (hP a (by simp)) (fun b hb => ?_) (ih fun b hb => hP b (by simp [hb]))
    exact hP b (List.mem_cons_of_mem _ ((List.mem_insertionSort r).1 hb))

/-- A sort by at least all bytes of the rotations is in the order of the rotations. -/
theorem sortByPrefix_sorted (block : List Byte) {d : Nat} (hd : block.length ≤ d) (xs : List Word) :
    ((sortByPrefix block d xs).map entryPos).Pairwise (RowLe block) := by
  rw [List.pairwise_map]
  have ht : ∀ p, (rotation block p).take d = rotation block p := fun p => List.take_of_length_le (by simpa using hd)
  refine pairwise_insertionSort_of_agrees (r := PrefixLe block d) (s := fun x y => RowLe block (entryPos x) (entryPos y))
    (P := fun _ => True) (fun _ _ _ h h' => RowLe.trans h h') ?_ ?_ (by simp)
  · intro a b _ _ h
    simpa [PrefixLe, prefixBefore, ht] using h
  · intro a b _ _ h
    simp only [PrefixLe, prefixBefore, ht, Bool.not_eq_false] at h
    exact lexLt_asymm h

/-! ## The order of rotations by their first bytes -/

/-- Strings of one length: the first byte that differs decides. -/
theorem lexLt_iff_getD {x y : List Byte} (h : x.length = y.length) :
    lexLt x y = true ↔ ∃ k, k < x.length ∧ (∀ j, j < k → x.getD j 0#8 = y.getD j 0#8) ∧
      (x.getD k 0#8).toNat < (y.getD k 0#8).toNat := by
  induction x generalizing y with
  | nil =>
    obtain rfl : y = [] := by simpa using h.symm
    simp [lexLt]
  | cons a x ih =>
    cases y with
    | nil => simp at h
    | cons b y =>
      simp only [lexLt, Bool.or_eq_true, Bool.and_eq_true, decide_eq_true_eq, ih (by simpa using h)]
      constructor
      · rintro (hab | ⟨rfl, k, hk, he, hl⟩)
        · exact ⟨0, by simp, by simp, hab⟩
        · refine ⟨k + 1, by simpa using hk, fun j hj => ?_, by simpa using hl⟩
          cases j with
          | zero => rfl
          | succ j => simpa using he j (by omega)
      · rintro ⟨k, hk, he, hl⟩
        cases k with
        | zero => exact .inl (by simpa using hl)
        | succ k =>
          exact .inr ⟨by simpa using he 0 (by omega), k, by simpa using hk,
            fun j hj => by simpa using he (j + 1) (by omega), by simpa using hl⟩

/-- The first `d` bytes of a rotation, one by one. -/
theorem rotation_take_getD (block : List Byte) {d p j : Nat} (hp : p < block.length) (hj : j < d)
    (hd : d ≤ block.length) : ((rotation block p).take d).getD j 0#8 = byteAt block j p := by
  rw [List.getD_eq_getElem?_getD, List.getElem?_take_of_lt hj, ← List.getD_eq_getElem?_getD,
    rotation_getD block hp (by omega), byteAt]

/-- The order of rotations by their first `d` bytes: the first byte that differs decides. -/
theorem prefixBefore_iff {block : List Byte} {d p q : Nat} (hd : d ≤ block.length) (hp : p < block.length)
    (hq : q < block.length) :
    prefixBefore block d p q = true ↔ ∃ k, k < d ∧ (∀ j, j < k → byteAt block j p = byteAt block j q) ∧
      (byteAt block k p).toNat < (byteAt block k q).toNat := by
  rw [prefixBefore, lexLt_iff_getD (by simp)]
  simp only [List.length_take, rotation_length, Nat.min_eq_left hd]
  constructor
  · rintro ⟨k, hk, he, hl⟩
    refine ⟨k, hk, fun j hj => ?_, ?_⟩
    · simpa only [rotation_take_getD block hp (by omega : j < d) hd, rotation_take_getD block hq (by omega : j < d) hd]
        using he j hj
    · simpa only [rotation_take_getD block hp hk hd, rotation_take_getD block hq hk hd] using hl
  · rintro ⟨k, hk, he, hl⟩
    refine ⟨k, hk, fun j hj => ?_, ?_⟩
    · simpa only [rotation_take_getD block hp (by omega : j < d) hd, rotation_take_getD block hq (by omega : j < d) hd]
        using he j hj
    · simpa only [rotation_take_getD block hp hk hd, rotation_take_getD block hq hk hd] using hl

theorem prefixBefore_length (block : List Byte) (p q : Nat) :
    prefixBefore block block.length p q = lexLt (rotation block p) (rotation block q) := by
  simp [prefixBefore, List.take_of_length_le]

/-- Rotations whose first `d` bytes agree. -/
theorem take_eq_iff {block : List Byte} {d p q : Nat} (hd : d ≤ block.length) (hp : p < block.length)
    (hq : q < block.length) :
    (rotation block p).take d = (rotation block q).take d ↔ ∀ j, j < d → byteAt block j p = byteAt block j q := by
  constructor
  · intro h j hj
    rw [← rotation_take_getD block hp hj hd, h, rotation_take_getD block hq hj hd]
  · intro h
    apply List.ext_getElem (by simp)
    intro j h1 h2
    have hj : j < d := by simp at h1; omega
    have := h j hj
    rw [← rotation_take_getD block hp hj hd, ← rotation_take_getD block hq hj hd, List.getD_eq_getElem _ _ h1,
      List.getD_eq_getElem _ _ h2] at this
    exact this

/-- Equal rotations agree on every byte. -/
theorem byteAt_of_rotation_eq {block : List Byte} {p q : Nat} (hp : p < block.length) (hq : q < block.length)
    (h : rotation block p = rotation block q) (j : Nat) : byteAt block j p = byteAt block j q := by
  have hn : 0 < block.length := by omega
  have e : ∀ r, byteAt block j r = byteAt block (j % block.length) r := by
    intro r
    simp [byteAt, Nat.add_mod]
  have := (take_eq_iff (le_refl _) hp hq).1 (by rw [h]) (j % block.length) (Nat.mod_lt _ hn)
  rw [e, e, this]

theorem PrefixLe.trans {block : List Byte} {d : Nat} {x y z : Word} (h : PrefixLe block d x y)
    (h' : PrefixLe block d y z) : PrefixLe block d x z := by
  unfold PrefixLe prefixBefore at *
  cases h1 : lexLt ((rotation block (entryPos z)).take d) ((rotation block (entryPos x)).take d)
  · rfl
  · exfalso
    by_cases h2 : lexLt ((rotation block (entryPos x)).take d) ((rotation block (entryPos y)).take d) = true
    · have := lexLt_trans h1 h2
      rw [h'] at this
      simp at this
    · have e := eq_of_not_lexLt (by simpa using h2) h
      rw [e, h'] at h1
      simp at h1

theorem PrefixLe.total (block : List Byte) (d : Nat) (x y : Word) : PrefixLe block d x y ∨ PrefixLe block d y x := by
  unfold PrefixLe prefixBefore
  cases h : lexLt ((rotation block (entryPos y)).take d) ((rotation block (entryPos x)).take d)
  · exact .inl rfl
  · exact .inr (lexLt_asymm h)

theorem sortByPrefix_pairwise (block : List Byte) (d : Nat) (xs : List Word) :
    (sortByPrefix block d xs).Pairwise (PrefixLe block d) :=
  pairwise_insertionSort_of_agrees (P := fun _ => True) (fun _ _ _ h h' => h.trans h') (fun _ _ _ _ h => h)
    (fun x y _ _ h => (PrefixLe.total block d x y).resolve_left h) (by simp)

theorem mergeBy_pairwise (method : SortMethod) {block : List Byte} {d : Nat} {xs ys : List Word}
    (hx : xs.Pairwise (PrefixLe block d)) (hy : ys.Pairwise (PrefixLe block d)) :
    (mergeBy method block d xs ys).Pairwise (PrefixLe block d) := by
  unfold mergeBy
  split
  · exact mergeRuns_pairwise (by simp) (fun _ _ _ h h' => h.trans h') (PrefixLe.total block d) hx hy
  · rw [mergeBackward, List.pairwise_reverse]
    exact mergeRuns_pairwise (r := fun x y => PrefixLe block d y x) (by simp) (fun _ _ _ h h' => h'.trans h)
      (fun x y => PrefixLe.total block d y x) (List.pairwise_reverse.2 hy) (List.pairwise_reverse.2 hx)

/-! ## The induction -/

theorem byteAt_zero {block : List Byte} {p : Nat} (h : p < block.length) :
    byteAt block 0 p = block.getD p 0#8 := by
  simp [byteAt, Nat.mod_eq_of_lt h]

/-- A rotation is its first byte and then the next rotation without its last. -/
theorem rotation_step (block : List Byte) {p : Nat} (h : p < block.length) :
    ∃ x, rotation block p = byteAt block 0 p :: x ∧
      rotation block ((p + 1) % block.length) = x ++ [byteAt block 0 p] := by
  rw [byteAt_zero h]
  refine ⟨block.drop (p + 1) ++ block.take p, ?_, ?_⟩
  · simp only [rotation, List.getD_eq_getElem _ _ h]
    rw [← List.cons_append, List.getElem_cons_drop]
  · by_cases h1 : p + 1 < block.length
    · rw [Nat.mod_eq_of_lt h1, rotation, List.take_succ_eq_append_getElem h]
      simp [List.getD_eq_getElem?_getD, h]
    · have h2 : p + 1 = block.length := by omega
      rw [h2, Nat.mod_self, rotation]
      simp only [List.drop_zero, List.take_zero, List.append_nil, List.drop_length, List.nil_append]
      rw [List.getD_eq_getElem _ _ h, ← List.take_succ_eq_append_getElem h, h2, List.take_length]

theorem lexLt_append_same {x y : List Byte} (h : x.length = y.length) (z : List Byte) :
    lexLt (x ++ z) (y ++ z) = lexLt x y := by
  induction x generalizing y with
  | nil =>
    have : y = [] := by simpa using h.symm
    subst this
    simp [lexLt]
  | cons a x ih =>
    cases y with
    | nil => simp at h
    | cons b y => simp only [List.cons_append, lexLt, ih (by simpa using h)]

/-- Rotations with one first byte stand in the order of the next rotations. -/
theorem lexLt_rotation_step {block : List Byte} {p q : Nat} (hp : p < block.length) (hq : q < block.length)
    (h : byteAt block 0 p = byteAt block 0 q) :
    lexLt (rotation block ((p + 1) % block.length)) (rotation block ((q + 1) % block.length)) =
      lexLt (rotation block p) (rotation block q) := by
  obtain ⟨x, hx1, hx2⟩ := rotation_step block hp
  obtain ⟨y, hy1, hy2⟩ := rotation_step block hq
  have hl : x.length = y.length := by
    have := congrArg List.length (hx1.symm.trans (by rfl : rotation block p = rotation block p))
    have h1 := rotation_length block p
    have h2 := rotation_length block q
    rw [hx1] at h1; rw [hy1] at h2
    simp at h1 h2; omega
  rw [hx2, hy2, hx1, hy1, h, lexLt_append_same hl]
  simp [lexLt]

/-- What the induced comparison decides is so, where the B* suffixes are sorted. -/
theorem inducedLe_spec {block : List Byte} {order : List Nat} (hs : order.Pairwise (RowLe block)) (k : Nat)
    {p q : Nat} (hp : p < block.length) (hq : q < block.length) :
    (inducedLe block order k p q = true → RowLe block p q ∨
      ∀ j, j < k → byteAt block 0 ((p + j) % block.length) = byteAt block 0 ((q + j) % block.length)) ∧
    (inducedLe block order k p q = false → RowLe block q p) := by
  induction k generalizing p q with
  | zero => simp [inducedLe]
  | succ k ih =>
    simp only [inducedLe]
    split
    · next hm =>
      have hle : ∀ {a b : Nat}, a ∈ order → b ∈ order → order.idxOf a ≤ order.idxOf b → RowLe block a b := by
        intro a b ha hb hi
        rcases Nat.lt_or_ge (order.idxOf a) (order.idxOf b) with hlt | hge
        · have := List.pairwise_iff_getElem.1 hs _ _ (List.idxOf_lt_length_of_mem ha)
            (List.idxOf_lt_length_of_mem hb) hlt
          simpa using this
        · have e : a = b := (List.idxOf_inj ha).1 (by omega)
          subst e
          simp [RowLe]
      refine ⟨fun h => .inl (hle hm.1 hm.2 (by simpa using h)), fun h => hle hm.2 hm.1 ?_⟩
      simp only [decide_eq_false_iff_not] at h
      omega
    · split
      · next hb =>
        have hn : 0 < block.length := by omega
        have ih := ih (Nat.mod_lt (p + 1) hn) (Nat.mod_lt (q + 1) hn)
        refine ⟨fun h => ?_, fun h => ?_⟩
        · rcases ih.1 h with h1 | h1
          · left
            rw [RowLe, ← lexLt_rotation_step hq hp hb.symm]
            exact h1
          · right
            intro j hj
            cases j with
            | zero => simpa [Nat.mod_eq_of_lt hp, Nat.mod_eq_of_lt hq] using hb
            | succ j =>
              have := h1 j (by omega)
              simp only [Nat.mod_add_mod] at this
              rw [show p + (j + 1) = p + 1 + j by omega, show q + (j + 1) = q + 1 + j by omega]
              exact this
        · rw [RowLe, ← lexLt_rotation_step hp hq hb]
          exact ih.2 h
      · next hb =>
        obtain ⟨x, hx, _⟩ := rotation_step block hp
        obtain ⟨y, hy, _⟩ := rotation_step block hq
        have hne : (byteAt block 0 p).toNat ≠ (byteAt block 0 q).toNat := fun e => hb (BitVec.eq_of_toNat_eq e)
        refine ⟨fun h => .inl ?_, fun h => ?_⟩
        · simp only [decide_eq_true_eq] at h
          rw [RowLe, hx, hy]
          simp [lexLt, Ne.symm hb]
          omega
        · simp only [decide_eq_false_iff_not] at h
          rw [RowLe, hx, hy]
          simp [lexLt, hb]
          omega

/-- The order induced from sorted B* suffixes is a row order (42_bwt_engine.md R161, R179). -/
theorem inducedOrder_sorted {block : List Byte} {order : List Nat} (hs : order.Pairwise (RowLe block)) :
    (inducedOrder block order).Perm (List.range block.length) ∧ (inducedOrder block order).Pairwise (RowLe block) := by
  refine ⟨List.perm_insertionSort _ _, ?_⟩
  refine pairwise_insertionSort_of_agrees (r := fun p q => inducedLe block order block.length p q = true)
    (s := RowLe block) (P := fun p => p < block.length) (fun _ _ _ h h' => RowLe.trans h h') ?_ ?_
    (fun p hp => List.mem_range.1 hp)
  · intro p q hp hq h
    rcases (inducedLe_spec hs block.length hp hq).1 h with h1 | h1
    · exact h1
    · have e : rotation block p = rotation block q := by
        apply List.ext_getElem (by simp)
        intro j hj hj'
        simp only [rotation_length] at hj
        have hn : 0 < block.length := by omega
        have h2 := h1 j hj
        rw [byteAt_zero (Nat.mod_lt _ hn), byteAt_zero (Nat.mod_lt _ hn), ← rotation_getD block hp hj,
          ← rotation_getD block hq hj] at h2
        simpa [List.getD_eq_getElem?_getD, hj] using h2
      simp [RowLe, e]
  · intro p q hp hq h
    exact (inducedLe_spec hs block.length hp hq).2 (by simpa using h)

@[simp] theorem inducedTransform_length (block : List Byte) (order : List Nat) :
    (inducedTransform block order).length = block.length := by
  simp [inducedTransform, inducedOrder]

end Sys2Proof.Machine
end

