-- ==== Sys2Proof/Laws/Stack.lean ====
section
/-! SUPPORT. The explicit stack as a list of frames: what a push and a pop do to it. -/

namespace Sys2Proof.Machine

theorem pushFrame_frames {f : Frame} {e g : Engine} (h : pushFrame f e = some g) :
    g = { e with stack := g.stack, ssize := g.ssize } ∧ framesOf g = framesOf e ++ [f] ∧ g.ssize = e.ssize + 1 ∧
      g.ssize ≤ 64 := by
  unfold pushFrame at h
  split at h
  · next hs =>
    cases h
    refine ⟨rfl, ?_, rfl, hs⟩
    simp only [framesOf]
    rw [List.take_add_one]
    congr 1
    · rw [Vector.toList_set, List.take_set_of_le (by omega)]
    · simp [Vector.toList_set, hs]
  · simp at h

/-- A push changes the stack alone. -/
theorem pushFrames_only {fs : List Frame} {e g : Engine} (h : pushFrames fs e = some g) :
    g = { e with stack := g.stack, ssize := g.ssize } := by
  induction fs generalizing e with
  | nil => cases h; rfl
  | cons f r ih =>
    simp only [pushFrames] at h
    split at h
    · next e' he' =>
      rw [ih h, (pushFrame_frames he').1]
    · simp at h

theorem pushFrames_frames {fs : List Frame} {e g : Engine} (h : pushFrames fs e = some g) (he : e.ssize ≤ 64) :
    g = { e with stack := g.stack, ssize := g.ssize } ∧ framesOf g = framesOf e ++ fs ∧
      g.ssize = e.ssize + fs.length ∧ g.ssize ≤ 64 := by
  induction fs generalizing e with
  | nil => cases h; exact ⟨rfl, by simp, rfl, he⟩
  | cons f r ih =>
    simp only [pushFrames] at h
    split at h
    · next e' he' =>
      obtain ⟨h1, h2, h3, h4⟩ := pushFrame_frames he'
      obtain ⟨i1, i2, i3, i4⟩ := ih h h4
      refine ⟨?_, by rw [i2, h2]; simp, by rw [i3, h3]; simp; omega, i4⟩
      rw [i1, h1]
    · simp at h

/-- A pop changes the number of frames alone. -/
theorem popFrame_only {f : Frame} {e g : Engine} (h : popFrame e = some (f, g)) : g = { e with ssize := g.ssize } := by
  unfold popFrame at h
  split at h
  · simp at h
  · obtain ⟨x, -, hf⟩ := Option.map_eq_some_iff.1 h
    cases hf
    rfl

theorem popFrame_frames {f : Frame} {e g : Engine} (h : popFrame e = some (f, g)) (he : e.ssize ≤ 64) :
    g = { e with ssize := g.ssize } ∧ framesOf e = framesOf g ++ [f] ∧ e.ssize = g.ssize + 1 := by
  unfold popFrame at h
  split at h
  · simp at h
  · next h0 =>
    obtain ⟨x, hx, hf⟩ := Option.map_eq_some_iff.1 h
    cases hf
    refine ⟨rfl, ?_, by simp; omega⟩
    have : e.ssize = e.ssize - 1 + 1 := by omega
    simp only [framesOf]
    conv_lhs => rw [this]
    rw [List.take_add_one]
    congr 1
    have : e.stack.toList[e.ssize - 1]? = some f := by
      rw [← hx]
      simp
    rw [this]
    rfl

theorem popFrame_none {e : Engine} (he : e.ssize ≤ 64) : popFrame e = none ↔ e.ssize = 0 := by
  unfold popFrame
  split
  · next h => simp [h]
  · next h => simp [h]; omega

theorem framesOf_zero {e : Engine} (h : e.ssize = 0) : framesOf e = [] := by simp [framesOf, h]

theorem mem_framesOf {e : Engine} {f : Frame} : f ∈ framesOf e ↔ ∃ k, ∃ h : k < 64, k < e.ssize ∧ e.stack[k] = f := by
  simp only [framesOf, List.mem_take_iff_getElem]
  constructor
  · rintro ⟨k, hk, h⟩
    simp at hk
    exact ⟨k, by omega, by omega, by simpa using h⟩
  · rintro ⟨k, h64, hk, h⟩
    exact ⟨k, by simp; omega, by simpa using h⟩

/-- A part has one frame, and a single entry or none has no frame. -/
theorem partFrame_length (first size : Nat) (depth limit : BitVec 32) :
    (partFrame first size depth limit).length = if 2 ≤ size then 1 else 0 := by
  unfold partFrame
  by_cases h : size ≤ 1
  · rw [if_pos h, if_neg (by omega)]; rfl
  · rw [if_neg h, if_pos (by omega)]; rfl

/-- The frame of a part of a range. -/
theorem mem_partFrame {pa : Region} {first size : Nat} {depth limit : BitVec 32} {f : Frame}
    (h : f ∈ partFrame first size depth limit) (hb : first + size ≤ 2 ^ 32) :
    2 ≤ size ∧ f.first.toNat = first ∧ f.last.toNat + 1 = first + size ∧ f.depth = depth ∧ f.limit = limit ∧
      frameRange pa f = (first - pa.base, size) := by
  unfold partFrame at h
  split at h
  · simp at h
  · next hs =>
    obtain rfl : f = _ := by simpa using h
    have h1 : (BitVec.ofNat 32 first).toNat = first := by simp; omega
    have h2 : (BitVec.ofNat 32 (first + size - 1)).toNat = first + size - 1 := by simp; omega
    refine ⟨by omega, h1, by simp only [h2]; omega, rfl, rfl, ?_⟩
    simp only [frameRange, h1, h2]
    congr 1
    omega

/-- A part of two entries or more has its frame. -/
theorem partFrame_covers {first size : Nat} (pa : Region) (depth limit : BitVec 32) (h : 2 ≤ size)
    (hb : first + size ≤ 2 ^ 32) :
    ∃ f ∈ partFrame first size depth limit, frameRange pa f = (first - pa.base, size) := by
  have e : partFrame first size depth limit =
      [⟨BitVec.ofNat 32 first, BitVec.ofNat 32 (first + size - 1), depth, limit⟩] := by
    rw [partFrame, if_neg (by omega)]
  have hm : (⟨BitVec.ofNat 32 first, BitVec.ofNat 32 (first + size - 1), depth, limit⟩ : Frame) ∈
      partFrame first size depth limit := by rw [e]; exact List.mem_singleton.2 rfl
  exact ⟨_, hm, (mem_partFrame hm hb).2.2.2.2.2⟩

end Sys2Proof.Machine
end

