-- ==== Sys2Proof/Laws/Substring.lean ====
section
/-! SUPPORT. SSSORT: every step of the substring sort keeps what it has done so far, and at its end PA is in the order of
its substrings (42_bwt_engine.md R174). -/

namespace Sys2Proof.Machine

/-! ## Entries of a range -/

theorem rangeEntries_length {r : Nat × Nat} {pa : List Word} (h : r.1 + r.2 ≤ pa.length) :
    (rangeEntries r pa).length = r.2 := by
  simp [rangeEntries]
  omega

theorem rangeEntries_getD {r : Nat × Nat} {pa : List Word} {k : Nat} (h : k < r.2) (x : Word) :
    (rangeEntries r pa).getD k x = pa.getD (r.1 + k) x := by
  simp [rangeEntries, List.getD_eq_getElem?_getD, List.getElem?_take_of_lt h]

theorem onRange_getD {f : List Word → List Word} {r : Nat × Nat} {pa : List Word} (h : r.1 + r.2 ≤ pa.length)
    (hf : (f (rangeEntries r pa)).length = r.2) (k : Nat) (x : Word) :
    (onRange r.1 r.2 f pa).getD k x =
      if r.1 ≤ k ∧ k < r.1 + r.2 then (f (rangeEntries r pa)).getD (k - r.1) x else pa.getD k x := by
  simp only [onRange, List.getD_eq_getElem?_getD]
  change ((pa.take r.1 ++ (f (rangeEntries r pa) ++ (pa.drop r.1).drop r.2))[k]?).getD x = _
  rcases Nat.lt_or_ge k r.1 with h1 | h1
  · rw [if_neg (by omega), List.getElem?_append_left (by simp; omega), List.getElem?_take_of_lt h1]
  · rw [List.getElem?_append_right (by simp; omega), List.length_take, Nat.min_eq_left (by omega)]
    rcases Nat.lt_or_ge k (r.1 + r.2) with h2 | h2
    · rw [if_pos ⟨h1, h2⟩, List.getElem?_append_left (by omega)]
    · rw [if_neg (by omega), List.getElem?_append_right (by omega), hf, List.getElem?_drop, List.getElem?_drop]
      congr 2
      omega

theorem onRange_length {f : List Word → List Word} {r : Nat × Nat} {pa : List Word} (h : r.1 + r.2 ≤ pa.length)
    (hf : (f (rangeEntries r pa)).length = r.2) : (onRange r.1 r.2 f pa).length = pa.length := by
  show (pa.take r.1 ++ (f (rangeEntries r pa) ++ (pa.drop r.1).drop r.2)).length = _
  simp [hf]
  omega

/-! ## A step over the range of one frame -/

/-- The entries of a range reordered, with frames for its parts in place of its own. -/
theorem SubstringInv.reorder {block : List Byte} {d : Nat} {e e' : Engine} {pa : List Word} {f : Frame}
    {rest parts : List Frame} {g : List Word → List Word} (hI : SubstringInv block d e pa)
    (hf : framesOf e = rest ++ [f]) (hf' : framesOf e' = rest ++ parts)
    (he : e'.pa = e.pa ∧ e'.sorted = e.sorted ∧ e'.taken = e.taken)
    (hg : (g (rangeEntries (frameRange e.pa f) pa)).Perm (rangeEntries (frameRange e.pa f) pa))
    (hp : ∀ p ∈ parts, e.pa.base ≤ p.first.toNat ∧ (frameRange e.pa f).1 ≤ (frameRange e.pa p).1 ∧
      (frameRange e.pa p).1 + (frameRange e.pa p).2 ≤ (frameRange e.pa f).1 + (frameRange e.pa f).2 ∧
      p.depth.toNat < d ∧ ∀ k l j, InFrame e.pa p ((frameRange e.pa f).1 + k) →
        InFrame e.pa p ((frameRange e.pa f).1 + l) → j < p.depth.toNat →
        byteAt block j (entryPos ((g (rangeEntries (frameRange e.pa f) pa)).getD k 0#32)) =
          byteAt block j (entryPos ((g (rangeEntries (frameRange e.pa f) pa)).getD l 0#32)))
    (ha : parts.Pairwise (fun p q => ∀ k, ¬ (InFrame e.pa p k ∧ InFrame e.pa q k)))
    (ho : ∀ k l, k < l → l < (frameRange e.pa f).2 →
      PrefixLe block d ((g (rangeEntries (frameRange e.pa f) pa)).getD k 0#32)
        ((g (rangeEntries (frameRange e.pa f) pa)).getD l 0#32) ∨
      ∃ p ∈ parts, InFrame e.pa p ((frameRange e.pa f).1 + k) ∧ InFrame e.pa p ((frameRange e.pa f).1 + l)) :
    SubstringInv block d e' (onRange (frameRange e.pa f).1 (frameRange e.pa f).2 g pa) := by
  obtain ⟨e1, e2, e3⟩ := he
  obtain ⟨r1, r2, r3, r4, r5⟩ := hI.ranges f (by simp [hf])
  have hlen : (frameRange e.pa f).1 + (frameRange e.pa f).2 ≤ pa.length := le_trans r3 hI.cursors.2
  have hgl : (g (rangeEntries (frameRange e.pa f) pa)).length = (frameRange e.pa f).2 := by
    rw [hg.length_eq, rangeEntries_length hlen]
  have hget := onRange_getD hlen hgl
  have hmem : ∀ k, k < (frameRange e.pa f).2 → ∃ k', InFrame e.pa f k' ∧
      (g (rangeEntries (frameRange e.pa f) pa)).getD k 0#32 = pa.getD k' 0#32 := by
    intro k hk
    have h1 : (g (rangeEntries (frameRange e.pa f) pa)).getD k 0#32 ∈ rangeEntries (frameRange e.pa f) pa := by
      rw [← hg.mem_iff, List.getD_eq_getElem _ _ (by omega)]
      exact List.getElem_mem _
    obtain ⟨i, hi, h2⟩ := List.mem_iff_getElem.1 h1
    rw [rangeEntries_length hlen] at hi
    refine ⟨(frameRange e.pa f).1 + i, ⟨by omega, by omega⟩, ?_⟩
    rw [← rangeEntries_getD hi, ← h2, List.getD_eq_getElem]
  have hrest : ∀ p ∈ rest, ∀ k, InFrame e.pa p k → ¬ InFrame e.pa f k := by
    intro p hp k h1 h2
    have := hI.apart
    rw [hf, List.pairwise_append] at this
    exact this.2.2 p hp f (by simp) k ⟨h1, h2⟩
  generalize hA : onRange (frameRange e.pa f).1 (frameRange e.pa f).2 g pa = qa at *
  have hout : ∀ k, ¬ InFrame e.pa f k → qa.getD k 0#32 = pa.getD k 0#32 := fun k hk => by rw [hget, if_neg hk]
  have hin : ∀ k, InFrame e.pa f k →
      qa.getD k 0#32 = (g (rangeEntries (frameRange e.pa f) pa)).getD (k - (frameRange e.pa f).1) 0#32 :=
    fun k hk => by rw [hget, if_pos hk]
  refine ⟨?_, ?_, ?_, ?_, ?_⟩
  · rw [e2, e3, ← hA, onRange_length hlen hgl]
    exact hI.cursors
  · rw [e2, ← hA]
    show ((pa.take _ ++ (g (rangeEntries (frameRange e.pa f) pa) ++ (pa.drop _).drop _)).take e.sorted).Pairwise _
    rw [List.take_append_of_le_length (by simp; omega), List.take_take, Nat.min_eq_left r2]
    exact hI.run
  · rw [e1, e2, e3, hf']
    intro k l hk hkl hl
    by_cases ik : InFrame e.pa f k <;> by_cases il : InFrame e.pa f l
    · rw [hin k ik, hin l il]
      rcases ho (k - (frameRange e.pa f).1) (l - (frameRange e.pa f).1) (by omega) (by omega) with h | ⟨p, hp, h1, h2⟩
      · exact .inl h
      · refine .inr ⟨p, by simp [hp], ?_, ?_⟩
        · rwa [Nat.add_sub_cancel' ik.1] at h1
        · rwa [Nat.add_sub_cancel' il.1] at h2
    · obtain ⟨k', hk', hke⟩ := hmem (k - (frameRange e.pa f).1) (by omega)
      rw [hin k ik, hke, hout l il]
      rcases hI.pending k' l (by omega) (by omega) hl with h | ⟨p, hp, h1, h2⟩
      · exact .inl h
      · exfalso
        rw [hf, List.mem_append] at hp
        rcases hp with hp | hp
        · exact hrest p hp k' h1 hk'
        · obtain rfl : p = f := by simpa using hp
          exact il h2
    · obtain ⟨l', hl', hle⟩ := hmem (l - (frameRange e.pa f).1) (by omega)
      rw [hin l il, hle, hout k ik]
      rcases hI.pending k l' hk (by omega) (by omega) with h | ⟨p, hp, h1, h2⟩
      · exact .inl h
      · exfalso
        rw [hf, List.mem_append] at hp
        rcases hp with hp | hp
        · exact hrest p hp l' h2 hl'
        · obtain rfl : p = f := by simpa using hp
          exact ik h1
    · rw [hout k ik, hout l il]
      rcases hI.pending k l hk hkl hl with h | ⟨p, hp, h1, h2⟩
      · exact .inl h
      · rw [hf, List.mem_append] at hp
        rcases hp with hp | hp
        · exact .inr ⟨p, by simp [hp], h1, h2⟩
        · obtain rfl : p = f := by simpa using hp
          exact absurd h1 ik
  · rw [e1, e2, e3, hf']
    intro p hpm
    rcases List.mem_append.1 hpm with hpm | hpm
    · obtain ⟨p1, p2, p3, p4, p5⟩ := hI.ranges p (by simp [hf, hpm])
      refine ⟨p1, p2, p3, p4, fun k l j hk hl hj => ?_⟩
      rw [hout k (hrest p hpm k hk), hout l (hrest p hpm l hl)]
      exact p5 k l j hk hl hj
    · obtain ⟨p1, p2, p3, p4, p5⟩ := hp p hpm
      refine ⟨p1, by omega, by omega, p4, fun k l j hk hl hj => ?_⟩
      have ik : InFrame e.pa f k := ⟨by omega, by omega⟩
      have il : InFrame e.pa f l := ⟨by omega, by omega⟩
      rw [hin k ik, hin l il]
      refine p5 _ _ j ?_ ?_ hj
      · rwa [Nat.add_sub_cancel' ik.1]
      · rwa [Nat.add_sub_cancel' il.1]
  · rw [e1, hf', List.pairwise_append]
    have h0 := hI.apart
    rw [hf, List.pairwise_append] at h0
    refine ⟨h0.1, ha, fun p hpm q hq k ⟨h1, h2⟩ => ?_⟩
    obtain ⟨_, q2, q3, _, _⟩ := hp q hq
    exact hrest p hpm k h1 ⟨by omega, by omega⟩

/-- A range sorted in one step needs no frame any more. -/
theorem SubstringInv.sortRange {block : List Byte} {d : Nat} {e e' : Engine} {pa : List Word} {f : Frame}
    (hI : SubstringInv block d e pa) (hf : framesOf e = framesOf e' ++ [f])
    (he : e'.pa = e.pa ∧ e'.sorted = e.sorted ∧ e'.taken = e.taken) :
    SubstringInv block d e' (onRange (frameRange e.pa f).1 (frameRange e.pa f).2 (sortByPrefix block d) pa) := by
  refine hI.reorder (parts := []) hf (by simp) he (sortByPrefix_perm _ _ _) (by simp) List.Pairwise.nil
    fun k l hkl hl => .inl ?_
  have h1 := List.pairwise_iff_getElem.1 (sortByPrefix_pairwise block d (rangeEntries (frameRange e.pa f) pa))
  have hlen : (sortByPrefix block d (rangeEntries (frameRange e.pa f) pa)).length = (frameRange e.pa f).2 := by
    rw [(sortByPrefix_perm _ _ _).length_eq]
    exact rangeEntries_length (le_trans (hI.ranges f (by simp [hf])).2.2.1 hI.cursors.2)
  rw [List.getD_eq_getElem _ _ (by omega), List.getD_eq_getElem _ _ (by omega)]
  exact h1 k l (by omega) (by omega) hkl

theorem partition3_length (key : Word → Nat) (v : Nat) (xs : List Word) :
    xs.countP (fun x => decide (key x < v)) + xs.countP (fun x => decide (key x = v)) +
      xs.countP (fun x => decide (v < key x)) = xs.length := by
  have := (partition3_perm key v xs).length_eq
  simp only [partition3, List.length_append, ← List.countP_eq_length_filter] at this
  omega

/-- Where a partition has the parts. -/
theorem partition3_getD (key : Word → Nat) (v : Nat) (xs : List Word) {k : Nat} (hk : k < xs.length) :
    (partition3 key v xs).getD k 0#32 ∈ xs ∧
    (key ((partition3 key v xs).getD k 0#32) < v ↔ k < xs.countP (fun x => decide (key x < v))) ∧
    (key ((partition3 key v xs).getD k 0#32) = v ↔ xs.countP (fun x => decide (key x < v)) ≤ k ∧
      k < xs.countP (fun x => decide (key x < v)) + xs.countP (fun x => decide (key x = v))) := by
  have hl := partition3_length key v xs
  have hp := partition3_perm key v xs
  have hm : ∀ {p : Word → Bool} {j : Nat}, j < (xs.filter p).length → (xs.filter p).getD j 0#32 ∈ xs.filter p := by
    intro p j hj
    rw [List.getD_eq_getElem _ _ hj]
    exact List.getElem_mem _
  refine ⟨?_, ?_⟩
  · rw [← hp.mem_iff, List.getD_eq_getElem _ _ (by rw [hp.length_eq]; exact hk)]
    exact List.getElem_mem _
  simp only [List.countP_eq_length_filter] at hl ⊢
  unfold partition3
  rcases Nat.lt_or_ge k (xs.filter (fun x => decide (key x < v))).length with h1 | h1
  · rw [List.getD_append _ _ _ _ h1]
    have := (List.mem_filter.1 (hm h1)).2
    simp only [decide_eq_true_eq] at this
    omega
  · rw [List.getD_append_right _ _ _ _ h1]
    rcases Nat.lt_or_ge (k - (xs.filter (fun x => decide (key x < v))).length)
      (xs.filter (fun x => decide (key x = v))).length with h2 | h2
    · rw [List.getD_append _ _ _ _ h2]
      have := (List.mem_filter.1 (hm h2)).2
      simp only [decide_eq_true_eq] at this
      omega
    · rw [List.getD_append_right _ _ _ _ h2]
      have := (List.mem_filter.1 (hm (p := fun x => decide (v < key x))
        (j := k - (xs.filter (fun x => decide (key x < v))).length - (xs.filter (fun x => decide (key x = v))).length)
        (by omega))).2
      simp only [decide_eq_true_eq] at this
      omega

/-- The entries of a frame agree on the bytes before its depth. -/
theorem SubstringInv.range_agrees {block : List Byte} {d : Nat} {e : Engine} {pa : List Word} {f : Frame}
    (hI : SubstringInv block d e pa) (hf : f ∈ framesOf e) {x y : Word} (hx : x ∈ rangeEntries (frameRange e.pa f) pa)
    (hy : y ∈ rangeEntries (frameRange e.pa f) pa) {j : Nat} (hj : j < f.depth.toNat) :
    byteAt block j (entryPos x) = byteAt block j (entryPos y) := by
  obtain ⟨r1, r2, r3, r4, r5⟩ := hI.ranges f hf
  have hlen := rangeEntries_length (le_trans r3 hI.cursors.2)
  have key : ∀ z ∈ rangeEntries (frameRange e.pa f) pa, ∃ k, InFrame e.pa f k ∧ z = pa.getD k 0#32 := by
    intro z hz
    obtain ⟨i, hi, h2⟩ := List.mem_iff_getElem.1 hz
    rw [hlen] at hi
    refine ⟨(frameRange e.pa f).1 + i, ⟨by omega, by omega⟩, ?_⟩
    rw [← rangeEntries_getD hi, ← h2, List.getD_eq_getElem]
  obtain ⟨k, hk, rfl⟩ := key x hx
  obtain ⟨l, hl, rfl⟩ := key y hy
  exact r5 k l j hk hl hj

/-- A multikey-quicksort partition of the range of the top frame. -/
theorem SubstringInv.multikeyStep {block : List Byte} {d free : Nat} {w v : SortWork} {f : Frame} {e : Engine}
    (hI : SubstringInv block d w.engine w.pa) (hs : w.engine.ssize ≤ 64) (hn : block.length < 2 ^ 32)
    (hd : d ≤ block.length) (hpos : ∀ x ∈ w.pa, entryPos x < block.length) (hpop : popFrame w.engine = some (f, e))
    (h : multikeyStep block d free f e w = some v) : SubstringInv block d v.engine v.pa := by
  obtain ⟨p1, p2, p3⟩ := popFrame_frames hpop hs
  have hpa : e.pa = w.engine.pa := by rw [p1]
  obtain ⟨e', he', rfl⟩ := Option.map_eq_some_iff.1 h
  obtain ⟨q1, q2, -, -⟩ := pushFrames_frames he' (by simp; omega)
  rw [show framesOf { e with method := SortMethod.multikey } = framesOf e from rfl] at q2
  have hf : f ∈ framesOf w.engine := by simp [p2]
  obtain ⟨r1, r2, r3, r4, r5⟩ := hI.ranges f hf
  have hlen := rangeEntries_length (le_trans r3 hI.cursors.2)
  have hagree : ∀ x ∈ rangeEntries (frameRange w.engine.pa f) w.pa, ∀ y ∈ rangeEntries (frameRange w.engine.pa f) w.pa,
      ∀ j, j < f.depth.toNat → byteAt block j (entryPos x) = byteAt block j (entryPos y) :=
    fun x hx y hy j hj => hI.range_agrees hf hx hy hj
  have hpos' : ∀ x ∈ rangeEntries (frameRange w.engine.pa f) w.pa, entryPos x < block.length := fun x hx =>
    hpos x (List.mem_of_mem_drop (List.mem_of_mem_take hx))
  have hc : (frameRange w.engine.pa f).2 = f.last.toNat + 1 - f.first.toNat := rfl
  have ha : (frameRange w.engine.pa f).1 = f.first.toNat - w.engine.pa.base := rfl
  have hlast := f.last.isLt
  have hfirst := f.first.isLt
  have hc1 : e'.pa = w.engine.pa := by rw [show e'.pa = e.pa by rw [q1], hpa]
  have hc2 : e'.sorted = w.engine.sorted := by rw [show e'.sorted = e.sorted by rw [q1], show e.sorted = w.engine.sorted by rw [p1]]
  have hc3 : e'.taken = w.engine.taken := by rw [show e'.taken = e.taken by rw [q1], show e.taken = w.engine.taken by rw [p1]]
  clear q1 p1
  simp only [hpa] at q2 ⊢
  generalize hxs : rangeEntries (frameRange w.engine.pa f) w.pa = xs at *
  generalize hkey : byteKey block f.depth.toNat = key at *
  generalize hv : key (pivotEntry free xs) = v at *
  have hget := fun k (hk : k < xs.length) => partition3_getD key v xs hk
  have hsum := partition3_length key v xs
  generalize hb : xs.countP (fun x => decide (key x < v)) = nb at *
  generalize hl : xs.countP (fun x => decide (key x = v)) = ne at *
  generalize hab : xs.countP (fun x => decide (v < key x)) = na at *
  have hlt : ∀ x ∈ xs, ∀ y ∈ xs, key x < key y → PrefixLe block d x y := by
    intro x hx y hy hxy
    refine lexLt_asymm ((prefixBefore_iff hd (hpos' x hx) (hpos' y hy)).2
      ⟨f.depth.toNat, r4, fun j hj => hagree x hx y hy j hj, ?_⟩)
    rw [← hkey] at hxy
    exact hxy
  have hdepth : f.depth.toNat + 1 < d → (f.depth + 1#32).toNat = f.depth.toNat + 1 := by
    intro h'
    rw [BitVec.toNat_add]
    simp only [BitVec.toNat_ofNat]
    omega
  have hlevel : ∀ x ∈ xs, ∀ y ∈ xs, key x = key y → ∀ j, j < f.depth.toNat + 1 →
      byteAt block j (entryPos x) = byteAt block j (entryPos y) := by
    intro x hx y hy hxy j hj
    rcases Nat.lt_or_ge j f.depth.toNat with h1 | h1
    · exact hagree x hx y hy j h1
    · obtain rfl : j = f.depth.toNat := by omega
      rw [← hkey] at hxy
      exact BitVec.eq_of_toNat_eq hxy
  have hparts : ∀ p ∈ splitFrames d f nb ne na,
      (p.depth = f.depth ∧ frameRange w.engine.pa p = ((frameRange w.engine.pa f).1, nb) ∧ p.first = f.first) ∨
      (p.depth = f.depth + 1#32 ∧ frameRange w.engine.pa p = ((frameRange w.engine.pa f).1 + nb, ne) ∧
        f.depth.toNat + 1 < d ∧ p.first.toNat = f.first.toNat + nb) ∨
      (p.depth = f.depth ∧ frameRange w.engine.pa p = ((frameRange w.engine.pa f).1 + nb + ne, na) ∧
        p.first.toNat = f.first.toNat + nb + ne) := by
    intro p hp
    simp only [splitFrames, List.mem_append] at hp
    rcases hp with hp | hp | hp
    · obtain ⟨m1, m2, m3, m4, m5, m6⟩ := mem_partFrame (pa := w.engine.pa) hp (by omega)
      exact .inl ⟨m4, by rw [m6, ha], BitVec.eq_of_toNat_eq m2⟩
    · have hlt : (if f.depth.toNat + 1 < d then ne else 0) ≤ ne := by split <;> omega
      obtain ⟨m1, m2, m3, m4, m5, m6⟩ := mem_partFrame (pa := w.engine.pa) hp (by omega)
      split at m1
      · next hd' =>
        rw [if_pos hd'] at m6
        exact .inr (.inl ⟨m4, by rw [m6, ha]; congr 1; omega, hd', m2⟩)
      · omega
    · obtain ⟨m1, m2, m3, m4, m5, m6⟩ := mem_partFrame (pa := w.engine.pa) hp (by omega)
      exact .inr (.inr ⟨m4, by rw [m6, ha]; congr 1; omega, m2⟩)
  refine hI.reorder (g := partition3 key v) p2 q2 ⟨hc1, hc2, hc3⟩
    (partition3_perm key v _) ?_ ?_ ?_
  · rw [hxs]
    intro p hp
    have side : ∀ k l, k < xs.length → l < xs.length → ∀ j, j < f.depth.toNat →
        byteAt block j (entryPos ((partition3 key v xs).getD k 0#32)) =
          byteAt block j (entryPos ((partition3 key v xs).getD l 0#32)) := fun k l hk hl j hj =>
      hagree _ (hget k hk).1 _ (hget l hl).1 j hj
    rcases hparts p hp with ⟨h1, h2, h3⟩ | ⟨h1, h2, h3, h4⟩ | ⟨h1, h2, h3⟩
    · refine ⟨by rw [h3]; exact r1, by rw [h2], by rw [h2]; simp only; omega, by rw [h1]; exact r4, ?_⟩
      intro k l j hk hl hj
      simp only [InFrame, h2] at hk hl
      rw [h1] at hj
      exact side k l (by omega) (by omega) j hj
    · refine ⟨by omega, by rw [h2]; simp only; omega, by rw [h2]; simp only; omega, by rw [h1, hdepth h3]; exact h3, ?_⟩
      intro k l j hk hl hj
      simp only [InFrame, h2] at hk hl
      rw [h1, hdepth h3] at hj
      refine hlevel _ (hget k (by omega)).1 _ (hget l (by omega)).1 ?_ j hj
      rw [((hget k (by omega)).2.2).2 (by omega), ((hget l (by omega)).2.2).2 (by omega)]
    · refine ⟨by omega, by rw [h2]; simp only; omega, by rw [h2]; simp only; omega, by rw [h1]; exact r4, ?_⟩
      intro k l j hk hl hj
      simp only [InFrame, h2] at hk hl
      rw [h1] at hj
      exact side k l (by omega) (by omega) j hj
  · have part : ∀ {first size : Nat} {depth limit : BitVec 32}, (partFrame first size depth limit).Pairwise
        (fun p q => ∀ k, ¬ (InFrame w.engine.pa p k ∧ InFrame w.engine.pa q k)) := by
      intro first size depth limit
      unfold partFrame
      split <;> simp
    simp only [splitFrames, List.pairwise_append]
    have hle : (if f.depth.toNat + 1 < d then ne else 0) ≤ ne := by split <;> omega
    refine ⟨part, ⟨part, part, ?_⟩, ?_⟩
    · intro p hp q hq k ⟨hk1, hk2⟩
      have m := (mem_partFrame (pa := w.engine.pa) hp (by omega)).2.2.2.2.2
      have m' := (mem_partFrame (pa := w.engine.pa) hq (by omega)).2.2.2.2.2
      simp only [InFrame, m, m'] at hk1 hk2
      omega
    · intro p hp q hq k ⟨hk1, hk2⟩
      have m := (mem_partFrame (pa := w.engine.pa) hp (by omega)).2.2.2.2.2
      rcases List.mem_append.1 hq with hq | hq
      · have m' := (mem_partFrame (pa := w.engine.pa) hq (by omega)).2.2.2.2.2
        simp only [InFrame, m, m'] at hk1 hk2
        omega
      · have m' := (mem_partFrame (pa := w.engine.pa) hq (by omega)).2.2.2.2.2
        simp only [InFrame, m, m'] at hk1 hk2
        omega
  · rw [hxs]
    intro k l hkl hl'
    have gk := hget k (by omega)
    have gl := hget l (by omega)
    rcases Nat.lt_or_ge (key ((partition3 key v xs).getD k 0#32)) (key ((partition3 key v xs).getD l 0#32)) with hk' | hk'
    · exact .inl (hlt _ gk.1 _ gl.1 hk')
    · rcases Nat.lt_or_ge l nb with c1 | c1
      · obtain ⟨p, hp, hr⟩ := partFrame_covers w.engine.pa (first := f.first.toNat) (size := nb) f.depth (f.limit - 1#32) (by omega) (by omega)
        refine .inr ⟨p, by simp [splitFrames, hp], ?_⟩
        simp only [InFrame, hr]
        omega
      · rcases Nat.lt_or_ge l (nb + ne) with c2 | c2
        · have kl := gl.2.2.2 ⟨c1, c2⟩
          have kk : key ((partition3 key v xs).getD k 0#32) = v := by
            by_contra hne
            have := gk.2.1
            have := gk.2.2
            omega
          by_cases hd' : f.depth.toNat + 1 < d
          · have := gk.2.2.1 kk
            obtain ⟨p, hp, hr⟩ := partFrame_covers w.engine.pa (first := f.first.toNat + nb) (size := ne) (f.depth + 1#32) f.limit (by omega) (by omega)
            refine .inr ⟨p, by simp [splitFrames, hd', hp], ?_⟩
            simp only [InFrame, hr]
            omega
          · left
            have := hlevel _ gl.1 _ gk.1 (by rw [kk, kl])
            rw [PrefixLe, Bool.eq_false_iff, ne_eq, prefixBefore_iff hd (hpos' _ gl.1) (hpos' _ gk.1)]
            rintro ⟨i, hi, -, hlt'⟩
            rw [this i (by omega)] at hlt'
            exact lt_irrefl _ hlt'
        · have hk2 : nb + ne ≤ k := by
            by_contra hne
            have := gk.2.1
            have := gk.2.2
            have := gl.2.1
            have := gl.2.2
            omega
          obtain ⟨p, hp, hr⟩ := partFrame_covers w.engine.pa (first := f.first.toNat + nb + ne) (size := na) f.depth (f.limit - 1#32) (by omega) (by omega)
          refine .inr ⟨p, by simp [splitFrames, hp], ?_⟩
          simp only [InFrame, hr]
          omega

/-! ## Blocks and their merges -/

/-- Merging the sorted block into the run before it. -/
theorem SubstringInv.mergeBlock {block : List Byte} {d : Nat} {w : SortWork} (hI : SubstringInv block d w.engine w.pa)
    (h0 : w.engine.ssize = 0) :
    SubstringInv block d (mergeBlock block d w).engine (mergeBlock block d w).pa := by
  have hf := framesOf_zero h0
  have hrun : ((w.pa.take w.engine.taken).drop w.engine.sorted).Pairwise (PrefixLe block d) := by
    rw [List.pairwise_iff_getElem]
    intro k l hk hl hkl
    simp only [List.length_drop, List.length_take] at hk hl
    rcases hI.pending (w.engine.sorted + k) (w.engine.sorted + l) (by omega) (by omega) (by omega) with h | ⟨p, hp, _⟩
    · rw [List.getD_eq_getElem _ _ (by omega), List.getD_eq_getElem _ _ (by omega)] at h
      simpa [List.getElem_drop, List.getElem_take] using h
    · simp [hf] at hp
  have hm := fun method => mergeBy_pairwise method
    (show ((w.pa.take w.engine.taken).take w.engine.sorted).Pairwise (PrefixLe block d) by
      rw [List.take_take, Nat.min_eq_left hI.cursors.1]
      exact hI.run) hrun
  have hml : ∀ method, (mergeBy method block d ((w.pa.take w.engine.taken).take w.engine.sorted)
      ((w.pa.take w.engine.taken).drop w.engine.sorted)).length = w.engine.taken := by
    intro method
    rw [(mergeBy_perm _ _ _ _ _).length_eq, List.take_append_drop, List.length_take,
      Nat.min_eq_left hI.cursors.2]
  have hlen := hI.cursors.2
  unfold Machine.mergeBlock
  simp only
  split
  · next hz =>
    refine ⟨⟨le_refl _, hlen⟩, ?_, fun k l h1 h2 h3 => ?_, by simp [framesOf, h0], by simp [framesOf, h0]⟩
    · rw [hz] at hrun
      exact hrun
    · simp only at h1 h3
      omega
  · have hr : onRange 0 w.engine.taken (fun l => mergeBy (mergeMethod w.engine.buffer.len w.engine.taken) block d
        (l.take w.engine.sorted) (l.drop w.engine.sorted)) w.pa =
        mergeBy (mergeMethod w.engine.buffer.len w.engine.taken) block d
          ((w.pa.take w.engine.taken).take w.engine.sorted) ((w.pa.take w.engine.taken).drop w.engine.sorted) ++
          w.pa.drop w.engine.taken := by
      simp [onRange]
    refine ⟨⟨le_refl _, ?_⟩, ?_, fun k l h1 h2 h3 => ?_, by simp [framesOf, h0], by simp [framesOf, h0]⟩
    · show w.engine.taken ≤ _
      rw [hr, List.length_append, hml]
      omega
    · rw [hr, List.take_append_of_le_length (by rw [hml]), List.take_of_length_le (by rw [hml])]
      exact hm _
    · simp only at h1 h3
      omega

/-- The next block taken up: all of it in one frame. -/
theorem SubstringInv.takeBlock {block : List Byte} {d : Nat} {w v : SortWork} (hI : SubstringInv block d w.engine w.pa)
    (h0 : w.engine.ssize = 0) (hs : ¬ w.engine.sorted < w.engine.taken) (hd : 2 ≤ w.pa.length → 0 < d)
    (hb : w.engine.pa.base + w.pa.length ≤ 2 ^ 32) (h : takeBlock w = some v) : SubstringInv block d v.engine v.pa := by
  obtain ⟨c1, c2⟩ := hI.cursors
  obtain ⟨e, he, rfl⟩ := Option.map_eq_some_iff.1 h
  obtain ⟨q1, q2, -, -⟩ := pushFrames_frames he (by omega)
  rw [framesOf_zero h0, List.nil_append] at q2
  have e1 : e.pa = w.engine.pa := by rw [q1]
  have e2 : e.sorted = w.engine.sorted := by rw [q1]
  have e3 : e.taken = w.engine.taken := by rw [q1]
  clear q1
  have hk : min Config.ssBlockSize (w.pa.length - w.engine.taken) ≤ w.pa.length - w.engine.taken := Nat.min_le_right _ _
  generalize min Config.ssBlockSize (w.pa.length - w.engine.taken) = k at *
  have q3 : framesOf { e with taken := e.taken + k } = framesOf e := rfl
  have e4 : ({ e with taken := e.taken + k } : Engine).taken = w.engine.taken + k := congrArg (· + k) e3
  have e5 : ({ e with taken := e.taken + k } : Engine).pa = w.engine.pa := e1
  have e6 : ({ e with taken := e.taken + k } : Engine).sorted = w.engine.sorted := e2
  generalize ({ e with taken := e.taken + k } : Engine) = g at *
  rw [q2] at q3
  refine ⟨⟨by simp only; omega, by simp only; omega⟩, by simpa only [e6] using hI.run, ?_, ?_, ?_⟩
  · simp only [e4, e5, e6]
    intro i l hi hil hl
    obtain ⟨p, hp, hr⟩ := partFrame_covers w.engine.pa (first := w.engine.pa.base + w.engine.taken) (size := k) 0#32
      ((Config.ssDepthLimit k).setWidth 32) (by omega) (by omega)
    refine .inr ⟨p, by rw [q3]; exact hp, ?_⟩
    simp only [InFrame, hr]
    omega
  · simp only [e4, e5, e6, q3]
    intro p hp
    obtain ⟨m1, m2, m3, m4, m5, m6⟩ := mem_partFrame (pa := w.engine.pa) hp (by omega)
    refine ⟨by omega, by rw [m6]; simp only; omega, by rw [m6]; simp only; omega, ?_, ?_⟩
    · rw [m4]
      exact hd (by omega)
    · rw [m4]
      simp
  · simp only [q3]
    unfold partFrame
    split <;> simp

/-- The end of the substring sort: PA is in the order of its substrings. -/
theorem SubstringInv.done {block : List Byte} {d : Nat} {w : SortWork} (hI : SubstringInv block d w.engine w.pa)
    (h : substringsDone w = true) : w.pa.Pairwise (PrefixLe block d) := by
  simp only [substringsDone, decide_eq_true_eq] at h
  have := hI.run
  have := hI.cursors
  rwa [List.take_of_length_le (by omega)] at *

/-- PA as CLASSIFY leaves it: nothing is taken up yet. -/
theorem SubstringInv.start (block : List Byte) (d : Nat) {e : Engine} (pa : List Word) (h0 : e.ssize = 0)
    (hs : e.sorted = 0) (ht : e.taken = 0) : SubstringInv block d e pa :=
  ⟨⟨by omega, by omega⟩, by simp [hs], by intro k l _ _ h; omega, by simp [framesOf, h0], by simp [framesOf, h0]⟩

theorem substringDepth_le (n : Nat) (ps : List Nat) : substringDepth n ps ≤ n := Nat.min_le_left _ _

theorem le_foldr_max {l : List Nat} {x : Nat} (h : x ∈ l) : x ≤ l.foldr max 0 := by
  induction l with
  | nil => simp at h
  | cons y l ih =>
    simp only [List.foldr_cons]
    rcases List.mem_cons.1 h with rfl | h
    · exact Nat.le_max_left _ _
    · exact le_trans (ih h) (Nat.le_max_right _ _)

/-- The substring reaches to the next B* suffix. -/
theorem le_substringDepth {n : Nat} {ps : List Nat} {p : Nat} (h : p ∈ ps) (hn : aheadDistance n ps 1 p ≤ n) :
    aheadDistance n ps 1 p ≤ substringDepth n ps := by
  have := le_foldr_max (List.mem_map_of_mem (f := aheadDistance n ps 1) h)
  unfold substringDepth
  omega

/-- A step of the substring sort keeps what it has done so far. -/
theorem SubstringInv.step {block : List Byte} {w v : SortWork} {n free : Nat}
    (hI : SubstringInv block (substringDepth n (textOrder w.pa)) w.engine w.pa) (hn : block.length = n)
    (hn' : n < 2 ^ 31) (hs : w.engine.ssize ≤ 64) (hpos : ∀ x ∈ w.pa, entryPos x < n)
    (hb : w.engine.pa.base + w.pa.length ≤ n + 1)
    (h : substringStep block n free w = some v ∨ v = substringSpill block n w) :
    SubstringInv block (substringDepth n (textOrder w.pa)) v.engine v.pa := by
  have sorted : ∀ {method : SortMethod} {f : Frame} {e : Engine}, popFrame w.engine = some (f, e) →
      SubstringInv block (substringDepth n (textOrder w.pa))
        (Machine.sortRange block (substringDepth n (textOrder w.pa)) method f e w).engine
        (Machine.sortRange block (substringDepth n (textOrder w.pa)) method f e w).pa := by
    intro method f e hpop
    obtain ⟨p1, p2, p3⟩ := popFrame_frames hpop hs
    have e1 : e.pa = w.engine.pa := by rw [p1]
    have e2 : e.sorted = w.engine.sorted := by rw [p1]
    have e3 : e.taken = w.engine.taken := by rw [p1]
    have := hI.sortRange (e' := { e with method := method }) p2 ⟨e1, e2, e3⟩
    rw [← e1] at this
    exact this
  rcases h with h | rfl
  · unfold substringStep at h
    simp only at h
    split at h
    · next hpop =>
      have h0 := (popFrame_none hs).1 hpop
      split at h
      · cases h
        exact hI.mergeBlock h0
      · next hlt =>
        refine hI.takeBlock h0 hlt (fun h2 => ?_) (by omega) h
        have hx := hpos _ (List.getElem_mem (show 0 < w.pa.length by omega))
        unfold substringDepth
        omega
    · next f e hpop =>
      split at h
      · exact hI.multikeyStep hs (by omega) (hn ▸ substringDepth_le _ _) (by simpa only [hn] using hpos) hpop h
      · cases h
        exact sorted hpop
  · unfold substringSpill
    split
    · exact hI
    · next f e hpop => exact sorted hpop
end Sys2Proof.Machine
end

