-- ==== Sys2Proof/Laws/Work.lean ====
section
/-! SUPPORT. What a step of the sort may change in its work, and that it stays inside the bounds of the hidden state
(10_state.md R40, 42_bwt_engine.md R174-R178). -/

namespace Sys2Proof.Machine

/-- The legal frames of the stack, by place or as a list. -/
theorem framesOk_iff {n : Nat} {e : Engine} : (∀ k (h : k < 64), k < e.ssize → frameOk n e.stack[k] = true) ↔
    ∀ f ∈ framesOf e, frameOk n f = true := by
  constructor
  · intro h f hf
    obtain ⟨k, h64, hk, rfl⟩ := mem_framesOf.1 hf
    exact h k h64 hk
  · exact fun h k h64 hk => h _ (mem_framesOf.2 ⟨k, h64, hk, rfl⟩)

theorem BoundsInv.frameOk_of_mem {e : Engine} (h : BoundsInv e) {f : Frame} (hf : f ∈ framesOf e) :
    frameOk e.nLat.toNat f = true := framesOk_iff.1 h.frames_ok f hf

/-- The engine's bounds hold on where the regions stay and the stack and the depth stay inside theirs. -/
theorem BoundsInv.of_stack {e g : Engine} (h : BoundsInv e)
    (only : g = { e with
      stack := g.stack, ssize := g.ssize, budget := g.budget, method := g.method, depth := g.depth, sorted := g.sorted,
      taken := g.taken })
    (hs : g.ssize ≤ 64) (hf : ∀ f ∈ framesOf g, frameOk e.nLat.toNat f = true) (hd : g.depth ≤ max 1 e.m) :
    BoundsInv g := by
  have e1 : g.nLat = e.nLat := by rw [only]
  have e2 : g.pa = e.pa := by rw [only]
  have e3 : g.isa = e.isa := by rw [only]
  have e4 : g.buffer = e.buffer := by rw [only]
  have e5 : g.m = e.m := by rw [only]
  exact ⟨hs, by rw [e1]; exact framesOk_iff.2 hf, by rw [e1, e2, e3, e4]; exact h.regions,
    by rw [e2, e3, e5]; exact h.entries, by rw [e1, e5]; exact h.m_le, by rw [e5]; exact hd⟩

/-- The frame of a part inside `SA[0..n]` is legal. -/
theorem partFrame_ok {n first size : Nat} {depth limit : BitVec 32} (hn : n < 2 ^ 24) (hb : first + size ≤ n + 1)
    (hd : depth.toNat ≤ n) (hl : -1 ≤ limit.toInt) : ∀ f ∈ partFrame first size depth limit, frameOk n f = true := by
  intro f hf
  obtain ⟨m1, m2, m3, m4, m5, -⟩ := mem_partFrame (pa := ⟨0, 0⟩) hf (by omega)
  simp only [frameOk, decide_eq_true_eq, m4, m5]
  exact ⟨by omega, by omega, hd, hl⟩

/-- A frame's recursion limit starts at 0 or above. -/
theorem freshLimit_ok (x : BitVec 31) : 0 ≤ (x.setWidth 32).toInt := by
  rw [BitVec.toInt_eq_toNat_of_lt (by simp; omega)]
  omega

/-- What a step of the sort does to its work: where the run stands and what stands where it keeps, PA is at most
rearranged, and the bounds hold on. -/
structure SortStep (w v : SortWork) : Prop where
  only      : v.engine = { w.engine with
    stack := v.engine.stack, ssize := v.engine.ssize, budget := v.engine.budget, method := v.engine.method,
    depth := v.engine.depth, sorted := v.engine.sorted, taken := v.engine.taken }
  positions : (v.pa.map entryPos).Perm (w.pa.map entryPos)
  isaLength : w.isa.length = w.pa.length → v.isa.length = w.pa.length
  bounds    : w.pa.length = w.engine.pa.len → BoundsInv w.engine → BoundsInv v.engine

theorem SortStep.paLength {w v : SortWork} (h : SortStep w v) : v.pa.length = w.pa.length := by
  simpa using h.positions.length_eq

/-- A step that leaves the stack and the depth alone. -/
theorem sortStep_of_stackKept {w v : SortWork}
    (only : v.engine = { w.engine with
      budget := v.engine.budget, method := v.engine.method, sorted := v.engine.sorted, taken := v.engine.taken })
    (hp : (v.pa.map entryPos).Perm (w.pa.map entryPos)) (hi : w.isa.length = w.pa.length → v.isa.length = w.pa.length) :
    SortStep w v := by
  have e1 : v.engine.stack = w.engine.stack := by rw [only]
  have e2 : v.engine.ssize = w.engine.ssize := by rw [only]
  have e3 : v.engine.depth = w.engine.depth := by rw [only]
  refine ⟨by rw [e1, e2, e3]; exact only, hp, hi, fun _ hb => ?_⟩
  refine hb.of_stack (by rw [e1, e2, e3]; exact only) (by rw [e2]; exact hb.stack_depth) (fun f hf => ?_)
    (by rw [e3]; exact hb.depth_le)
  simp only [framesOf, e1, e2] at hf
  exact hb.frameOk_of_mem hf

/-- A step that takes the top frame off the stack and pushes legal frames, if any. -/
theorem sortStep_of_pop {w v : SortWork} {f : Frame} {e e' : Engine} {fs : List Frame} {budget : Budget}
    {method : SortMethod} (hpop : popFrame w.engine = some (f, e))
    (hpush : pushFrames fs { e with budget := budget, method := method } = some e')
    (hv : v.engine = { e' with method := v.engine.method })
    (hp : (v.pa.map entryPos).Perm (w.pa.map entryPos)) (hi : w.isa.length = w.pa.length → v.isa.length = w.pa.length)
    (hok : w.pa.length = w.engine.pa.len → BoundsInv w.engine → ∀ g ∈ fs, frameOk w.engine.nLat.toNat g = true) :
    SortStep w v := by
  have c1 : e' = { w.engine with stack := e'.stack, ssize := e'.ssize, budget := budget, method := method } := by
    rw [pushFrames_only hpush, popFrame_only hpop]
  have c2 : v.engine = { w.engine with
      stack := v.engine.stack, ssize := v.engine.ssize, budget := v.engine.budget, method := v.engine.method } := by
    rw [hv, c1]
  have c3 : v.engine.depth = w.engine.depth := by rw [c2]
  have c4 : v.engine.sorted = w.engine.sorted := by rw [c2]
  have c5 : v.engine.taken = w.engine.taken := by rw [c2]
  have only : v.engine = { w.engine with
      stack := v.engine.stack, ssize := v.engine.ssize, budget := v.engine.budget, method := v.engine.method,
      depth := v.engine.depth, sorted := v.engine.sorted, taken := v.engine.taken } := by
    rw [c3, c4, c5]
    exact c2
  refine ⟨only, hp, hi, fun hl hb => ?_⟩
  obtain ⟨p1, p2, p3⟩ := popFrame_frames hpop hb.stack_depth
  have hs : w.engine.ssize ≤ 64 := hb.stack_depth
  obtain ⟨q1, q2, q3, q4⟩ := pushFrames_frames hpush (by simp only; omega)
  refine hb.of_stack only (by rw [hv]; exact q4) (fun g hg => ?_) (by rw [c3]; exact hb.depth_le)
  have hg : g ∈ framesOf e' := by rw [hv] at hg; exact hg
  rw [q2] at hg
  rcases List.mem_append.1 hg with hg | hg
  · exact hb.frameOk_of_mem (by rw [p2]; exact List.mem_append_left _ hg)
  · exact hok hl hb g hg

/-- A step that pushes legal frames onto an empty stack. -/
theorem sortStep_of_push {w v : SortWork} {e' : Engine} {fs : List Frame} {taken : Nat}
    (hpush : pushFrames fs { w.engine with taken := taken } = some e')
    (hv : v.engine = { e' with taken := v.engine.taken })
    (hp : (v.pa.map entryPos).Perm (w.pa.map entryPos)) (hi : w.isa.length = w.pa.length → v.isa.length = w.pa.length)
    (hok : w.pa.length = w.engine.pa.len → BoundsInv w.engine → ∀ g ∈ fs, frameOk w.engine.nLat.toNat g = true) :
    SortStep w v := by
  have c1 : e' = { w.engine with stack := e'.stack, ssize := e'.ssize, taken := taken } := pushFrames_only hpush
  have c2 : v.engine =
      { w.engine with stack := v.engine.stack, ssize := v.engine.ssize, taken := v.engine.taken } := by
    rw [hv, c1]
  have c3 : v.engine.depth = w.engine.depth := by rw [c2]
  have c4 : v.engine.sorted = w.engine.sorted := by rw [c2]
  have c5 : v.engine.budget = w.engine.budget := by rw [c2]
  have c6 : v.engine.method = w.engine.method := by rw [c2]
  have only : v.engine = { w.engine with
      stack := v.engine.stack, ssize := v.engine.ssize, budget := v.engine.budget, method := v.engine.method,
      depth := v.engine.depth, sorted := v.engine.sorted, taken := v.engine.taken } := by
    rw [c3, c4, c5, c6]
    exact c2
  refine ⟨only, hp, hi, fun hl hb => ?_⟩
  have hs : w.engine.ssize ≤ 64 := hb.stack_depth
  obtain ⟨q1, q2, q3, q4⟩ := pushFrames_frames hpush hs
  refine hb.of_stack only (by rw [hv]; exact q4) (fun g hg => ?_) (by rw [c3]; exact hb.depth_le)
  have hg : g ∈ framesOf e' := by rw [hv] at hg; exact hg
  rw [q2] at hg
  rcases List.mem_append.1 hg with hg | hg
  · exact hb.frameOk_of_mem hg
  · exact hok hl hb g hg

theorem pushFrames_one {f : Frame} {e g : Engine} (h : pushFrame f e = some g) : pushFrames [f] e = some g := by
  simp [pushFrames, h]

theorem BoundsInv.pa_inside {e : Engine} (h : BoundsInv e) : e.pa.base + e.pa.len ≤ e.nLat.toNat + 1 := by
  have hr := h.regions
  simp only [regionsOk, Bool.and_eq_true, regionInside, decide_eq_true_eq] at hr
  exact hr.1.1.1.1.1

/-- The three keys' counts of a partition. -/
theorem countP_side {α : Type} (key : α → Nat) (v : Nat) (xs : List α) :
    xs.countP (fun x => decide (key x < v)) + xs.countP (fun x => decide (key x = v)) +
      xs.countP (fun x => decide (v < key x)) = xs.length := by
  induction xs with
  | nil => rfl
  | cons x l ih =>
    simp only [List.countP_cons, decide_eq_true_eq, List.length_cons, ← ih]
    split_ifs <;> omega

theorem rangeEntries_length_le (r : Nat × Nat) (pa : List Word) : (rangeEntries r pa).length ≤ r.2 := by
  simp [rangeEntries]

/-- Where the method is a partition the recursion limit is not used up. -/
theorem limit_of_multikey {size : Nat} {limit : BitVec 32} (h : ssMethod size limit = .multikey) : 0 ≤ limit.toInt := by
  unfold ssMethod at h
  split at h
  · cases h
  · split at h
    · cases h
    · omega

theorem limit_step {limit : BitVec 32} (h : 0 ≤ limit.toInt) : (limit - 1#32).toInt = limit.toInt - 1 := by
  have := limit.toInt_lt
  rw [BitVec.toInt_sub, show (1#32).toInt = 1 from rfl, Int.bmod_eq_of_le (by omega) (by omega)]

/-- What a step of the substring sort changes (42_bwt_engine.md R174, R178). -/
theorem substringStep_spec {block : List Byte} {n free : Nat} {w v : SortWork} (hn : n = w.engine.nLat.toNat)
    (h : substringStep block n free w = some v ∨ v = substringSpill block n w) : SortStep w v := by
  subst hn
  have hn := w.engine.nLat.isLt
  have hd := substringDepth_le w.engine.nLat.toNat (textOrder w.pa)
  have sorted : ∀ {f : Frame} {e : Engine} (m : SortMethod), popFrame w.engine = some (f, e) →
      SortStep w (sortRange block (substringDepth w.engine.nLat.toNat (textOrder w.pa)) m f e w) := by
    intro f e m hpop
    exact sortStep_of_pop (fs := []) (budget := e.budget) (method := e.method) hpop rfl rfl
      ((onRange_perm (sortByPrefix_perm block _) _ _ _).map _) id (by simp)
  rcases h with h | rfl
  · unfold substringStep at h
    simp only at h
    split at h
    · next hpop =>
      split at h
      · cases h
        unfold mergeBlock
        simp only
        split
        · exact sortStep_of_stackKept rfl (List.Perm.refl _) id
        · refine sortStep_of_stackKept rfl (List.Perm.map _ ?_) id
          simp only
          refine onRange_perm (fun l => ?_) _ _ _
          have := mergeBy_perm (mergeMethod w.engine.buffer.len w.engine.taken) block
            (substringDepth w.engine.nLat.toNat (textOrder w.pa)) (l.take w.engine.sorted) (l.drop w.engine.sorted)
          rwa [List.take_append_drop] at this
      · unfold takeBlock at h
        obtain ⟨e', he, rfl⟩ := Option.map_eq_some_iff.1 h
        refine sortStep_of_push (taken := w.engine.taken) he rfl (List.Perm.refl _) id (fun hl hb => ?_)
        have hin := hb.pa_inside
        by_cases hlt : w.engine.taken < w.pa.length
        · refine partFrame_ok hn (by omega) (by simp) ?_
          have := freshLimit_ok (Config.ssDepthLimit (min Config.ssBlockSize (w.pa.length - w.engine.taken)))
          omega
        · rw [show w.pa.length - w.engine.taken = 0 by omega]
          simp [partFrame]
    · next f e hpop =>
      split at h
      · next hm =>
        unfold multikeyStep at h
        obtain ⟨e', he, rfl⟩ := Option.map_eq_some_iff.1 h
        refine sortStep_of_pop (budget := e.budget) hpop he rfl ((onRange_perm (partition3_perm _ _) _ _ _).map _) id
          (fun hl hb g hg => ?_)
        have hf : frameOk w.engine.nLat.toNat f = true := by
          obtain ⟨-, p2, -⟩ := popFrame_frames hpop hb.stack_depth
          exact hb.frameOk_of_mem (by simp [p2])
        simp only [frameOk, decide_eq_true_eq] at hf
        obtain ⟨f1, f2, f3, f4⟩ := hf
        have hlim := limit_of_multikey hm
        have hdec := limit_step hlim
        have hlen := rangeEntries_length_le (frameRange e.pa f) w.pa
        have hsize : (frameRange e.pa f).2 = f.last.toNat + 1 - f.first.toNat := rfl
        have hsum := countP_side (byteKey block f.depth.toNat)
          (byteKey block f.depth.toNat (pivotEntry free (rangeEntries (frameRange e.pa f) w.pa)))
          (rangeEntries (frameRange e.pa f) w.pa)
        simp only [splitFrames, List.mem_append] at hg
        rcases hg with hg | hg | hg
        · exact partFrame_ok hn (by omega) f3 (by omega) g hg
        · split at hg
          · next hlt =>
            have hdep : (f.depth + 1#32).toNat = f.depth.toNat + 1 := by
              rw [BitVec.toNat_add]
              simp
              omega
            exact partFrame_ok hn (by omega) (by omega) f4 g hg
          · simp [partFrame] at hg
        · exact partFrame_ok hn (by omega) f3 (by omega) g hg
      · cases h
        exact sorted _ hpop
  · unfold substringSpill
    split
    · exact sortStep_of_stackKept rfl (List.Perm.refl _) id
    · next f e hpop => exact sorted _ hpop

/-- Work on a range that rearranges and remarks its entries rearranges the positions of all. -/
theorem onRange_positions_perm {f : List Word → List Word} (h : ∀ l, ((f l).map entryPos).Perm (l.map entryPos))
    (i k : Nat) (pa : List Word) : ((onRange i k f pa).map entryPos).Perm (pa.map entryPos) := by
  have e : pa.map entryPos = (pa.take i).map entryPos ++
      ((((pa.drop i).take k).map entryPos) ++ ((pa.drop i).drop k).map entryPos) := by
    rw [← List.map_append, ← List.map_append, List.take_append_drop, List.take_append_drop]
  simp only [onRange, List.map_append]
  rw [e]
  exact ((h _).append_right _).append_left _

/-- What a step of the refinement changes (42_bwt_engine.md R175, R176, R178). -/
theorem refinementStep_spec {block : List Byte} {n free : Nat} {w v : SortWork}
    (h : refinementStep block n free w = some v ∨ v = refinementSpill block w) : SortStep w v := by
  have hn := w.engine.nLat.isLt
  have ls : ∀ {f : Frame} {e : Engine} (b : Budget) (m : SortMethod), popFrame w.engine = some (f, e) →
      SortStep w (lsRange block (frameRange e.pa f) { w with engine := { e with budget := b, method := m } }) := by
    intro f e b m hpop
    refine sortStep_of_pop (fs := []) (budget := b) (method := m) hpop rfl rfl ?_ (fun _ => by simp [lsRange]) (by simp)
    simp only [lsRange]
    refine onRange_positions_perm (fun l => ?_) _ _ _
    rw [markAll_positions]
    exact (sortByPrefix_perm block _ l).map _
  rcases h with h | rfl
  · unfold refinementStep at h
    split at h
    · next hpop =>
      split at h
      · next hlt =>
        unfold takeGroup at h
        simp only at h
        split at h
        · cases h
          exact sortStep_of_stackKept rfl
            (onRange_positions_perm (fun l => by rw [markAll_positions]) _ _ _) id
        · split at h
          · cases h
            exact sortStep_of_stackKept rfl (List.Perm.refl _) id
          · obtain ⟨e', he, rfl⟩ := Option.map_eq_some_iff.1 h
            refine sortStep_of_push he rfl (List.Perm.refl _) id (fun hl hb => ?_)
            have hin := hb.pa_inside
            have hd := hb.depth_le
            have hm := hb.m_le
            have hlen := hb.entries.1
            refine partFrame_ok hn (by omega) ?_ ?_
            · simp
              omega
            · have := freshLimit_ok (Config.trDepthLimit (min (w.pa.length - w.engine.taken)
                (max 1 ((textOrder w.pa).countP (fun p => decide (rankAt (textOrder w.pa) w.isa p = w.engine.taken))))))
              omega
      · cases h
        unfold nextRound
        refine ⟨rfl, List.Perm.refl _, id, fun _ hb => hb.of_stack rfl hb.stack_depth
          (fun f hf => hb.frameOk_of_mem hf) ?_⟩
        have := hb.depth_le
        simp only
        split <;> omega
    · next f e hpop =>
      have hfr : BoundsInv w.engine → frameOk w.engine.nLat.toNat f = true := by
        intro hb
        obtain ⟨-, p2, -⟩ := popFrame_frames hpop hb.stack_depth
        exact hb.frameOk_of_mem (by simp [p2])
      unfold refineRange at h
      simp only at h
      split at h
      · cases h
        exact sortStep_of_pop (fs := []) (budget := e.budget) (method := e.method) hpop rfl rfl (List.Perm.refl _) id
          (by simp)
      · split at h
        · cases h
          exact ls _ _ hpop
        · split at h
          · unfold introRange at h
            obtain ⟨e', he, rfl⟩ := Option.map_eq_some_iff.1 h
            refine sortStep_of_pop hpop he rfl ?_ (fun _ => by simp) (fun hl hb g hg => ?_)
            · simp only
              refine onRange_positions_perm (fun l => ?_) _ _ _
              rw [markAlone_positions]
              exact (partition3_perm _ _ l).map _
            · have hf := hfr hb
              simp only [frameOk, decide_eq_true_eq] at hf
              obtain ⟨f1, f2, f3, f4⟩ := hf
              have hlen := rangeEntries_length_le (frameRange e.pa f) w.pa
              have hsize : (frameRange e.pa f).2 = f.last.toNat + 1 - f.first.toNat := rfl
              have hsum := countP_side
                (fun x => aheadRank (textOrder w.pa) w.isa f.depth.toNat (entryPos x))
                (aheadRank (textOrder w.pa) w.isa f.depth.toNat
                  (entryPos (pivotEntry free (rangeEntries (frameRange e.pa f) w.pa))))
                (rangeEntries (frameRange e.pa f) w.pa)
              simp only at hg
              rcases List.mem_append.1 hg with hg | hg
              · exact partFrame_ok hn (by omega) f3 f4 g hg
              · exact partFrame_ok hn (by omega) f3 f4 g hg
          · obtain ⟨e', he, rfl⟩ := Option.map_eq_some_iff.1 h
            refine sortStep_of_pop (fs := [f]) hpop (pushFrames_one he) rfl (List.Perm.refl _) id
              (fun hl hb g hg => ?_)
            rw [List.mem_singleton.1 hg]
            exact hfr hb
  · unfold refinementSpill
    split
    · exact sortStep_of_stackKept rfl (List.Perm.refl _) id
    · next f e hpop => exact ls _ e.method hpop

end Sys2Proof.Machine
end

