-- ==== Sys2Proof/Laws/Engine.lean ====
section
/-! SUPPORT. What an engine step can do: its frame, what each part of the sort keeps, and its outcomes. -/

namespace Sys2Proof.Machine

@[simp] theorem blockOf_length (s : State) (n : Nat) : (blockOf s n).length = n := by simp [blockOf]

@[simp] theorem drawWords_length (k len : Nat) : (drawWords k len).length = len := by simp [drawWords]

/-! ## What no engine step changes -/

/-- `t` differs from `s` only where an engine step may write: `SA[0..n]`, the results, the engine and the model's counts
(42_bwt_engine.md R169). -/
structure EngineFrame (s t : State) : Prop where
  tMem       : t.tMem = s.tMem
  len        : t.len = s.len
  irqEn      : t.irqEn = s.irqEn
  nMax       : t.nMax = s.nMax
  viol       : t.status.viol = s.status.viol
  agent      : t.agent = s.agent
  modelFault : t.modelFault = s.modelFault
  resetIn    : t.resetIn = s.resetIn
  nLat       : t.engine.nLat = s.engine.nLat
  beyond     : ∀ i, s.engine.nLat.toNat < i → Memory.read t.saMem i = Memory.read s.saMem i
  empty      : s.engine.nLat = 0#24 → t.saMem = s.saMem

theorem EngineFrame.refl (s : State) : EngineFrame s s :=
  ⟨rfl, rfl, rfl, rfl, rfl, rfl, rfl, rfl, rfl, fun _ _ => rfl, fun _ => rfl⟩

theorem EngineFrame.trans {s t u : State} (h : EngineFrame s t) (h' : EngineFrame t u) : EngineFrame s u where
  tMem := h'.tMem.trans h.tMem
  len := h'.len.trans h.len
  irqEn := h'.irqEn.trans h.irqEn
  nMax := h'.nMax.trans h.nMax
  viol := h'.viol.trans h.viol
  agent := h'.agent.trans h.agent
  modelFault := h'.modelFault.trans h.modelFault
  resetIn := h'.resetIn.trans h.resetIn
  nLat := h'.nLat.trans h.nLat
  beyond i hi := (h'.beyond i (by rw [h.nLat]; exact hi)).trans (h.beyond i hi)
  empty h0 := (h'.empty (by rw [h.nLat]; exact h0)).trans (h.empty h0)

theorem drawn_frame (s : State) (k : Nat) : EngineFrame s (s.drawn k) :=
  ⟨rfl, rfl, rfl, rfl, rfl, rfl, rfl, rfl, rfl, fun _ _ => rfl, fun _ => rfl⟩

theorem setHostTurns_frame (s : State) (k : Nat) : EngineFrame s (s.setHostTurns k) :=
  ⟨rfl, rfl, rfl, rfl, rfl, rfl, rfl, rfl, rfl, fun _ _ => rfl, fun _ => rfl⟩

theorem setEngine_frame (s : State) (e : Engine) (h : e.nLat = s.engine.nLat) : EngineFrame s (s.setEngine e) :=
  ⟨rfl, rfl, rfl, rfl, rfl, rfl, rfl, rfl, h, fun _ _ => rfl, fun _ => rfl⟩

/-- Redrawing `SA[0..n]` writes nothing past index `n`. -/
theorem redrawSa_read_beyond (s : State) {i : Nat} (h : s.engine.nLat.toNat < i) :
    Memory.read (redrawSa s).saMem i = Memory.read s.saMem i := by
  unfold redrawSa
  split
  · rfl
  · simp only [drawn_saMem, setSaMem_saMem]
    exact Memory.read_fill_outside _ _ (by simp [runLength]; omega)

theorem redrawSa_frame (s : State) : EngineFrame s (redrawSa s) := by
  refine ⟨?_, ?_, ?_, ?_, ?_, ?_, ?_, ?_, ?_, fun _ => redrawSa_read_beyond s, fun h0 => ?_⟩
  all_goals unfold redrawSa
  all_goals split <;> first | rfl | simp_all [runLength]

@[simp] theorem redrawSa_status (s : State) : (redrawSa s).status = s.status := by unfold redrawSa; split <;> rfl
@[simp] theorem redrawSa_startPtr (s : State) : (redrawSa s).startPtr = s.startPtr := by unfold redrawSa; split <;> rfl
@[simp] theorem redrawSa_engine (s : State) : (redrawSa s).engine = s.engine := by unfold redrawSa; split <;> rfl
@[simp] theorem redrawSa_tMem (s : State) : (redrawSa s).tMem = s.tMem := by unfold redrawSa; split <;> rfl

/-! ## Storing the work -/

@[simp] theorem storeWork_status (w : SortWork) (s : State) : (storeWork w s).status = s.status := by
  unfold storeWork; split <;> simp
@[simp] theorem storeWork_startPtr (w : SortWork) (s : State) : (storeWork w s).startPtr = s.startPtr := by
  unfold storeWork; split <;> simp
@[simp] theorem storeWork_engine (w : SortWork) (s : State) : (storeWork w s).engine = w.engine := by
  unfold storeWork; split <;> rfl
@[simp] theorem storeWork_tMem (w : SortWork) (s : State) : (storeWork w s).tMem = s.tMem := by
  unfold storeWork; split <;> simp

@[simp] theorem regionRead_length (sa : Memory Word) (r : Region) : (regionRead sa r).length = r.len := by
  simp [regionRead]

/-- A region's entries stand inside `SA[0..n]`. -/
theorem regionWrite_read_beyond (n : Nat) (sa : Memory Word) (r : Region) (ws : List Word) {i : Nat} (h : n < i) :
    Memory.read (regionWrite n sa r ws) i = Memory.read sa i :=
  Memory.read_fill_outside _ _ (by simp only [List.length_take]; omega)

@[simp] theorem regionWrite_nil (n : Nat) (sa : Memory Word) (r : Region) : regionWrite n sa r [] = sa := by
  simp [regionWrite, Memory.fill]

/-- What `len` entries written to a region leave in it. -/
theorem regionRead_regionWrite {n : Nat} {r : Region} {ws : List Word} (sa : Memory Word)
    (hr : regionInside n r = true) (hl : ws.length = r.len) : regionRead (regionWrite n sa r ws) r = ws := by
  simp only [regionInside, decide_eq_true_eq] at hr
  apply List.ext_getElem (by simp [hl])
  intro k hk _
  simp only [regionRead_length] at hk
  simp only [regionRead, List.getElem_map, List.getElem_range, regionWrite]
  rw [Memory.read_fill, if_pos (by simp only [List.length_take]; omega), Nat.add_sub_cancel_left,
    List.getElem?_take_of_lt (by omega), List.getElem?_eq_getElem (by omega)]
  rfl

/-- Entries written to one region leave another apart from it alone. -/
theorem regionRead_regionWrite_apart {x y : Region} (h : regionsApart x y = true) (n : Nat) (sa : Memory Word)
    {ws : List Word} (hl : ws.length = y.len) : regionRead (regionWrite n sa y ws) x = regionRead sa x := by
  simp only [regionsApart, decide_eq_true_eq] at h
  simp only [regionRead]
  apply List.map_congr_left
  intro k hk
  rw [List.mem_range] at hk
  rw [regionWrite, Memory.read_fill_outside _ _ (by simp only [List.length_take]; omega)]

theorem runLength_ne_zero {s : State} (h : runLength s ≠ 0) : s.engine.nLat ≠ 0#24 := by
  intro h0
  simp [runLength, h0] at h

theorem storeWork_frame {w : SortWork} {s : State} (h : w.engine.nLat = s.engine.nLat) :
    EngineFrame s (storeWork w s) := by
  unfold storeWork
  split
  · exact setEngine_frame s _ h
  · next h0 =>
    refine (redrawSa_frame s).trans ?_
    refine ⟨rfl, rfl, rfl, rfl, rfl, rfl, rfl, rfl, by simpa using h, fun i hi => ?_, fun h1 => ?_⟩
    · rw [redrawSa_engine] at hi
      have hi : runLength s < i := hi
      simp only [setEngine_saMem, setSaMem_saMem]
      rw [regionWrite_read_beyond _ _ _ _ hi, regionWrite_read_beyond _ _ _ _ hi]
    · rw [redrawSa_engine] at h1
      exact absurd h1 (runLength_ne_zero h0)

/-- The stored work is read back: the regions are apart and inside `SA[0..n]` (42_bwt_engine.md R177). -/
theorem storeWork_read {w : SortWork} {s : State} (h0 : runLength s ≠ 0)
    (hr : regionsOk (runLength s) w.engine.pa w.engine.isa w.engine.buffer = true)
    (hp : w.pa.length = w.engine.pa.len) :
    (w.isa.length = w.engine.isa.len → regionRead (storeWork w s).saMem w.engine.pa = w.pa ∧
        regionRead (storeWork w s).saMem w.engine.isa = w.isa) ∧
      (w.isa = [] → regionRead (storeWork w s).saMem w.engine.pa = w.pa) := by
  simp only [regionsOk, Bool.and_eq_true] at hr
  obtain ⟨⟨⟨⟨⟨h1, h2⟩, _⟩, h3⟩, _⟩, _⟩ := hr
  simp only [storeWork, if_neg h0, setEngine_saMem, setSaMem_saMem]
  refine ⟨fun hi => ⟨?_, regionRead_regionWrite _ h2 hi⟩, fun hi => ?_⟩
  · rw [regionRead_regionWrite_apart h3 _ _ hi]
    exact regionRead_regionWrite _ h1 hp
  · rw [hi, regionWrite_nil]
    exact regionRead_regionWrite _ h1 hp

/-- Work that keeps the bounds is stored as it is. -/
theorem loadWork_storeWork {w : SortWork} {s : State} (hb : BoundsInv w.engine) (hn : w.engine.nLat = s.engine.nLat)
    (hp : w.pa.length = w.engine.pa.len) (hi : w.isa.length = w.engine.isa.len) : loadWork (storeWork w s) = w := by
  have hl := hb.entries
  have hm := hb.m_le
  have key : regionRead (storeWork w s).saMem w.engine.pa = w.pa ∧
      regionRead (storeWork w s).saMem w.engine.isa = w.isa := by
    by_cases h0 : runLength s = 0
    · have h0 : s.engine.nLat.toNat = 0 := h0
      rw [hn] at hm
      have e1 : w.pa = [] := List.length_eq_zero_iff.1 (by omega)
      have e2 : w.isa = [] := List.length_eq_zero_iff.1 (by omega)
      rw [e1] at hp ⊢
      rw [e2] at hi ⊢
      simp [regionRead, ← hp, ← hi]
    · exact (storeWork_read h0 (by have h := hb.regions; rw [hn] at h; exact h) hp).1 hi
  unfold loadWork
  rw [storeWork_engine, key.1, key.2]

/-! ## Classification -/

/-- Counting changes the buckets alone. -/
theorem countPositions_only (first : Byte) (block : List Byte) (cs : List SuffixClass) (e : Engine) :
    countPositions e first block cs =
      { e with
        bucketA := (countPositions e first block cs).bucketA
        bucketB := (countPositions e first block cs).bucketB } := by
  induction block generalizing cs e with
  | nil => simp [countPositions]
  | cons c0 r ih =>
    cases cs with
    | nil => simp [countPositions]
    | cons c cs =>
      simp only [countPositions]
      rw [ih]
      rfl

/-- A bucket's write keeps its canonical form and its size. -/
theorem bucketWrite_bounds {b : Memory (BitVec 32)} {d k : Nat} (v : BitVec 32) (h : Memory.wf b ∧ Memory.below b d)
    (hk : k < d) : Memory.wf (bucketWrite b k v) ∧ Memory.below (bucketWrite b k v) d := by
  unfold bucketWrite
  split
  · exact ⟨Memory.wf_erase _ h.1, Memory.below_erase _ h.2⟩
  · exact ⟨Memory.wf_write _ _ h.1, Memory.below_write _ h.2 hk⟩

theorem pairIndex_lt (c0 c1 : Byte) : pairIndex c0 c1 < Config.bucketBSize := by
  simp only [pairIndex, Config.bucketBSize]
  omega

/-- The buckets' indexes stay inside them (10_state.md R39). -/
def BucketsOk (e : Engine) : Prop :=
  (Memory.wf e.bucketA ∧ Memory.below e.bucketA Config.bucketASize) ∧
    (Memory.wf e.bucketB ∧ Memory.below e.bucketB Config.bucketBSize)

theorem countPositions_buckets (first : Byte) (block : List Byte) (cs : List SuffixClass) {e : Engine}
    (h : BucketsOk e) : BucketsOk (countPositions e first block cs) := by
  induction block generalizing cs e with
  | nil => exact h
  | cons c0 r ih =>
    cases cs with
    | nil => exact h
    | cons c cs =>
      refine ih cs ⟨?_, ?_⟩
      · simp only [countPosition]
        split
        · exact bucketWrite_bounds _ h.1 c0.isLt
        · exact h.1
      · simp only [countPosition]
        split
        · exact bucketWrite_bounds _ h.2 (pairIndex_lt _ _)
        · exact h.2

/-- The places of the regions keep the aliasing discipline, with an entry for each B* suffix (42_bwt_engine.md R177). -/
theorem layout_spec {n m : Nat} (free : Region × Region × Region) (h : 2 * m ≤ n + 1) :
    regionsOk n (layout n m free).1 (layout n m free).2.1 (layout n m free).2.2 = true ∧
      (layout n m free).1.len = m ∧ (layout n m free).2.1.len = m := by
  unfold layout
  split
  · next hf => exact hf
  · simp [regionsOk, regionInside, regionsApart]
    omega

/-- What CLASSIFY leaves in the engine (42_bwt_engine.md R173). -/
structure Classified (e f : Engine) (count : Nat) : Prop where
  phase    : f.phase = e.phase
  nLat     : f.nLat = e.nLat
  m        : f.m = count
  pa_len   : f.pa.len = count
  isa_len  : f.isa.len = count
  ssize    : f.ssize = 0
  depth    : f.depth = 0
  sorted   : f.sorted = 0
  taken    : f.taken = 0
  regions  : regionsOk e.nLat.toNat f.pa f.isa f.buffer = true
  buckets  : BucketsOk f

theorem classified_spec (e : Engine) (last : SuffixClass) {block : List Byte} (free : Region × Region × Region)
    (h : block.length = e.nLat.toNat) :
    Classified e (classified e block (suffixClasses last block) free)
      (bStarPositions (suffixClasses last block)).length := by
  have hm := bStarPositions_length_le last block
  rw [h] at hm
  have hl := layout_spec free hm
  have hb : BucketsOk { e with bucketA := [], bucketB := [] } := by simp [BucketsOk, Memory.wf]
  refine ⟨?_, ?_, rfl, hl.2.1, hl.2.2, rfl, rfl, rfl, rfl, hl.1, countPositions_buckets _ _ _ hb⟩
  · simp only [classified]
    rw [countPositions_only]
  · simp only [classified]
    rw [countPositions_only]

/-! ## Free moves -/

/-- What a free move may change: the buckets inside their indexes, the buffer inside the regions' discipline, and the
count of steps before the phase's next. -/
structure MoveFrame (e f : Engine) : Prop where
  only    : f = { e with bucketA := f.bucketA, bucketB := f.bucketB, buffer := f.buffer, work := f.work }
  buckets : BucketsOk e → BucketsOk f
  bounds  : BoundsInv e → BoundsInv f

theorem MoveFrame.refl (e : Engine) : MoveFrame e e := ⟨rfl, id, id⟩

theorem applyMove_frame (nMax : Nat) (mv : EngineMove) (e : Engine) : MoveFrame e (applyMove nMax mv e) := by
  have buckets : ∀ a b, (BucketsOk e → BucketsOk { e with bucketA := a, bucketB := b }) →
      MoveFrame e { e with bucketA := a, bucketB := b } :=
    fun a b h => ⟨rfl, h, fun h => ⟨h.1, h.2, h.3, h.4, h.5, h.6⟩⟩
  cases mv <;> simp only [applyMove]
  case silent => exact MoveFrame.refl e
  case setBucketA c0 x =>
    split
    · exact buckets _ _ fun hb => ⟨bucketWrite_bounds x hb.1 c0.isLt, hb.2⟩
    · exact MoveFrame.refl e
  case setBucketB c0 c1 x =>
    split
    · exact buckets _ _ fun hb => ⟨hb.1, bucketWrite_bounds x hb.2 (pairIndex_lt c0 c1)⟩
    · exact MoveFrame.refl e
  case buffer r =>
    split
    · next hr => exact ⟨rfl, id, fun h => ⟨h.1, h.2, hr, h.4, h.5, h.6⟩⟩
    · exact MoveFrame.refl e

/-- A free move takes one internal step, and changes no more than it may; a run with `n <= 1` makes none. -/
theorem moved_spec (s : State) (mv : EngineMove) :
    MoveFrame s.engine (moved s mv) ∧ (moved s mv).work = s.engine.work - 1 ∧
      (runLength s ≤ 1 → moved s mv = { s.engine with work := s.engine.work - 1 }) := by
  obtain ⟨e, he⟩ : ∃ e, e = { s.engine with work := s.engine.work - 1 } := ⟨_, rfl⟩
  have h0 : MoveFrame s.engine e := by
    rw [he]
    exact ⟨rfl, id, fun h => ⟨h.1, h.2, h.3, h.4, h.5, h.6⟩⟩
  have hw : e.work = s.engine.work - 1 := by rw [he]
  simp only [moved]
  rw [← he]
  split
  · next ha =>
    have h1 := applyMove_frame s.nMax.toNat mv e
    refine ⟨⟨?_, h1.buckets ∘ h0.buckets, h1.bounds ∘ h0.bounds⟩, ?_, fun hn => ?_⟩
    · rw [h1.only]
      simp only
      rw [h0.only]
    · rw [← hw]
      cases mv <;> simp only [applyMove] <;> split <;> rfl
    · simp only [moveAllowed, Bool.and_eq_true, decide_eq_true_eq] at ha
      omega
  · exact ⟨h0, hw, fun _ => rfl⟩

/-! ## Completion -/

@[simp] theorem complete_status (s : State) : (complete s).status = s.status.complete := rfl
@[simp] theorem complete_engine (s : State) : (complete s).engine = { s.engine with phase := .idle } := rfl

theorem complete_frame (s : State) : EngineFrame s (complete s) where
  tMem := rfl
  len := rfl
  irqEn := rfl
  nMax := rfl
  viol := rfl
  agent := rfl
  modelFault := rfl
  resetIn := rfl
  nLat := rfl
  beyond i hi := by
    simp only [complete, drawn_saMem, setStatus_saMem, setEngine_saMem, setStartPtr_saMem, setSaMem_saMem]
    split
    · rfl
    · exact Memory.read_fill_outside _ _ (by simp [runLength]; omega)
  empty h0 := by
    simp [complete, runLength, h0]

@[simp] theorem internalFault_status (s : State) : (internalFault s).status = s.status.internalFault := by
  simp [internalFault]
@[simp] theorem internalFault_startPtr (s : State) : (internalFault s).startPtr = s.startPtr := by simp [internalFault]
@[simp] theorem internalFault_engine (s : State) : (internalFault s).engine = { s.engine with phase := .idle } := by
  simp [internalFault]

theorem internalFault_frame (s : State) : EngineFrame s (internalFault s) := by
  refine (redrawSa_frame s).trans ?_
  exact ⟨rfl, rfl, rfl, rfl, rfl, rfl, rfl, rfl, rfl, fun _ _ => rfl, fun _ => rfl⟩

/-! ## Internal steps -/

@[simp] theorem induceStep_status (s : State) : (induceStep s).status = s.status := rfl
@[simp] theorem induceStep_startPtr (s : State) : (induceStep s).startPtr = s.startPtr := rfl
@[simp] theorem induceStep_engine (s : State) :
    (induceStep s).engine = { s.engine with work := s.engine.work - 1, tie := Config.freeNat s.draws } := rfl

@[simp] theorem looseWords_length (ws : List Word) (out : List Byte) :
    (looseWords ws out).length = min ws.length out.length := by
  simp [looseWords]

theorem induceStep_frame (s : State) : EngineFrame s (induceStep s) where
  tMem := rfl
  len := rfl
  irqEn := rfl
  nMax := rfl
  viol := rfl
  agent := rfl
  modelFault := rfl
  resetIn := rfl
  nLat := rfl
  beyond i hi := by
    simp only [induceStep, drawn_saMem, setEngine_saMem, setSaMem_saMem]
    split
    · rfl
    · exact Memory.read_fill_outside _ _ (by simp [runLength]; omega)
  empty h0 := by
    simp [induceStep, runLength, h0]

theorem extractLsb'_append_low (x : BitVec 24) (b : Byte) : BitVec.extractLsb' 0 8 (x ++ b) = b := by
  ext k hk
  rw [BitVec.getElem_extractLsb', Nat.zero_add]
  exact (BitVec.getLsbD_append (x := x) (y := b) (i := k)).trans (by simp [hk])

/-- The bytes the end of the induction leaves in the low bits of `SA[0..n-1]` (42_bwt_engine.md R179). -/
theorem induceStep_read (s : State) {i : Nat} (hi : i < runLength s) :
    ∃ w, Memory.read (induceStep s).saMem i = some w ∧ w.extractLsb' 0 8 =
      (inducedTransform (blockOf s (runLength s)) ((regionRead s.saMem s.engine.pa).map entryPos)).getD i 0#8 := by
  simp only [induceStep, drawn_saMem, setEngine_saMem, setSaMem_saMem]
  rw [if_neg (by omega), Memory.read_fill, if_pos (by simp; omega)]
  rw [Nat.sub_zero, List.getElem?_append_left (by simp; omega)]
  refine ⟨(looseWords _ _)[i]'(by simp; omega), List.getElem?_eq_getElem _, ?_⟩
  simp only [looseWords, List.getElem_zipWith]
  rw [List.getD_eq_getElem _ _ (by simpa using hi)]
  exact extractLsb'_append_low _ _

/-! ## The end of a phase -/

@[simp] theorem enterPhase_status (p : Phase) (k : Nat) (w : SortWork) (s : State) :
    (enterPhase p k w s).status = s.status := by simp [enterPhase]
@[simp] theorem enterPhase_startPtr (p : Phase) (k : Nat) (w : SortWork) (s : State) :
    (enterPhase p k w s).startPtr = s.startPtr := by simp [enterPhase]
@[simp] theorem enterPhase_engine (p : Phase) (k : Nat) (w : SortWork) (s : State) :
    (enterPhase p k w s).engine = { w.engine with phase := p, work := k } := by simp [enterPhase]

theorem enterPhase_frame (p : Phase) (k : Nat) (w : SortWork) (s : State) (h : w.engine.nLat = s.engine.nLat) :
    EngineFrame s (enterPhase p k w s) :=
  (drawn_frame s 1).trans (storeWork_frame (by exact h))

theorem classifiedWork_spec (s : State) :
    Classified s.engine (classifiedWork s).engine
      (bStarPositions (suffixClasses (Config.freeClass s.draws) (blockOf s (runLength s)))).length :=
  classified_spec _ _ _ (by simp [runLength])

/-! ## One engine step -/

/-- What an engine step from `u` can come to, `u` with the turns of the host drawn (42_bwt_engine.md R166-R168, R172). -/
inductive EngineOutcome (u : State) : State → Prop
  | idle (hp : u.engine.phase = .idle) (hw : u.engine.work = 0) : EngineOutcome u u
  | complete (hp : u.engine.phase = .construct ∨ u.engine.phase = .classify ∧ runLength u ≤ 1)
      (hw : u.engine.work = 0) : EngineOutcome u (complete u)
  | classified (hp : u.engine.phase = .classify) (hw : u.engine.work = 0) (hn : 2 ≤ runLength u) :
      EngineOutcome u (enterPhase .sssort (Config.freeNat u.draws) (classifiedWork u) u)
  | sorted (hp : u.engine.phase = .sssort) (hw : u.engine.work = 0) (hd : substringsDone (loadWork u) = true) :
      EngineOutcome u (enterPhase .trsort (Config.freeNat u.draws)
        (startRefinement (blockOf u (runLength u)) (runLength u) (loadWork u)) u)
  | refined (hp : u.engine.phase = .trsort) (hw : u.engine.work = 0) (hd : refinementDone (loadWork u) = true) :
      EngineOutcome u
        (enterPhase .construct (Config.freeNat u.draws + 1) { loadWork u with pa := unmarked (loadWork u).pa } u)
  | substring (hp : u.engine.phase = .sssort) (hw : u.engine.work = 0) (hd : substringsDone (loadWork u) = false)
      (v : SortWork) (free k : Nat)
      (hv : substringStep (blockOf u (runLength u)) (runLength u) free (loadWork u) = some v ∨
        substringStep (blockOf u (runLength u)) (runLength u) free (loadWork u) = none ∧
          v = substringSpill (blockOf u (runLength u)) (runLength u) (loadWork u)) :
      EngineOutcome u (storeWork { v with engine := { v.engine with work := k } } (u.drawn 2))
  | refinement (hp : u.engine.phase = .trsort) (hw : u.engine.work = 0) (hd : refinementDone (loadWork u) = false)
      (v : SortWork) (free k : Nat)
      (hv : refinementStep (blockOf u (runLength u)) (runLength u) free (loadWork u) = some v ∨
        refinementStep (blockOf u (runLength u)) (runLength u) free (loadWork u) = none ∧
          v = refinementSpill (blockOf u (runLength u)) (loadWork u)) :
      EngineOutcome u (storeWork { v with engine := { v.engine with work := k } } (u.drawn 2))
  | fault (hp : u.engine.phase = .sssort ∨ u.engine.phase = .trsort) (hw : u.engine.work = 0)
      (hf : Config.internalFaultPossible = true) : EngineOutcome u (internalFault (u.drawn 2))
  | move (hw : u.engine.work ≠ 0) (hc : ¬ (u.engine.phase = .construct ∧ u.engine.work = 1)) :
      EngineOutcome u (moveStep u)
  | induce (hp : u.engine.phase = .construct) (hw : u.engine.work = 1) : EngineOutcome u (induceStep u)

/-- A step of the sort goes on with the step that has been made, or in its place, or is the internal fault. -/
theorem sortStep_cases (next : Option SortWork) (spill : SortWork) (s : State) :
    (Config.internalFaultPossible = true ∧ sortStep next spill s = internalFault (s.drawn 2)) ∨
      ∃ v k, (next = some v ∨ next = none ∧ v = spill) ∧
        sortStep next spill s = storeWork { v with engine := { v.engine with work := k } } (s.drawn 2) := by
  unfold sortStep
  cases next with
  | some w => exact .inr ⟨w, _, .inl rfl, rfl⟩
  | none =>
    simp only
    split
    · next hf => exact .inl ⟨hf, rfl⟩
    · exact .inr ⟨spill, _, .inr ⟨by trivial, rfl⟩, rfl⟩

theorem phaseStep_outcome {s : State} (hw : s.engine.work = 0) : EngineOutcome s (phaseStep s) := by
  unfold phaseStep
  simp only
  split
  · next hp => exact .idle hp hw
  · next hp =>
    split
    · next hn => exact .complete (.inr ⟨hp, hn⟩) hw
    · next hn => exact .classified hp hw (by omega)
  · next hp =>
    split
    · next hd => exact .sorted hp hw hd
    · next hd =>
      rcases sortStep_cases (substringStep (blockOf s (runLength s)) (runLength s) (Config.freeNat s.draws) (loadWork s))
        (substringSpill (blockOf s (runLength s)) (runLength s) (loadWork s)) s with ⟨hf, e⟩ | ⟨v, k, hv, e⟩ <;> rw [e]
      · exact .fault (.inl hp) hw hf
      · exact .substring hp hw (by simpa using hd) v _ k hv
  · next hp =>
    split
    · next hd => exact .refined hp hw hd
    · next hd =>
      rcases sortStep_cases (refinementStep (blockOf s (runLength s)) (runLength s) (Config.freeNat s.draws) (loadWork s))
        (refinementSpill (blockOf s (runLength s)) (loadWork s)) s with ⟨hf, e⟩ | ⟨v, k, hv, e⟩ <;> rw [e]
      · exact .fault (.inr hp) hw hf
      · exact .refinement hp hw (by simpa using hd) v _ k hv
  · next hp => exact .complete (.inl hp) hw

/-- The state an engine step works on: the host's turns before the next one are drawn first (log 6). -/
abbrev turnsDrawn (s : State) : State := (s.setHostTurns (Config.freeNat s.draws)).drawn 1

/-- Every engine step comes to one of these outcomes. -/
theorem engineStep_outcome (s : State) : EngineOutcome (turnsDrawn s) (engineStep s) := by
  simp only [engineStep]
  split
  · next hw => exact phaseStep_outcome (s := turnsDrawn s) hw
  · next hw =>
    unfold internalStep
    split
    · next hc => exact .induce hc.1 hc.2
    · next hc => exact .move hw hc

/-- A step of the sort, of either phase, keeps what every step of the sort keeps. -/
theorem EngineOutcome.sortStep {u : State} {v : SortWork} {free : Nat} :
    (substringStep (blockOf u (runLength u)) (runLength u) free (loadWork u) = some v ∨
        substringStep (blockOf u (runLength u)) (runLength u) free (loadWork u) = none ∧
          v = substringSpill (blockOf u (runLength u)) (runLength u) (loadWork u)) ∨
      (refinementStep (blockOf u (runLength u)) (runLength u) free (loadWork u) = some v ∨
        refinementStep (blockOf u (runLength u)) (runLength u) free (loadWork u) = none ∧
          v = refinementSpill (blockOf u (runLength u)) (loadWork u)) → SortStep (loadWork u) v := by
  rintro (h | h)
  · exact substringStep_spec rfl (h.imp_right And.right)
  · exact refinementStep_spec (h.imp_right And.right)

theorem EngineOutcome.frame {u t : State} (h : EngineOutcome u t) : EngineFrame u t := by
  have sort : ∀ {v : SortWork} (k : Nat), SortStep (loadWork u) v →
      EngineFrame u (storeWork { v with engine := { v.engine with work := k } } (u.drawn 2)) := by
    intro v k hv
    refine (drawn_frame u 2).trans (storeWork_frame ?_)
    show v.engine.nLat = u.engine.nLat
    rw [hv.only]
    rfl
  cases h with
  | idle => exact EngineFrame.refl _
  | complete => exact complete_frame _
  | classified => exact enterPhase_frame _ _ _ _ (classifiedWork_spec u).nLat
  | sorted => exact enterPhase_frame _ _ _ _ rfl
  | refined => exact enterPhase_frame _ _ _ _ rfl
  | substring _ _ _ v free k hv => exact sort k (EngineOutcome.sortStep (.inl hv))
  | refinement _ _ _ v free k hv => exact sort k (EngineOutcome.sortStep (.inr hv))
  | fault => exact (drawn_frame u 2).trans (internalFault_frame _)
  | move =>
    refine (drawn_frame u 1).trans (storeWork_frame ?_)
    show (moved u _).nLat = u.engine.nLat
    rw [(moved_spec u _).1.only]
  | induce => exact induceStep_frame u

/-! ## The bounds of the hidden state -/

theorem hiddenInv_iff {e : Engine} : HiddenInv e ↔ BoundsInv e ∧ BucketsOk e :=
  ⟨fun h => ⟨h.toBoundsInv, h.bucketA_ok, h.bucketB_ok⟩, fun h => ⟨h.1, h.2.1, h.2.2⟩⟩

/-- The phase and the counts beside the sort have no part in the bounds. -/
theorem BoundsInv.congr {e : Engine} (h : BoundsInv e) (p : Phase) (work tie : Nat) :
    BoundsInv { e with phase := p, work := work, tie := tie } := ⟨h.1, h.2, h.3, h.4, h.5, h.6⟩

/-- An engine step keeps the sort inside its bounds. -/
theorem EngineOutcome.bounds {u t : State} (h : EngineOutcome u t) (hi : BoundsInv u.engine) : BoundsInv t.engine := by
  have sort : ∀ {v : SortWork} (k : Nat), SortStep (loadWork u) v → BoundsInv { v.engine with work := k } :=
    fun k hv => (hv.bounds (by simp [loadWork]) hi).congr _ k _
  cases h with
  | idle => exact hi
  | complete => exact hi.congr .idle _ _
  | classified hp hw hn =>
    have hc := classifiedWork_spec u
    have hm := bStarPositions_length_le (Config.freeClass u.draws) (blockOf u (runLength u))
    simp only [blockOf_length] at hm
    rw [enterPhase_engine]
    refine BoundsInv.congr ⟨?_, ?_, ?_, ?_, ?_, ?_⟩ _ _ _
    · rw [hc.ssize]; simp
    · rw [hc.ssize]; simp
    · rw [hc.nLat]; exact hc.regions
    · exact ⟨hc.pa_len.trans hc.m.symm, hc.isa_len.trans hc.m.symm⟩
    · rw [hc.m, hc.nLat]
      show _ ≤ runLength u
      omega
    · rw [hc.depth]; omega
  | sorted hp hw hd =>
    rw [enterPhase_engine]
    refine BoundsInv.congr ?_ _ _ _
    exact ⟨hi.1, hi.2, hi.3, hi.4, hi.5, Nat.le_max_left _ _⟩
  | refined hp hw hd =>
    rw [enterPhase_engine]
    exact BoundsInv.congr (by exact hi) _ _ _
  | substring _ _ _ v free k hv =>
    rw [storeWork_engine]
    exact sort k (EngineOutcome.sortStep (.inl hv))
  | refinement _ _ _ v free k hv =>
    rw [storeWork_engine]
    exact sort k (EngineOutcome.sortStep (.inr hv))
  | fault =>
    rw [internalFault_engine]
    exact hi.congr .idle _ _
  | move =>
    rw [moveStep, storeWork_engine]
    exact (moved_spec u _).1.bounds hi
  | induce => exact hi.congr _ _ _

/-- A run starts inside the bounds of the sort. -/
theorem startedEngine_bounds (e : Engine) (n : Len) (work : Nat) : BoundsInv (startedEngine e n work) := by
  constructor <;> simp [startedEngine, regionsOk, regionInside, regionsApart]

/-- An engine step keeps the buckets' indexes inside them. -/
theorem EngineOutcome.buckets {u t : State} (h : EngineOutcome u t) (hi : BucketsOk u.engine) : BucketsOk t.engine := by
  have sort : ∀ {v : SortWork} {k : Nat}, SortStep (loadWork u) v → BucketsOk { v.engine with work := k } := by
    intro v k hv
    rw [hv.only]
    exact hi
  cases h with
  | idle => exact hi
  | complete => exact hi
  | classified =>
    rw [enterPhase_engine]
    exact (classifiedWork_spec u).buckets
  | sorted =>
    rw [enterPhase_engine]
    exact hi
  | refined =>
    rw [enterPhase_engine]
    exact hi
  | substring _ _ _ v free k hv =>
    rw [storeWork_engine]
    exact sort (EngineOutcome.sortStep (.inl hv))
  | refinement _ _ _ v free k hv =>
    rw [storeWork_engine]
    exact sort (EngineOutcome.sortStep (.inr hv))
  | fault =>
    rw [internalFault_engine]
    exact hi
  | move =>
    rw [moveStep, storeWork_engine]
    exact (moved_spec u _).1.buckets hi
  | induce => exact hi

/-- An engine step keeps the hidden state inside its bounds. -/
theorem EngineOutcome.hidden {u t : State} (h : EngineOutcome u t) (hi : HiddenInv u.engine) : HiddenInv t.engine :=
  hiddenInv_iff.2 ⟨h.bounds hi.toBoundsInv, h.buckets (hiddenInv_iff.1 hi).2⟩

/-! ## The cases of an engine step -/

/-- What no engine step changes (42_bwt_engine.md R169). -/
theorem engineStep_frame (s : State) : EngineFrame s (engineStep s) :=
  ((setHostTurns_frame s _).trans (drawn_frame _ 1)).trans (engineStep_outcome s).frame

/-- The place of a phase in a run, counted from its end. -/
def phaseRank (p : Phase) : Nat :=
  match p with
  | .idle => 0
  | .construct => 1
  | .trsort => 2
  | .sssort => 3
  | .classify => 4

/-- An engine step of a running block: it goes on, in the next phase or in this one, completes, or ends with the internal
fault (42_bwt_engine.md R166-R168, R172). -/
theorem engineStep_cases (s : State) (h : s.engine.phase ≠ .idle) :
    ((engineStep s).status = s.status ∧ (engineStep s).startPtr = s.startPtr ∧ (engineStep s).engine.phase ≠ .idle ∧
      (phaseRank (engineStep s).engine.phase + 1 = phaseRank s.engine.phase ∧
          (s.engine.phase = .classify → 2 ≤ s.engine.nLat.toNat) ∨
        (engineStep s).engine.phase = s.engine.phase)) ∨
    ((engineStep s).status = s.status.complete ∧ (engineStep s).engine.phase = .idle ∧
      (s.engine.phase = .construct ∨ s.engine.phase = .classify ∧ s.engine.nLat.toNat ≤ 1) ∧ s.engine.work = 0 ∧
      engineStep s = complete (turnsDrawn s)) ∨
    (Config.internalFaultPossible = true ∧ (engineStep s).status = s.status.internalFault ∧
      (engineStep s).startPtr = s.startPtr ∧ (engineStep s).engine.phase = .idle) := by
  have sort : ∀ {v : SortWork} {k : Nat} {p : Phase}, SortStep (loadWork (turnsDrawn s)) v → s.engine.phase = p →
      v.engine.phase = p := by
    intro v k p hv hp
    rw [hv.only]
    exact hp
  have he : (turnsDrawn s).engine = s.engine := rfl
  have ho := engineStep_outcome s
  generalize engineStep s = t at ho ⊢
  cases ho with
  | idle hp => exact absurd hp h
  | complete hp hw => exact .inr (.inl ⟨rfl, rfl, hp, hw, rfl⟩)
  | classified hp hw hn =>
    refine .inl ⟨by simp, by simp, by simp, .inl ⟨?_, fun _ => hn⟩⟩
    rw [he] at hp
    simp [phaseRank, hp]
  | sorted hp hw =>
    rw [he] at hp
    exact .inl ⟨by simp, by simp, by simp, .inl ⟨by simp [phaseRank, hp], by simp [hp]⟩⟩
  | refined hp hw =>
    rw [he] at hp
    exact .inl ⟨by simp, by simp, by simp, .inl ⟨by simp [phaseRank, hp], by simp [hp]⟩⟩
  | substring hp hw hd v free k hv =>
    have := sort (k := k) (EngineOutcome.sortStep (.inl hv)) rfl
    exact .inl ⟨by simp, by simp, by simp [this, h], .inr (by simp [this])⟩
  | refinement hp hw hd v free k hv =>
    have := sort (k := k) (EngineOutcome.sortStep (.inr hv)) rfl
    exact .inl ⟨by simp, by simp, by simp [this, h], .inr (by simp [this])⟩
  | fault hp hw hf => exact .inr (.inr ⟨hf, by simp, by simp, by simp⟩)
  | move =>
    have e : (moveStep (turnsDrawn s)).engine.phase = s.engine.phase := by
      simp only [moveStep, storeWork_engine]
      rw [(moved_spec (turnsDrawn s) _).1.only, he]
    exact .inl ⟨by simp [moveStep], by simp [moveStep], by rw [e]; exact h, .inr e⟩
  | induce hp => exact .inl ⟨rfl, rfl, h, .inr rfl⟩

/-! ## The engine does not look at the reset input -/

theorem redrawSa_setResetIn (s : State) (l : List Bool) : redrawSa (s.setResetIn l) = (redrawSa s).setResetIn l := by
  have h : runLength (s.setResetIn l) = runLength s := rfl
  unfold redrawSa
  rw [h]
  split <;> rfl

theorem storeWork_setResetIn (w : SortWork) (s : State) (l : List Bool) :
    storeWork w (s.setResetIn l) = (storeWork w s).setResetIn l := by
  have h : runLength (s.setResetIn l) = runLength s := rfl
  unfold storeWork
  rw [h, redrawSa_setResetIn]
  split <;> rfl

theorem internalFault_setResetIn (s : State) (l : List Bool) :
    internalFault (s.setResetIn l) = (internalFault s).setResetIn l := by
  simp only [internalFault, redrawSa_setResetIn]
  rfl

theorem sortStep_setResetIn (next : Option SortWork) (spill : SortWork) (s : State) (l : List Bool) :
    sortStep next spill (s.setResetIn l) = (sortStep next spill s).setResetIn l := by
  unfold sortStep
  cases next with
  | some w => exact storeWork_setResetIn _ (s.drawn 2) l
  | none =>
    simp only
    split
    · exact internalFault_setResetIn (s.drawn 2) l
    · exact storeWork_setResetIn _ (s.drawn 2) l

theorem phaseStep_setResetIn (s : State) (l : List Bool) :
    phaseStep (s.setResetIn l) = (phaseStep s).setResetIn l := by
  have h : runLength (s.setResetIn l) = runLength s := rfl
  have hb : blockOf (s.setResetIn l) (runLength s) = blockOf s (runLength s) := rfl
  have hw : loadWork (s.setResetIn l) = loadWork s := rfl
  simp only [phaseStep, setResetIn_engine, h, hb, hw]
  split
  · rfl
  · split
    · rfl
    · exact storeWork_setResetIn _ (s.drawn 1) l
  · split
    · exact storeWork_setResetIn _ (s.drawn 1) l
    · exact sortStep_setResetIn _ _ s l
  · split
    · exact storeWork_setResetIn _ (s.drawn 1) l
    · exact sortStep_setResetIn _ _ s l
  · rfl

/-- The engine does not look at the reset input. -/
theorem engineStep_setResetIn (s : State) (l : List Bool) : engineStep (s.setResetIn l) = (engineStep s).setResetIn l := by
  simp only [engineStep, internalStep]
  by_cases h : s.engine.work = 0
  · rw [if_pos h, if_pos (by exact h)]
    exact phaseStep_setResetIn (turnsDrawn s) l
  · rw [if_neg h, if_neg (by exact h)]
    by_cases hc : s.engine.phase = .construct ∧ s.engine.work = 1
    · rw [if_pos (by exact hc), if_pos (by exact hc)]
      rfl
    · rw [if_neg (by exact hc), if_neg (by exact hc)]
      exact storeWork_setResetIn _ ((turnsDrawn s).drawn 1) l

/-- The block the engine reads is the one `T[0..n-1]` holds. -/
theorem blockOf_eq {s : State} {block : List Byte}
    (h : ∀ i (hi : i < block.length), Memory.read s.tMem i = some block[i]) : blockOf s block.length = block := by
  apply List.ext_getElem
  · simp
  · intro i _ hi
    simp [blockOf, engineByte, h i hi]

/-- What the completion of a run of `n >= 1` bytes leaves in `SA_MEM` (42_bwt_engine.md R166). -/
theorem complete_saMem (s : State) (hn : runLength s ≠ 0) :
    (complete s).saMem =
      Memory.fill s.saMem 0 ((transform (blockOf s (runLength s))).map (fun b => b.setWidth 32) ++
        [Config.freeWord s.draws]) := by
  simp [complete, hn]

theorem complete_startPtr (s : State) :
    (complete s).startPtr =
      BitVec.ofNat 24 (startRow Config.startTie (blockOf s (runLength s)) s.engine.tie) :=
  rfl

/-- The frame of any number of engine steps. -/
theorem engineSteps_frame (s : State) (k : Nat) : EngineFrame s (engineStep^[k] s) := by
  induction k generalizing s with
  | zero => exact EngineFrame.refl s
  | succ k ih =>
    rw [Function.iterate_succ_apply]
    exact (engineStep_frame s).trans (ih _)

end Sys2Proof.Machine
end

