-- ==== Sys2Proof/Laws/Operands.lean ====
section
/-! SUPPORT. What address decoding answers, and the byte lanes of a word. -/

namespace Sys2Proof.Machine

/-- `T_DEPTH` and `SA_DEPTH` of a legal `N_MAX` fit their windows (00_scope.md R7, 20_memory.md R60). -/
theorem depths_fit {nMax : Nat} (h : nMax ≤ Config.nMaxLimit) :
    Config.tDepth nMax ≤ 0x100000 ∧ 4 * Config.saDepth nMax ≤ 0x400000 := by
  simp only [Config.tDepth, Config.saDepth, Config.nMaxLimit] at *
  omega

/-- A byte transaction decodes only inside `T_MEM`, below its depth. -/
theorem decodeAddr_byte {nMax : Nat} (hn : nMax ≤ Config.nMaxLimit) {a : Addr} {win : Window} {i : Nat} :
    decodeAddr nMax a .byte = some (win, i) ↔ win = .tMem ∧ a.toNat = tBase + i ∧ i < Config.tDepth nMax := by
  have ha := a.isLt
  have hd := (depths_fit hn).1
  simp only [decodeAddr]
  generalize a.toNat = n at *
  unfold decodeReg decodeT decodeSa tBase saBase
  generalize Config.tDepth nMax = d at *
  constructor
  · intro h
    split at h
    · simp at h
    · split at h
      · simp at h
        obtain ⟨h1, rfl, rfl⟩ := h
        exact ⟨rfl, by omega, h1⟩
      · split at h <;> simp at h
  · rintro ⟨rfl, rfl, h⟩
    rw [if_neg (by omega), if_pos (by omega)]
    simp [h]

/-- A word transaction decodes to an aligned register offset, an aligned word of `T_MEM` or a word of `SA_MEM`. -/
theorem decodeAddr_word {nMax : Nat} (hn : nMax ≤ Config.nMaxLimit) {a : Addr} {win : Window} {i : Nat} :
    decodeAddr nMax a .word = some (win, i) ↔
      (win = .reg ∧ a.toNat = i ∧ i ≤ 0xFF ∧ i % 4 = 0) ∨
      (win = .tMem ∧ a.toNat = tBase + i ∧ i % 4 = 0 ∧ i + 3 < Config.tDepth nMax) ∨
      (win = .saMem ∧ a.toNat = saBase + 4 * i ∧ i < Config.saDepth nMax) := by
  have ha := a.isLt
  have hd := (depths_fit hn).1
  simp only [decodeAddr]
  generalize a.toNat = n at *
  unfold decodeReg decodeT decodeSa tBase saBase
  generalize Config.tDepth nMax = d at *
  generalize Config.saDepth nMax = e at *
  constructor
  · intro h
    split at h
    · next h0 =>
      simp at h
      obtain ⟨h1, rfl, rfl⟩ := h
      exact .inl ⟨rfl, rfl, h0, h1⟩
    · split at h
      · simp at h
        obtain ⟨⟨h1, h2⟩, rfl, rfl⟩ := h
        exact .inr (.inl ⟨rfl, by omega, h1, h2⟩)
      · split at h
        · simp at h
          obtain ⟨⟨h1, h2⟩, rfl, rfl⟩ := h
          exact .inr (.inr ⟨rfl, by omega, h2⟩)
        · simp at h
  · rintro (⟨rfl, rfl, h, h4⟩ | ⟨rfl, rfl, h4, h⟩ | ⟨rfl, rfl, h⟩)
    · rw [if_pos h]
      simp [h4]
    · rw [if_neg (by omega), if_pos (by omega)]
      simp [h, h4]
    · rw [if_neg (by omega), if_neg (by omega), if_pos (by omega)]
      simp [h]

/-- Which word transactions decode to a register, whatever `N_MAX` is. -/
theorem decodeAddr_reg_iff {nMax : Nat} {a : Addr} {i : Nat} :
    decodeAddr nMax a .word = some (.reg, i) ↔ a.toNat = i ∧ i ≤ 0xFF ∧ i % 4 = 0 := by
  simp only [decodeAddr, decodeReg, decodeT, decodeSa]
  constructor
  · intro h
    split at h
    · next h0 =>
      simp at h
      omega
    · split at h
      · simp at h
      · split at h <;> simp at h
  · rintro ⟨rfl, h, h4⟩
    simp [h, h4]

theorem decodeAddr_reg {nMax : Nat} {a : Addr} (h : a.toNat ≤ 0xFF) (h4 : a.toNat % 4 = 0) :
    decodeAddr nMax a .word = some (.reg, a.toNat) :=
  decodeAddr_reg_iff.2 ⟨rfl, h, h4⟩

/-- Bit by bit, a word of four bytes. -/
theorem wordOfBytes_getLsbD (b0 b1 b2 b3 : Byte) (k : Nat) :
    (wordOfBytes b0 b1 b2 b3).getLsbD k =
      if k < 8 then b0.getLsbD k else if k < 16 then b1.getLsbD (k - 8)
      else if k < 24 then b2.getLsbD (k - 16) else b3.getLsbD (k - 24) := by
  change (b3 ++ b2 ++ b1 ++ b0 : BitVec (8 + 8 + 8 + 8)).getLsbD k = _
  simp only [BitVec.getLsbD_append]
  grind

/-- The four bytes of a word of four bytes. -/
@[simp] theorem bytesOfWord_wordOfBytes (b0 b1 b2 b3 : Byte) :
    bytesOfWord (wordOfBytes b0 b1 b2 b3) = [b0, b1, b2, b3] := by
  simp only [bytesOfWord, List.cons.injEq, and_true]
  refine ⟨?_, ?_, ?_, ?_⟩ <;> · ext i hi; simp [wordOfBytes_getLsbD]; grind

@[simp] theorem bytesOfWord_length (w : Word) : (bytesOfWord w).length = 4 := rfl

/-- The address of `T[i]`, as a number. -/
theorem tAddr_toNat {nMax i : Nat} (hn : nMax ≤ Config.nMaxLimit) (h : i < Config.tDepth nMax) :
    (BitVec.ofNat 23 (0x100000 + i)).toNat = tBase + i := by
  have := (depths_fit hn).1
  simp [tBase]
  omega

/-- The address of `SA[i]`, as a number. -/
theorem saAddr_toNat {nMax i : Nat} (hn : nMax ≤ Config.nMaxLimit) (h : i < Config.saDepth nMax) :
    (BitVec.ofNat 23 (0x400000 + 4 * i)).toNat = saBase + 4 * i := by
  have := (depths_fit hn).2
  simp [saBase]
  omega

end Sys2Proof.Machine
end

