-- ==== Sys2Proof/Laws/Ops.lean ====
section
/-! SUPPORT. What the shared operations over memory and status can do. -/

namespace Sys2Proof.Machine

/-! ## Reads -/

theorem readT_written {i : Nat} {s : State} {b : Byte} (h : Memory.read s.tMem i = some b) : readT i s = (b, s) := by
  simp [readT, h]

theorem readT_unwritten {i : Nat} {s : State} (h : Memory.read s.tMem i = none) :
    readT i s = (Config.freeByte s.draws, s.drawn 1) := by
  simp [readT, h]

/-- A read of a `T` byte changes nothing but the count of draws. -/
theorem readT_state (i : Nat) (s : State) : ∃ k, (readT i s).2 = s.drawn k := by
  unfold readT
  split
  · exact ⟨0, rfl⟩
  · exact ⟨1, rfl⟩

/-- A read of a `T` word changes nothing but the count of draws. -/
theorem readT32_state (i : Nat) (s : State) : ∃ k, (readT32 i s).2 = s.drawn k := by
  simp only [readT32]
  obtain ⟨k0, h0⟩ := readT_state i s
  obtain ⟨k1, h1⟩ := readT_state (i + 1) (readT i s).2
  obtain ⟨k2, h2⟩ := readT_state (i + 2) (readT (i + 1) (readT i s).2).2
  obtain ⟨k3, h3⟩ := readT_state (i + 3) (readT (i + 2) (readT (i + 1) (readT i s).2).2).2
  exact ⟨k0 + k1 + k2 + k3, by rw [h3, h2, h1, h0]; simp [State.drawn, Nat.add_assoc]⟩

theorem readT32_written {i : Nat} {s : State} {b0 b1 b2 b3 : Byte} (h0 : Memory.read s.tMem i = some b0)
    (h1 : Memory.read s.tMem (i + 1) = some b1) (h2 : Memory.read s.tMem (i + 2) = some b2)
    (h3 : Memory.read s.tMem (i + 3) = some b3) : readT32 i s = (wordOfBytes b0 b1 b2 b3, s) := by
  simp [readT32, readT, h0, h1, h2, h3]

/-- A read of an `SA` word changes nothing but the count of draws. -/
theorem readSa_state (i : Nat) (s : State) : ∃ k, (readSa i s).2 = s.drawn k := by
  unfold readSa
  split
  · exact ⟨1, rfl⟩
  · split
    · exact ⟨0, rfl⟩
    · exact ⟨1, rfl⟩

/-! ## Busy refusal -/

@[simp] theorem unlessBusy_busy {w : State → State} {s : State} (h : s.status.busy = true) :
    unlessBusy w s = refuseWrite s := by
  simp [unlessBusy, h]

@[simp] theorem unlessBusy_idle {w : State → State} {s : State} (h : s.status.busy = false) :
    unlessBusy w s = w s := by
  simp [unlessBusy, h]

end Sys2Proof.Machine
end

