-- ==== Sys2Proof/Laws/Exec.lean ====
section
/-! SUPPORT. What an instruction can do: each meaning by its window, and the frame every meaning keeps. -/

namespace Sys2Proof.Machine

/-! ## The outcomes of the shared command operations -/

/-- The four outcomes of `bwt_start` (41_commands.md R142, 60_exceptions.md R212). -/
theorem bwtStart_cases (s : State) :
    (s.nMax.toNat < s.len.toNat ∧ bwtStart s = setError .len s) ∨
    (s.len.toNat ≤ s.nMax.toNat ∧ 1 ≤ s.len.toNat ∧ inputWritten s s.len.toNat = false ∧
      bwtStart s = raiseFault .unwrittenInput s) ∨
    (s.len.toNat ≤ s.nMax.toNat ∧ 1 ≤ s.len.toNat ∧ inputWritten s s.len.toNat = true ∧
      wrapByteOk s s.len.toNat = false ∧ bwtStart s = setError .wrap s) ∨
    (s.len.toNat ≤ s.nMax.toNat ∧ (1 ≤ s.len.toNat → inputWritten s s.len.toNat = true ∧
      wrapByteOk s s.len.toNat = true) ∧ bwtStart s = acceptBwt s) := by
  simp only [bwtStart]
  split
  · next h => exact .inl ⟨h, rfl⟩
  · next h0 =>
    split
    · next h => exact .inr (.inl ⟨by omega, h.1, h.2, rfl⟩)
    · next h1 =>
      split
      · next h => exact .inr (.inr (.inl ⟨by omega, h.1, by grind, h.2, rfl⟩))
      · next h2 => exact .inr (.inr (.inr ⟨by omega, fun h => ⟨by grind, by grind⟩, rfl⟩))

/-- Every byte of the input is written exactly if each is (41_commands.md R142). -/
theorem inputWritten_iff {s : State} {n : Nat} :
    inputWritten s n = true ↔ ∀ j, j ≤ n → Memory.read s.tMem j ≠ none := by
  simp [inputWritten, Option.isSome_iff_ne_none]

theorem wrapByteOk_iff {s : State} {n : Nat} :
    wrapByteOk s n = true ↔ Memory.read s.tMem n = Memory.read s.tMem 0 := by
  simp [wrapByteOk]

/-! ## Meanings by window -/

theorem execRd8_mapped {a : Addr} {i : Nat} (s : State) (hn : s.nMax.toNat ≤ Config.nMaxLimit)
    (h : a.toNat = tBase + i) (hi : i < Config.tDepth s.nMax.toNat) :
    execRd8 a s = .next ((readT i s).2.setRes ((readT i s).1.setWidth 32)) := by
  simp only [execRd8, (decodeAddr_byte hn).2 ⟨rfl, h, hi⟩]

theorem execRd32_reg {a : Addr} (s : State) (h : a.toNat ≤ 0xFF) (h4 : a.toNat % 4 = 0) :
    execRd32 a s = .next (s.setRes (readReg a.toNat s)) := by
  simp only [execRd32, decodeAddr_reg h h4, readWord]

theorem execRd32_tMem {a : Addr} {i : Nat} (s : State) (hn : s.nMax.toNat ≤ Config.nMaxLimit)
    (h : a.toNat = tBase + i) (h4 : i % 4 = 0) (hi : i + 3 < Config.tDepth s.nMax.toNat) :
    execRd32 a s = .next ((readT32 i s).2.setRes (readT32 i s).1) := by
  simp only [execRd32, (decodeAddr_word hn).2 (.inr (.inl ⟨rfl, h, h4, hi⟩)), readWord]

theorem execRd32_saMem {a : Addr} {i : Nat} (s : State) (hn : s.nMax.toNat ≤ Config.nMaxLimit)
    (h : a.toNat = saBase + 4 * i) (hi : i < Config.saDepth s.nMax.toNat) :
    execRd32 a s = .next ((readSa i s).2.setRes (readSa i s).1) := by
  simp only [execRd32, (decodeAddr_word hn).2 (.inr (.inr ⟨rfl, h, hi⟩)), readWord]

theorem execWr8_mapped {a : Addr} {i : Nat} (b : Byte) (s : State) (hn : s.nMax.toNat ≤ Config.nMaxLimit)
    (h : a.toNat = tBase + i) (hi : i < Config.tDepth s.nMax.toNat) :
    execWr8 a b s = .next (unlessBusy (writeT i b) s) := by
  simp only [execWr8, (decodeAddr_byte hn).2 ⟨rfl, h, hi⟩]

theorem execWr32_reg {a : Addr} (w : Word) (s : State) (h : a.toNat ≤ 0xFF) (h4 : a.toNat % 4 = 0) :
    execWr32 a w s = .next (writeReg a.toNat w s) := by
  simp only [execWr32, decodeAddr_reg h h4, writeWord]

theorem execWr32_tMem {a : Addr} {i : Nat} (w : Word) (s : State) (hn : s.nMax.toNat ≤ Config.nMaxLimit)
    (h : a.toNat = tBase + i) (h4 : i % 4 = 0) (hi : i + 3 < Config.tDepth s.nMax.toNat) :
    execWr32 a w s = .next (unlessBusy (writeT32 i w) s) := by
  simp only [execWr32, (decodeAddr_word hn).2 (.inr (.inl ⟨rfl, h, h4, hi⟩)), writeWord]

theorem execWr32_saMem {a : Addr} {i : Nat} (w : Word) (s : State) (hn : s.nMax.toNat ≤ Config.nMaxLimit)
    (h : a.toNat = saBase + 4 * i) (hi : i < Config.saDepth s.nMax.toNat) :
    execWr32 a w s = .next (unlessBusy (writeSa i w) s) := by
  simp only [execWr32, (decodeAddr_word hn).2 (.inr (.inr ⟨rfl, h, hi⟩)), writeWord]

/-! ## The frame of every instruction -/

/-- What every instruction leaves alone: the reset input, the host but for `RES`, `START_PTR`, `N_MAX`, a fault already
marked, and the engine but for starting it; and, while the engine runs, all but `VIOL`, `RES`, `IRQ_EN`, the fault
mark and the count of draws. -/
structure ExecFrame (s t : State) : Prop where
  resetIn  : t.resetIn = s.resetIn
  agent    : t.agent = { s.agent with res := t.agent.res }
  startPtr : t.startPtr = s.startPtr
  nMax     : t.nMax = s.nMax
  engine   : t.engine = s.engine ∨ t.engine.phase = .classify
  fault    : s.modelFault ≠ none → t.modelFault ≠ none
  busy     : s.status.busy = true →
    t = { s with
      status := { s.status with viol := t.status.viol }
      irqEn := t.irqEn
      modelFault := t.modelFault
      agent := t.agent
      draws := t.draws }

theorem ExecFrame.refl (s : State) : ExecFrame s s := ⟨rfl, rfl, rfl, rfl, .inl rfl, id, fun _ => rfl⟩

theorem raiseFault_execFrame (r : Fault) (s : State) : ExecFrame s (raiseFault r s) :=
  ⟨rfl, rfl, rfl, rfl, .inl rfl, fun _ => by simp [raiseFault], fun _ => rfl⟩

theorem read_execFrame (s : State) (k : Nat) (v : Word) : ExecFrame s ((s.drawn k).setRes v) :=
  ⟨rfl, rfl, rfl, rfl, .inl rfl, id, fun _ => rfl⟩

theorem refuseWrite_execFrame (s : State) : ExecFrame s (refuseWrite s) :=
  ⟨rfl, rfl, rfl, rfl, .inl rfl, id, fun _ => rfl⟩

theorem unlessBusy_execFrame {f : State → State} {s : State}
    (h : s.status.busy = false → ExecFrame s (f s)) : ExecFrame s (unlessBusy f s) := by
  cases hb : s.status.busy with
  | true => rw [unlessBusy_busy hb]; exact refuseWrite_execFrame s
  | false => rw [unlessBusy_idle hb]; exact h hb

theorem setError_execFrame (c : ErrCode) {s : State} (h : s.status.busy = false) : ExecFrame s (setError c s) :=
  ⟨rfl, rfl, rfl, rfl, .inl rfl, id, by simp [h]⟩

theorem clearStatus_execFrame {s : State} (h : s.status.busy = false) : ExecFrame s (clearStatus s) :=
  ⟨rfl, rfl, rfl, rfl, .inl rfl, id, by simp [h]⟩

theorem bwtStart_execFrame {s : State} (h : s.status.busy = false) : ExecFrame s (bwtStart s) := by
  rcases bwtStart_cases s with ⟨_, e⟩ | ⟨_, _, _, e⟩ | ⟨_, _, _, _, e⟩ | ⟨_, _, e⟩ <;> rw [e]
  · exact setError_execFrame _ h
  · exact raiseFault_execFrame _ s
  · exact setError_execFrame _ h
  · exact ⟨rfl, rfl, rfl, rfl, .inr rfl, id, by simp [h]⟩

theorem commandWrite_execFrame (w : Word) (s : State) : ExecFrame s (commandWrite w s) := by
  unfold commandWrite
  split
  · exact ExecFrame.refl s
  · split
    · exact refuseWrite_execFrame s
    · next hb =>
      have hb : s.status.busy = false := by simpa using hb
      split
      · exact bwtStart_execFrame hb
      · split
        · exact clearStatus_execFrame hb
        · exact setError_execFrame _ hb

theorem writeReg_execFrame (offset : Nat) (w : Word) (s : State) : ExecFrame s (writeReg offset w s) := by
  unfold writeReg
  split
  · exact commandWrite_execFrame w s
  · split
    · exact unlessBusy_execFrame fun h => ⟨rfl, rfl, rfl, rfl, .inl rfl, id, by simp [h]⟩
    · split
      · exact ⟨rfl, rfl, rfl, rfl, .inl rfl, id, fun _ => rfl⟩
      · exact ExecFrame.refl s

theorem writeWord_execFrame (win : Window) (i : Nat) (w : Word) (s : State) : ExecFrame s (writeWord win i w s) := by
  cases win
  · exact writeReg_execFrame i w s
  · exact unlessBusy_execFrame fun h => ⟨rfl, rfl, rfl, rfl, .inl rfl, id, by simp [h]⟩
  · exact unlessBusy_execFrame fun h => ⟨rfl, rfl, rfl, rfl, .inl rfl, id, by simp [h]⟩

/-- A word read changes nothing but the count of draws. -/
theorem readWord_state (win : Window) (i : Nat) (s : State) : ∃ k, (readWord win i s).2 = s.drawn k := by
  cases win
  · exact ⟨0, rfl⟩
  · exact readT32_state i s
  · exact readSa_state i s

/-- Every instruction answers a next state, and keeps the frame. -/
theorem exec_frame (i : Instr) (s : State) : ∃ t, exec i s = .next t ∧ ExecFrame s t := by
  cases i with
  | nop => exact ⟨s, rfl, ExecFrame.refl s⟩
  | bwt => exact ⟨_, rfl, unlessBusy_execFrame bwtStart_execFrame⟩
  | clear => exact ⟨_, rfl, unlessBusy_execFrame clearStatus_execFrame⟩
  | rd8 a =>
    simp only [exec, execRd8]
    split
    · exact ⟨_, rfl, raiseFault_execFrame _ s⟩
    · next j _ =>
      obtain ⟨k, hk⟩ := readT_state j s
      exact ⟨_, rfl, by rw [hk]; exact read_execFrame s k _⟩
  | rd32 a =>
    simp only [exec, execRd32]
    split
    · exact ⟨_, rfl, raiseFault_execFrame _ s⟩
    · next win j _ =>
      obtain ⟨k, hk⟩ := readWord_state win j s
      exact ⟨_, rfl, by rw [hk]; exact read_execFrame s k _⟩
  | wr8 a b =>
    simp only [exec, execWr8]
    split
    · exact ⟨_, rfl, raiseFault_execFrame _ s⟩
    · exact ⟨_, rfl, unlessBusy_execFrame fun h => ⟨rfl, rfl, rfl, rfl, .inl rfl, id, by simp [h]⟩⟩
  | wr32 a w =>
    simp only [exec, execWr32]
    split
    · exact ⟨_, rfl, raiseFault_execFrame _ s⟩
    · exact ⟨_, rfl, writeWord_execFrame _ _ w s⟩

/-- A write of `CMD` is a command write (41_commands.md R140). -/
theorem execWr32_cmd (s : State) (w : Word) : exec (.wr32 0x04#23 w) s = .next (commandWrite w s) := by
  simp only [exec]
  rw [execWr32_reg w s (by decide) (by decide)]
  rfl

end Sys2Proof.Machine
end

