-- ==== Sys2Proof/Laws/Refine.lean ====
section
/-! SUPPORT. TRSORT: every step of the refinement keeps what it has done so far, and at its end PA is in the order of its
rotations (42_bwt_engine.md R175, R176). -/

namespace Sys2Proof.Machine

/-! ## Counting by a key -/

theorem countP_lt_iff {g : List Nat} (κ : Nat → Nat) {p q : Nat} (hq : q ∈ g) :
    g.countP (fun z => decide (κ z < κ q)) < g.countP (fun z => decide (κ z < κ p)) ↔ κ q < κ p := by
  have mono : ∀ {a b : Nat}, a ≤ b →
      g.countP (fun z => decide (κ z < a)) ≤ g.countP (fun z => decide (κ z < b)) := by
    intro a b hab
    apply List.countP_mono_left
    intro z _ hz
    simp only [decide_eq_true_eq] at hz ⊢
    omega
  constructor
  · intro h
    by_contra hc
    have := mono (a := κ p) (b := κ q) (by omega)
    omega
  · intro h
    have h1 : g.countP (fun z => decide (κ z < κ q)) + g.countP (fun z => decide (κ z = κ q)) ≤
        g.countP (fun z => decide (κ z < κ p)) := by
      clear hq
      induction g with
      | nil => simp
      | cons z g ih =>
        simp only [List.countP_cons]
        have : ∀ {a b : Nat}, a ≤ b → g.countP (fun z => decide (κ z < a)) ≤ g.countP (fun z => decide (κ z < b)) := by
          intro a b hab
          apply List.countP_mono_left
          intro z _ hz
          simp only [decide_eq_true_eq] at hz ⊢
          omega
        have ih := ih this
        simp only [decide_eq_true_eq] at ih ⊢
        split_ifs <;> omega
    have h2 : 1 ≤ g.countP (fun z => decide (κ z = κ q)) := List.one_le_countP_iff.2 ⟨q, hq, by simp⟩
    omega

/-- Ranks that count the entries of lower rank. -/
def Counted (ps : List Nat) (r : Nat → Nat) : Prop :=
  ∀ p ∈ ps, r p = ps.countP (fun q => decide (r q < r p))

/-- How many entries have rank `a`. -/
abbrev groupSize (ps : List Nat) (r : Nat → Nat) (a : Nat) : Nat := ps.countP (fun p => decide (r p = a))

theorem countP_lt_add_groupSize (ps : List Nat) (r : Nat → Nat) {a b : Nat} (h : a < b) :
    ps.countP (fun q => decide (r q < a)) + groupSize ps r a ≤ ps.countP (fun q => decide (r q < b)) := by
  induction ps with
  | nil => simp
  | cons z g ih =>
    simp only [groupSize, List.countP_cons, decide_eq_true_eq] at ih ⊢
    split_ifs <;> omega

/-- Ranks leave room for the entries of lower rank. -/
theorem Counted.gap {ps : List Nat} {r : Nat → Nat} (h : Counted ps r) {p q : Nat} (hp : p ∈ ps) (hq : q ∈ ps)
    (hpq : r p < r q) : r p + groupSize ps r (r p) ≤ r q := by
  have h1 := h p hp
  have h2 := h q hq
  have := countP_lt_add_groupSize ps r hpq
  omega

theorem Counted.lt_length {ps : List Nat} {r : Nat → Nat} (h : Counted ps r) {p : Nat} (hp : p ∈ ps) :
    r p + groupSize ps r (r p) ≤ ps.length := by
  have h1 := h p hp
  have h2 := countP_lt_add_groupSize ps r (a := r p) (b := r p + 1) (by omega)
  have h3 : ps.countP (fun q => decide (r q < r p + 1)) ≤ ps.length := List.countP_le_length
  omega

/-- The ranks after the group of rank `a` is sorted by a key. -/
def splitRank (ps : List Nat) (r κ : Nat → Nat) (a p : Nat) : Nat :=
  if r p = a then a + (ps.filter (fun q => decide (r q = a))).countP (fun q => decide (κ q < κ p)) else r p

section Split
variable {ps : List Nat} {r κ : Nat → Nat} {a : Nat}

theorem splitRank_out {p : Nat} (h : r p ≠ a) : splitRank ps r κ a p = r p := if_neg h

theorem splitRank_in {p : Nat} (h : r p = a) : splitRank ps r κ a p =
    a + (ps.filter (fun q => decide (r q = a))).countP (fun q => decide (κ q < κ p)) := if_pos h

/-- The new ranks of a group stay in the room it had. -/
theorem splitRank_room {p : Nat} (hp : p ∈ ps) (h : r p = a) :
    a ≤ splitRank ps r κ a p ∧ splitRank ps r κ a p < a + groupSize ps r a := by
  rw [splitRank_in h]
  refine ⟨Nat.le_add_right _ _, ?_⟩
  have hm : p ∈ ps.filter (fun q => decide (r q = a)) := by simp [hp, h]
  have h1 := countP_lt_add_groupSize (ps.filter (fun q => decide (r q = a))) κ (a := κ p) (b := κ p + 1) (by omega)
  have h2 : 1 ≤ groupSize (ps.filter (fun q => decide (r q = a))) κ (κ p) :=
    List.one_le_countP_iff.2 ⟨p, hm, by simp⟩
  have h3 : (ps.filter (fun q => decide (r q = a))).countP (fun q => decide (κ q < κ p + 1)) ≤
      (ps.filter (fun q => decide (r q = a))).length := List.countP_le_length
  rw [← List.countP_eq_length_filter] at h3
  show a + _ < a + ps.countP _
  omega

/-- Which ranks are lower than which, after the split. -/
theorem splitRank_lt_iff (hc : Counted ps r) {p q : Nat} (hp : p ∈ ps) (hq : q ∈ ps) :
    splitRank ps r κ a q < splitRank ps r κ a p ↔ r q < r p ∨ (r q = a ∧ r p = a ∧ κ q < κ p) := by
  by_cases h1 : r q = a <;> by_cases h2 : r p = a
  · rw [splitRank_in h1, splitRank_in h2]
    have := countP_lt_iff (g := ps.filter (fun q => decide (r q = a))) κ (p := p) (q := q) (by simp [hq, h1])
    omega
  · have := splitRank_room (κ := κ) hq h1
    rw [splitRank_out h2]
    have hg : a < r p → a + groupSize ps r a ≤ r p := fun h => by
      have := hc.gap hq hp (by omega)
      rwa [h1] at this
    omega
  · have := splitRank_room (κ := κ) hp h2
    rw [splitRank_out h1]
    have hg : a < r q → a + groupSize ps r a ≤ r q := fun h => by
      have := hc.gap hp hq (by omega)
      rwa [h2] at this
    omega
  · rw [splitRank_out h1, splitRank_out h2]
    omega

theorem splitRank_eq_iff (hc : Counted ps r) {p q : Nat} (hp : p ∈ ps) (hq : q ∈ ps) :
    splitRank ps r κ a q = splitRank ps r κ a p ↔ r q = r p ∧ (r p = a → κ q = κ p) := by
  have h1 := splitRank_lt_iff (κ := κ) (a := a) hc hp hq
  have h2 := splitRank_lt_iff (κ := κ) (a := a) hc hq hp
  omega

theorem splitRank_counted (hc : Counted ps r) : Counted ps (splitRank ps r κ a) := by
  intro p hp
  have e : ps.countP (fun q => decide (splitRank ps r κ a q < splitRank ps r κ a p)) =
      ps.countP (fun q => decide (r q < r p ∨ (r q = a ∧ r p = a ∧ κ q < κ p))) := by
    apply List.countP_congr
    intro q hq
    simp only [decide_eq_true_eq]
    exact splitRank_lt_iff hc hp hq
  rw [e]
  by_cases h : r p = a
  · rw [splitRank_in h, List.countP_filter]
    have h1 := hc p hp
    rw [h] at h1 ⊢
    have key : ∀ l : List Nat, l.countP (fun q => decide (r q < a ∨ r q = a ∧ κ q < κ p)) =
        l.countP (fun q => decide (r q < a)) + l.countP (fun q => decide (κ q < κ p) && decide (r q = a)) := by
      intro l
      induction l with
      | nil => simp
      | cons z g ih =>
        simp only [List.countP_cons, ih, decide_eq_true_eq, Bool.and_eq_true]
        split_ifs <;> omega
    simp only [true_and]
    rw [key, ← h1]
  · rw [splitRank_out h]
    refine (hc p hp).trans ?_
    apply List.countP_congr
    intro q _
    simp [h]

/-- The group an entry is in after the split. -/
theorem splitRank_groupSize (hc : Counted ps r) {p : Nat} (hp : p ∈ ps) :
    groupSize ps (splitRank ps r κ a) (splitRank ps r κ a p) =
      if r p = a then ps.countP (fun q => decide (r q = a ∧ κ q = κ p)) else groupSize ps r (r p) := by
  have e : groupSize ps (splitRank ps r κ a) (splitRank ps r κ a p) =
      ps.countP (fun q => decide (r q = r p ∧ (r p = a → κ q = κ p))) := by
    apply List.countP_congr
    intro q hq
    simp only [decide_eq_true_eq]
    exact splitRank_eq_iff hc hp hq
  rw [e]
  split
  · next h => simp [h]
  · next h => simp [h]

end Split

/-! ## A group of ties in PA -/

theorem sorted_parts {l : List Nat} {r : Nat → Nat} (h : l.Pairwise (fun p q => r p ≤ r q)) (a : Nat) :
    l = l.filter (fun p => decide (r p < a)) ++
      (l.filter (fun p => decide (r p = a)) ++ l.filter (fun p => decide (a < r p))) := by
  induction l with
  | nil => rfl
  | cons x l ih =>
    rw [List.pairwise_cons] at h
    have ih := ih h.2
    have e1 : a ≤ r x → l.filter (fun p => decide (r p < a)) = [] := fun hx =>
      List.filter_eq_nil_iff.2 fun y hy => by have := h.1 y hy; simp; omega
    have e2 : a < r x → l.filter (fun p => decide (r p = a)) = [] := fun hx =>
      List.filter_eq_nil_iff.2 fun y hy => by have := h.1 y hy; simp; omega
    rcases lt_trichotomy (r x) a with c | c | c
    · simp only [List.filter_cons, c, c.ne, show ¬ a < r x by omega, decide_true, decide_false, if_true,
        Bool.false_eq_true, if_false, List.cons_append]
      rw [← ih]
    · simp only [List.filter_cons, c, lt_irrefl, decide_true, decide_false, if_true, Bool.false_eq_true, if_false]
      rw [e1 (by omega)] at ih ⊢
      simp only [List.nil_append, List.cons_append] at ih ⊢
      rw [← ih]
    · simp only [List.filter_cons, c, c.ne', show ¬ r x < a by omega, decide_true, decide_false, if_true,
        Bool.false_eq_true, if_false]
      rw [e1 (by omega), e2 c] at ih ⊢
      simp only [List.nil_append] at ih ⊢
      rw [← ih]

/-- Where a list in the order of a rank has the entries of one rank. -/
theorem sorted_group {l : List Nat} {r : Nat → Nat} (h : l.Pairwise (fun p q => r p ≤ r q)) (a : Nat) :
    l.take (l.countP (fun p => decide (r p < a))) = l.filter (fun p => decide (r p < a)) ∧
    (l.drop (l.countP (fun p => decide (r p < a)))).take (groupSize l r a) = l.filter (fun p => decide (r p = a)) ∧
    (l.drop (l.countP (fun p => decide (r p < a)))).drop (groupSize l r a) = l.filter (fun p => decide (a < r p)) := by
  have e := sorted_parts h a
  simp only [groupSize, List.countP_eq_length_filter]
  generalize l.filter (fun p => decide (r p < a)) = x at *
  generalize l.filter (fun p => decide (r p = a)) = y at *
  generalize l.filter (fun p => decide (a < r p)) = z at *
  subst e
  simp

variable {block : List Byte} {e : Engine} {pa isa : List Word}

/-- The ranks of a refinement. -/
abbrev rankOf (pa isa : List Word) (p : Nat) : Nat := rankAt (textOrder pa) isa p

theorem RefineInv.countP_lt (hI : RefineInv block e pa isa) {p : Nat} (hp : p ∈ textOrder pa) :
    (textOrder pa).countP (fun q => decide (rankOf pa isa q < rankOf pa isa p)) = rankOf pa isa p :=
  (hI.counted p hp).symm

/-- A group of ties stands together in PA, from the entry its rank names on. -/
theorem RefineInv.group (hI : RefineInv block e pa isa) {a : Nat} (ha : ∃ p ∈ textOrder pa, rankOf pa isa p = a) :
    (pa.map entryPos).take a = (pa.map entryPos).filter (fun p => decide (rankOf pa isa p < a)) ∧
    (rangeEntries (a, groupSize (textOrder pa) (rankOf pa isa) a) pa).map entryPos =
      (pa.map entryPos).filter (fun p => decide (rankOf pa isa p = a)) ∧
    ((pa.map entryPos).drop a).drop (groupSize (textOrder pa) (rankOf pa isa) a) =
      (pa.map entryPos).filter (fun p => decide (a < rankOf pa isa p)) ∧
    a + groupSize (textOrder pa) (rankOf pa isa) a ≤ pa.length := by
  obtain ⟨p, hp, rfl⟩ := ha
  have h1 := hI.countP_lt hp
  rw [(textOrder_perm pa).countP_eq] at h1
  have h2 := sorted_group hI.ordered (rankOf pa isa p)
  rw [h1] at h2
  have h3 : groupSize (textOrder pa) (rankOf pa isa) (rankOf pa isa p) =
      groupSize (pa.map entryPos) (rankOf pa isa) (rankOf pa isa p) := (textOrder_perm pa).countP_eq _
  refine ⟨h2.1, ?_, ?_, ?_⟩
  · rw [h3, rangeEntries, List.map_take, List.map_drop]
    exact h2.2.1
  · rw [h3]
    exact h2.2.2
  · have := Counted.lt_length (r := rankOf pa isa) hI.counted hp
    simpa using this

/-- The positions of the entries of a group, in text order. -/
theorem RefineInv.group_perm (hI : RefineInv block e pa isa) {a : Nat}
    (ha : ∃ p ∈ textOrder pa, rankOf pa isa p = a) :
    ((rangeEntries (a, groupSize (textOrder pa) (rankOf pa isa) a) pa).map entryPos).Perm
      ((textOrder pa).filter (fun p => decide (rankOf pa isa p = a))) := by
  rw [(hI.group ha).2.1]
  exact ((textOrder_perm pa).filter _).symm

/-- What `rerank` makes of the ranks. -/
theorem rankAt_rerank {ps : List Nat} {isa xs : List Word} {κ : Nat → Nat} {a : Nat} (hc : Counted ps (rankAt ps isa))
    (hl : ps.length < 2 ^ 32)
    (hx : (xs.map entryPos).Perm (ps.filter (fun p => decide (rankAt ps isa p = a)))) {p : Nat} (hp : p ∈ ps) :
    rankAt ps (rerank ps isa a xs κ) p = splitRank ps (rankAt ps isa) κ a p := by
  have e : ∀ p ∈ ps, (if p ∈ xs.map entryPos then a + xs.countP (fun y => decide (κ (entryPos y) < κ p))
      else rankAt ps isa p) = splitRank ps (rankAt ps isa) κ a p := by
    intro p hp
    have h1 : p ∈ xs.map entryPos ↔ rankAt ps isa p = a := by
      rw [hx.mem_iff, List.mem_filter]
      simp [hp]
    by_cases h : rankAt ps isa p = a
    · rw [if_pos (h1.2 h), splitRank_in h, ← hx.countP_eq, List.countP_map]
      rfl
    · rw [if_neg (fun h' => h (h1.1 h')), splitRank_out h]
  have hb : ∀ p ∈ ps, splitRank ps (rankAt ps isa) κ a p < 2 ^ 32 := by
    intro p hp
    have h1 := (splitRank_counted (κ := κ) (a := a) hc).lt_length hp
    have h2 : 1 ≤ groupSize ps (splitRank ps (rankAt ps isa) κ a) (splitRank ps (rankAt ps isa) κ a p) :=
      List.one_le_countP_iff.2 ⟨p, hp, by simp⟩
    omega
  rw [rerank, List.map_congr_left (g := fun p => BitVec.ofNat 32 (splitRank ps (rankAt ps isa) κ a p))
    (fun p hp => by rw [e p hp]), rankAt_map _ hb hp]

variable {block : List Byte} {e e' : Engine} {pa isa : List Word}

/-! ## A step that sorts the group of one frame -/

/-- The number of the first place among the entries of rank `a` that `κ` does not tell from `p`. -/
abbrev placeOf (ps : List Nat) (r κ : Nat → Nat) (a p : Nat) : Nat :=
  a + (ps.filter (fun q => decide (r q = a))).countP (fun q => decide (κ q < κ p))

/-- The group of rank `a` sorted by a key that agrees with the order of the rotations, with frames for the parts that
this round goes on with in place of its own. -/
theorem RefineInv.split {a : Nat} {κ : Nat → Nat} {xs : List Word} {rest parts : List Frame}
    (hI : RefineInv block e pa isa) (hl : pa.length < 2 ^ 32) (ha : ∃ p ∈ textOrder pa, rankOf pa isa p = a)
    (hcur : a + groupSize (textOrder pa) (rankOf pa isa) a ≤ e.taken)
    (hrest : ∀ f ∈ rest, f ∈ framesOf e ∧ (frameRange e.pa f).1 ≠ a)
    (hap : rest.Pairwise (fun f g => (frameRange e.pa f).1 ≠ (frameRange e.pa g).1))
    (hother : ∀ f ∈ framesOf e, f ∈ rest ∨ (frameRange e.pa f).1 = a)
    (hf' : framesOf e' = rest ++ parts) (he : e'.pa = e.pa ∧ e'.taken = e.taken ∧ e'.depth = e.depth)
    (hxs : (xs.map entryPos).Perm
      ((rangeEntries (a, groupSize (textOrder pa) (rankOf pa isa) a) pa).map entryPos))
    (hsort : (xs.map entryPos).Pairwise (fun p q => κ p ≤ κ q))
    (hsound : ∀ p ∈ textOrder pa, ∀ q ∈ textOrder pa, rankOf pa isa p = a → rankOf pa isa q = a → κ p < κ q →
      lexLt (rotation block p) (rotation block q) = true)
    (hmark : ∀ x ∈ xs, x.msb = true → ∀ q ∈ textOrder pa, rankOf pa isa q = a → κ q = κ (entryPos x) →
      rotation block q = rotation block (entryPos x))
    (hparts : ∀ g ∈ parts, e.pa.base ≤ g.first.toNat ∧ g.depth.toNat = e.depth ∧ 2 ≤ (frameRange e.pa g).2 ∧
      ∃ p ∈ textOrder pa, rankOf pa isa p = a ∧
        (frameRange e.pa g).1 = placeOf (textOrder pa) (rankOf pa isa) κ a p ∧
        (frameRange e.pa g).2 = (textOrder pa).countP (fun q => decide (rankOf pa isa q = a ∧ κ q = κ p)))
    (hpap : parts.Pairwise (fun f g => (frameRange e.pa f).1 ≠ (frameRange e.pa g).1))
    (hpass : ∀ p ∈ textOrder pa, ∀ q ∈ textOrder pa, rankOf pa isa p = a → rankOf pa isa q = a → κ p = κ q →
      (∀ g ∈ parts, (frameRange e.pa g).1 ≠ placeOf (textOrder pa) (rankOf pa isa) κ a p) →
      AgreeAhead block (textOrder pa) (2 * e.depth) p q) :
    RefineInv block e' (onRange a (groupSize (textOrder pa) (rankOf pa isa) a) (fun _ => xs) pa)
      (rerank (textOrder pa) isa a (rangeEntries (a, groupSize (textOrder pa) (rankOf pa isa) a) pa) κ) := by
  obtain ⟨e1, e2, e3⟩ := he
  obtain ⟨g1, g2, g3, g4⟩ := hI.group ha
  have hgp := hI.group_perm ha
  have hc : Counted (textOrder pa) (rankOf pa isa) := hI.counted
  have hr : ∀ p ∈ textOrder pa, rankAt (textOrder pa)
      (rerank (textOrder pa) isa a (rangeEntries (a, groupSize (textOrder pa) (rankOf pa isa) a) pa) κ) p =
      splitRank (textOrder pa) (rankOf pa isa) κ a p := fun p hp => rankAt_rerank hc (by simpa using hl) hgp hp
  -- the entries afterwards
  have hpa' : (onRange a (groupSize (textOrder pa) (rankOf pa isa) a) (fun _ => xs) pa).map entryPos =
      (pa.map entryPos).filter (fun p => decide (rankOf pa isa p < a)) ++ (xs.map entryPos ++
        (pa.map entryPos).filter (fun p => decide (a < rankOf pa isa p))) := by
    rw [← g1, ← g3]
    simp [onRange, List.map_take, List.map_drop]
  have hperm : ((onRange a (groupSize (textOrder pa) (rankOf pa isa) a) (fun _ => xs) pa).map entryPos).Perm
      (pa.map entryPos) := by
    rw [hpa', ← g1, ← g3]
    refine ((hxs.append_right _).append_left _).trans ?_
    rw [rangeEntries, List.map_take, List.map_drop, List.take_append_drop, List.take_append_drop]
  have hps : textOrder (onRange a (groupSize (textOrder pa) (rankOf pa isa) a) (fun _ => xs) pa) = textOrder pa :=
    textOrder_congr hperm
  have hlen : (onRange a (groupSize (textOrder pa) (rankOf pa isa) a) (fun _ => xs) pa).length = pa.length := by
    simpa using hperm.length_eq
  have hxa : ∀ x ∈ xs, entryPos x ∈ textOrder pa ∧ rankOf pa isa (entryPos x) = a := by
    intro x hx
    have := (hxs.trans hgp).mem_iff.1 (List.mem_map_of_mem hx)
    rw [List.mem_filter] at this
    simpa using this
  have hmem : ∀ x ∈ onRange a (groupSize (textOrder pa) (rankOf pa isa) a) (fun _ => xs) pa,
      x ∈ xs ∨ (x ∈ pa ∧ rankOf pa isa (entryPos x) ≠ a) := by
    intro x hx
    simp only [onRange, List.mem_append] at hx
    rcases hx with hx | hx | hx
    · have h1 : entryPos x ∈ (pa.map entryPos).take a := by
        rw [← List.map_take]
        exact List.mem_map_of_mem hx
      rw [g1, List.mem_filter] at h1
      have := h1.2
      simp only [decide_eq_true_eq] at this
      exact .inr ⟨List.mem_of_mem_take hx, by omega⟩
    · exact .inl hx
    · have h1 : entryPos x ∈ ((pa.map entryPos).drop a).drop (groupSize (textOrder pa) (rankOf pa isa) a) := by
        rw [← List.map_drop, ← List.map_drop]
        exact List.mem_map_of_mem hx
      rw [g3, List.mem_filter] at h1
      have := h1.2
      simp only [decide_eq_true_eq] at this
      exact .inr ⟨List.mem_of_mem_drop (List.mem_of_mem_drop hx), by omega⟩
  -- ranks of the frames that stay
  have hrk : ∀ f ∈ framesOf e, ∃ p ∈ textOrder pa, rankOf pa isa p = (frameRange e.pa f).1 := by
    intro f hf
    obtain ⟨_, _, h3, _, h5⟩ := hI.groups f hf
    obtain ⟨p, hp, h⟩ := List.one_le_countP_iff.1 (show 1 ≤ (textOrder pa).countP _ by rw [h5]; omega)
    exact ⟨p, hp, by simpa using h⟩
  have hroom : ∀ p ∈ textOrder pa, rankOf pa isa p = a →
      a ≤ splitRank (textOrder pa) (rankOf pa isa) κ a p ∧
      splitRank (textOrder pa) (rankOf pa isa) κ a p < a + groupSize (textOrder pa) (rankOf pa isa) a :=
    fun p hp h => splitRank_room hp h
  have hgap : ∀ p ∈ textOrder pa, a < rankOf pa isa p →
      a + groupSize (textOrder pa) (rankOf pa isa) a ≤ rankOf pa isa p := by
    intro p hp h
    obtain ⟨q, hq, hqa⟩ := ha
    have := hc.gap hq hp (by omega)
    rwa [hqa] at this
  have hlt := fun {p q : Nat} (hp : p ∈ textOrder pa) (hq : q ∈ textOrder pa) =>
    splitRank_lt_iff (κ := κ) (a := a) hc hp hq
  have heq := fun {p q : Nat} (hp : p ∈ textOrder pa) (hq : q ∈ textOrder pa) =>
    splitRank_eq_iff (κ := κ) (a := a) hc hp hq
  refine ⟨?_, ?_, ?_, ?_, ?_, ?_, ?_, ?_, ?_⟩ <;> try rw [hps]
  · -- ordered
    have hord := hI.ordered
    have conv : ∀ l : List Nat, (∀ p ∈ l, p ∈ textOrder pa) → l.Pairwise (fun p q =>
        splitRank (textOrder pa) (rankOf pa isa) κ a p ≤ splitRank (textOrder pa) (rankOf pa isa) κ a q) →
        l.Pairwise (fun p q => rankAt (textOrder pa)
          (rerank (textOrder pa) isa a (rangeEntries (a, groupSize (textOrder pa) (rankOf pa isa) a) pa) κ) p ≤
          rankAt (textOrder pa)
          (rerank (textOrder pa) isa a (rangeEntries (a, groupSize (textOrder pa) (rankOf pa isa) a) pa) κ) q) := by
      intro l hl' h
      refine h.imp_of_mem fun {p q} hp hq h => ?_
      rw [hr p (hl' p hp), hr q (hl' q hq)]
      exact h
    refine conv _ (fun p hp => mem_textOrder.2 (hperm.mem_iff.1 hp)) ?_
    rw [hpa', List.pairwise_append, List.pairwise_append]
    have hmm : ∀ p, p ∈ pa.map entryPos → p ∈ textOrder pa := fun p hp => mem_textOrder.2 hp
    refine ⟨?_, ⟨?_, ?_, ?_⟩, ?_⟩
    · refine (hord.filter _).imp_of_mem fun {p q} hp hq h => ?_
      have hp := List.mem_filter.1 hp
      have hq := List.mem_filter.1 hq
      simp only [decide_eq_true_eq] at hp hq
      rw [splitRank_out (by omega), splitRank_out (by omega)]
      exact h
    · refine hsort.imp_of_mem fun {p q} hp hq h => ?_
      obtain ⟨x, hx, rfl⟩ := List.mem_map.1 hp
      obtain ⟨y, hy, rfl⟩ := List.mem_map.1 hq
      have := hlt (hxa x hx).1 (hxa y hy).1
      have h1 := (hxa x hx).2
      have h2 := (hxa y hy).2
      omega
    · refine (hord.filter _).imp_of_mem fun {p q} hp hq h => ?_
      have hp := List.mem_filter.1 hp
      have hq := List.mem_filter.1 hq
      simp only [decide_eq_true_eq] at hp hq
      rw [splitRank_out (by omega), splitRank_out (by omega)]
      exact h
    · intro p hp q hq
      obtain ⟨x, hx, rfl⟩ := List.mem_map.1 hp
      have hq := List.mem_filter.1 hq
      simp only [decide_eq_true_eq] at hq
      have h1 := hroom _ (hxa x hx).1 (hxa x hx).2
      have h2 := hgap q (hmm q hq.1) hq.2
      rw [splitRank_out (p := q) (by omega)]
      omega
    · intro p hp q hq
      have hp := List.mem_filter.1 hp
      simp only [decide_eq_true_eq] at hp
      rw [splitRank_out (p := p) (by omega)]
      rcases List.mem_append.1 hq with hq | hq
      · obtain ⟨x, hx, rfl⟩ := List.mem_map.1 hq
        have h1 := hroom _ (hxa x hx).1 (hxa x hx).2
        omega
      · have hq := List.mem_filter.1 hq
        simp only [decide_eq_true_eq] at hq
        rw [splitRank_out (p := q) (by omega)]
        omega
  · -- counted
    intro p hp
    rw [hr p hp]
    refine (splitRank_counted (κ := κ) (a := a) hc p hp).trans (List.countP_congr fun q hq => ?_)
    rw [hr q hq]
  · -- sound
    intro p hp q hq h
    rw [hr p hp, hr q hq] at h
    rcases (hlt hq hp).1 h with h | ⟨h1, h2, h3⟩
    · exact hI.sound p hp q hq h
    · exact hsound p hp q hq h1 h2 h3
  · -- marked
    intro x hx hm q hq h
    rcases hmem x hx with hx | ⟨hx, hne⟩
    · rw [hr q hq, hr _ (hxa x hx).1] at h
      obtain ⟨h1, h2⟩ := (heq (hxa x hx).1 hq).1 h
      exact hmark x hx hm q hq (h1.trans (hxa x hx).2) (h2 (hxa x hx).2)
    · rw [hr q hq, hr _ (entryPos_mem_textOrder hx)] at h
      exact hI.marked x hx hm q hq ((heq (entryPos_mem_textOrder hx) hq).1 h).1
  · -- tied
    intro p hp q hq h
    rw [hr p hp, hr q hq] at h
    rw [e3]
    exact hI.tied p hp q hq ((heq hq hp).1 h).1
  · -- passed
    intro p hp q hq h ht hn
    rw [hr p hp, hr q hq] at h
    rw [hr p hp] at ht hn
    obtain ⟨h1, h2⟩ := (heq hq hp).1 h
    rw [e1, hf'] at hn
    rw [e2] at ht
    rw [e3]
    by_cases hpa : rankOf pa isa p = a
    · refine hpass p hp q hq hpa (h1.symm.trans hpa) (h2 (h1.symm.trans hpa)) fun g hg => ?_
      have := hn g (by simp [hg])
      rwa [splitRank_in hpa] at this
    · rw [splitRank_out hpa] at ht hn
      refine hI.passed p hp q hq h1 ht fun f hf hfe => ?_
      rcases hother f hf with hf | hf
      · exact hn f (by simp [hf]) hfe
      · exact hpa (hfe.symm.trans hf)
  · -- cursor
    rw [e2, hlen]
    refine ⟨hI.cursor.1, ?_⟩
    refine Eq.trans (List.countP_congr fun p hp => ?_) hI.cursor.2
    rw [hr p hp]
    by_cases h : rankOf pa isa p = a
    · have := hroom p hp h
      have : rankAt (textOrder pa) isa p = a := h
      simp only [decide_eq_true_eq]
      omega
    · rw [splitRank_out h]
  · -- groups
    intro f hf
    rw [hf'] at hf
    rw [e1, e2, e3]
    have count : ∀ p ∈ textOrder pa, (textOrder pa).countP (fun q => decide (rankAt (textOrder pa)
          (rerank (textOrder pa) isa a (rangeEntries (a, groupSize (textOrder pa) (rankOf pa isa) a) pa) κ) q =
          splitRank (textOrder pa) (rankOf pa isa) κ a p)) =
        groupSize (textOrder pa) (splitRank (textOrder pa) (rankOf pa isa) κ a)
          (splitRank (textOrder pa) (rankOf pa isa) κ a p) := by
      intro p _
      exact List.countP_congr fun q hq => by rw [hr q hq]
    rcases List.mem_append.1 hf with hf | hf
    · obtain ⟨h0, hne⟩ := hrest f hf
      obtain ⟨k1, k2, k3, k4, k5⟩ := hI.groups f h0
      refine ⟨k1, k2, k3, k4, ?_⟩
      obtain ⟨p, hp, hpe⟩ := hrk f h0
      have hpa : rankOf pa isa p ≠ a := by rw [hpe]; exact hne
      have := count p hp
      rw [splitRank_groupSize hc hp, if_neg hpa, splitRank_out hpa, hpe] at this
      rw [this]
      exact k5
    · obtain ⟨k1, k2, k3, p, hp, hpa, k4, k5⟩ := hparts f hf
      have hle : (textOrder pa).countP (fun q => decide (rankOf pa isa q = a ∧ κ q = κ p)) ≤
          groupSize (textOrder pa) (rankOf pa isa) a := List.countP_mono_left fun q _ hq => by
        simp only [decide_eq_true_eq] at hq ⊢
        exact hq.1
      have hspl := splitRank_counted (κ := κ) (a := a) hc
      have hlast := countP_lt_add_groupSize ((textOrder pa).filter (fun q => decide (rankOf pa isa q = a))) κ
        (a := κ p) (b := κ p + 1) (by omega)
      have hlen2 : ((textOrder pa).filter (fun q => decide (rankOf pa isa q = a))).countP
          (fun q => decide (κ q < κ p + 1)) ≤ _ := List.countP_le_length
      rw [← List.countP_eq_length_filter] at hlen2
      have hgs : groupSize ((textOrder pa).filter (fun q => decide (rankOf pa isa q = a))) κ (κ p) =
          (textOrder pa).countP (fun q => decide (rankOf pa isa q = a ∧ κ q = κ p)) := by
        rw [groupSize, List.countP_filter]
        exact List.countP_congr fun q _ => by simp [and_comm]
      refine ⟨k1, k2, k3, ?_, ?_⟩
      · rw [k4, k5, placeOf]
        have : groupSize (textOrder pa) (rankOf pa isa) a =
          (textOrder pa).countP (fun q => decide (rankOf pa isa q = a)) := rfl
        omega
      · have := count p hp
        rw [splitRank_groupSize hc hp, if_pos hpa, splitRank_in hpa] at this
        rw [k4, k5]
        exact this
  · -- apart
    rw [e1, hf', List.pairwise_append]
    refine ⟨hap, hpap, fun f hf g hg h => ?_⟩
    obtain ⟨h0, hne⟩ := hrest f hf
    obtain ⟨p, hp, hpe⟩ := hrk f h0
    obtain ⟨_, _, _, q, hq, hqa, k4, _⟩ := hparts g hg
    have h1 := hroom q hq hqa
    rw [splitRank_in hqa] at h1
    rw [k4, placeOf] at h
    rcases Nat.lt_or_ge a (rankOf pa isa p) with h2 | h2
    · have := hgap p hp h2
      omega
    · have : rankOf pa isa p ≠ a := by rw [hpe]; exact hne
      omega

/-! ## The B* suffixes ahead -/

/-- Positions in text order, inside a block of `n` bytes. -/
structure InText (n : Nat) (ps : List Nat) : Prop where
  rising : ps.Pairwise (· < ·)
  inside : ∀ p ∈ ps, p < n

theorem InText.nodup {n : Nat} {ps : List Nat} (h : InText n ps) : ps.Nodup :=
  h.rising.imp fun h => Nat.ne_of_lt h

theorem inText_textOrder {n : Nat} {pa : List Word} (hn : (pa.map entryPos).Nodup) (hp : ∀ x ∈ pa, entryPos x < n) :
    InText n (textOrder pa) := by
  refine ⟨?_, fun p h => ?_⟩
  · have h1 : (textOrder pa).Pairwise (· ≤ ·) := List.pairwise_insertionSort _ _
    have h2 : (textOrder pa).Nodup := (textOrder_perm pa).nodup_iff.2 hn
    exact (h1.and h2).imp fun h => Nat.lt_of_le_of_ne h.1 h.2
  · obtain ⟨x, hx, rfl⟩ := List.mem_map.1 (mem_textOrder.1 h)
    exact hp x hx

section
variable {n : Nat} {ps : List Nat} {h k p : Nat}

theorem ahead_eq (hp : p ∈ ps) : ∃ hlt, ahead ps h p = ps[(ps.idxOf p + h) % ps.length]'hlt := by
  have hm : 0 < ps.length := List.length_pos_of_mem hp
  exact ⟨Nat.mod_lt _ hm, by rw [ahead, List.getD_eq_getElem _ _ (Nat.mod_lt _ hm)]⟩

theorem ahead_mem (hp : p ∈ ps) : ahead ps h p ∈ ps := by
  obtain ⟨hlt, e⟩ := ahead_eq (h := h) hp
  rw [e]
  exact List.getElem_mem _

theorem idxOf_ahead (ht : InText n ps) (hp : p ∈ ps) : ps.idxOf (ahead ps h p) = (ps.idxOf p + h) % ps.length := by
  obtain ⟨hlt, e⟩ := ahead_eq (h := h) hp
  rw [e]
  exact ht.nodup.idxOf_getElem _ _

theorem ahead_add (ht : InText n ps) (hp : p ∈ ps) : ahead ps (h + k) p = ahead ps k (ahead ps h p) := by
  rw [ahead, ahead, idxOf_ahead ht hp, Nat.mod_add_mod, Nat.add_assoc]

/-- The B* suffix ahead stands at `p` or after it, counted around the block. -/
theorem le_ahead (ht : InText n ps) (hp : p ∈ ps) : p ≤ n * ((ps.idxOf p + h) / ps.length) + ahead ps h p := by
  have hi := List.idxOf_lt_length_of_mem hp
  have hpn := ht.inside p hp
  obtain ⟨hlt, e⟩ := ahead_eq (h := h) hp
  rcases Nat.lt_or_ge (ps.idxOf p + h) ps.length with h1 | h1
  · rw [Nat.div_eq_of_lt h1, e]
    simp only [Nat.mod_eq_of_lt h1]
    rcases Nat.eq_zero_or_pos h with rfl | h2
    · simp
    · have := List.pairwise_iff_getElem.1 ht.rising (ps.idxOf p) (ps.idxOf p + h) hi h1 (by omega)
      rw [List.getElem_idxOf] at this
      omega
  · have h2 : 1 ≤ (ps.idxOf p + h) / ps.length := (Nat.one_le_div_iff (by omega)).2 h1
    have := Nat.mul_le_mul_left n h2
    omega

theorem aheadDistance_add (ht : InText n ps) (hp : p ∈ ps) :
    aheadDistance n ps (h + k) p = aheadDistance n ps h p + aheadDistance n ps k (ahead ps h p) := by
  have hm : 0 < ps.length := List.length_pos_of_mem hp
  have h1 := le_ahead (h := h) ht hp
  have h2 := le_ahead (h := k) ht (ahead_mem (h := h) hp)
  simp only [aheadDistance]
  rw [ahead_add ht hp]
  rw [idxOf_ahead ht hp] at h2 ⊢
  have h3 : (ps.idxOf p + (h + k)) / ps.length =
      (ps.idxOf p + h) / ps.length + ((ps.idxOf p + h) % ps.length + k) / ps.length := by
    conv_lhs => rw [← Nat.add_assoc, ← Nat.div_add_mod (ps.idxOf p + h) ps.length, Nat.add_assoc]
    rw [Nat.mul_add_div hm]
  rw [h3, Nat.mul_add]
  omega

theorem add_aheadDistance_mod (ht : InText n ps) (hp : p ∈ ps) : (p + aheadDistance n ps h p) % n = ahead ps h p := by
  have h1 := le_ahead (h := h) ht hp
  rw [aheadDistance, Nat.add_sub_cancel' h1, Nat.mul_add_mod, Nat.mod_eq_of_lt (ht.inside _ (ahead_mem hp))]

theorem aheadDistance_one_le (ht : InText n ps) (hp : p ∈ ps) : aheadDistance n ps 1 p ≤ n := by
  have hi := List.idxOf_lt_length_of_mem hp
  have hpn := ht.inside p hp
  obtain ⟨hlt, e⟩ := ahead_eq (h := 1) hp
  have han := ht.inside _ (ahead_mem (h := 1) hp)
  rw [aheadDistance]
  rcases Nat.lt_or_ge (ps.idxOf p + 1) ps.length with h1 | h1
  · rw [Nat.div_eq_of_lt h1]
    omega
  · have h2 : ps.idxOf p + 1 = ps.length := by omega
    rw [h2, Nat.div_self (by omega)]
    simp only [h2, Nat.mod_self] at e
    have : ahead ps 1 p ≤ p := by
      rw [e]
      rcases Nat.eq_zero_or_pos (ps.idxOf p) with h3 | h3
      · have : ps[ps.idxOf p] = p := List.getElem_idxOf hi
        simp only [h3] at this
        omega
      · have := List.pairwise_iff_getElem.1 ht.rising 0 (ps.idxOf p) (by omega) hi h3
        rw [List.getElem_idxOf] at this
        omega
    omega

end

section
variable {block : List Byte} {ps : List Nat} {h p q : Nat}

theorem byteAt_ahead (ht : InText block.length ps) (hp : p ∈ ps) (j : Nat) :
    byteAt block j (ahead ps h p) = byteAt block (aheadDistance block.length ps h p + j) p := by
  rw [byteAt, byteAt, ← add_aheadDistance_mod (h := h) ht hp, Nat.mod_add_mod, Nat.add_assoc]

/-- Ties good for `h` whose B* suffixes ahead are ties good for `h` are good for twice that. -/
theorem AgreeAhead.double (ht : InText block.length ps) (hp : p ∈ ps) (hq : q ∈ ps)
    (hd : aheadDistance block.length ps h p = aheadDistance block.length ps h q) (h1 : AgreeAhead block ps h p q)
    (h2 : AgreeAhead block ps h (ahead ps h p) (ahead ps h q)) : AgreeAhead block ps (2 * h) p q := by
  intro he j hj
  rw [Nat.two_mul, aheadDistance_add ht hp] at hj
  rw [Nat.two_mul, aheadDistance_add ht hp, aheadDistance_add ht hq, hd] at he
  rcases Nat.lt_or_ge j (aheadDistance block.length ps h p) with hlt | hge
  · exact h1 hd j hlt
  · have := h2 (by omega) (j - aheadDistance block.length ps h p) (by omega)
    rw [byteAt_ahead ht hp, byteAt_ahead ht hq, ← hd, Nat.add_sub_cancel' hge] at this
    exact this

/-- The order of the B* suffixes ahead of ties is the order of the ties. -/
theorem lexLt_of_ahead (ht : InText block.length ps) (hp : p ∈ ps) (hq : q ∈ ps)
    (hd : aheadDistance block.length ps h p = aheadDistance block.length ps h q) (h1 : AgreeAhead block ps h p q)
    (h2 : lexLt (rotation block (ahead ps h p)) (rotation block (ahead ps h q)) = true) :
    lexLt (rotation block p) (rotation block q) = true := by
  rw [← prefixBefore_length, prefixBefore_iff (le_refl _) (ht.inside _ (ahead_mem hp))
    (ht.inside _ (ahead_mem hq))] at h2
  obtain ⟨k, hk, he, hlt⟩ := h2
  simp only [byteAt_ahead ht hp, byteAt_ahead ht hq, ← hd] at he hlt
  have hall : ∀ j, j < aheadDistance block.length ps h p + k → byteAt block j p = byteAt block j q := by
    intro j hj
    rcases Nat.lt_or_ge j (aheadDistance block.length ps h p) with h3 | h3
    · exact h1 hd j h3
    · have := he (j - aheadDistance block.length ps h p) (by omega)
      rwa [Nat.add_sub_cancel' h3] at this
  rw [← prefixBefore_length, prefixBefore_iff (le_refl _) (ht.inside p hp) (ht.inside q hq)]
  rcases Nat.lt_or_ge (aheadDistance block.length ps h p + k) block.length with h3 | h3
  · exact ⟨_, h3, hall, hlt⟩
  · exfalso
    have hr := (take_eq_iff (le_refl _) (ht.inside p hp) (ht.inside q hq)).2 fun j hj => hall j (by omega)
    rw [List.take_of_length_le (by simp), List.take_of_length_le (by simp)] at hr
    rw [byteAt_of_rotation_eq (ht.inside p hp) (ht.inside q hq) hr] at hlt
    exact lt_irrefl _ hlt

theorem AgreeAhead.of_rotation_eq (hp : p < block.length) (hq : q < block.length)
    (h' : rotation block p = rotation block q) : AgreeAhead block ps h p q :=
  fun _ j _ => byteAt_of_rotation_eq hp hq h' j

theorem AgreeAhead.refl (p : Nat) : AgreeAhead block ps h p p := fun _ _ _ => rfl
end

/-! ## The ranks by a number of bytes -/

theorem prefixRank_lt_iff {block : List Byte} {d : Nat} {pa : List Word} {p q : Nat} (hp : p ∈ pa.map entryPos) :
    prefixRank block d pa p < prefixRank block d pa q ↔ prefixBefore block d p q = true := by
  have mono : ∀ {a b : Nat}, prefixBefore block d b a = false →
      ∀ y : Word, prefixBefore block d (entryPos y) a = true → prefixBefore block d (entryPos y) b = true := by
    intro a b hab y hy
    by_contra hn
    unfold prefixBefore at *
    cases h2 : lexLt ((rotation block b).take d) ((rotation block (entryPos y)).take d)
    · have e := eq_of_not_lexLt (by simpa using hn) h2
      rw [e, hab] at hy
      simp at hy
    · rw [lexLt_trans h2 hy] at hab
      simp at hab
  constructor
  · intro h
    by_contra hc
    have : prefixRank block d pa q ≤ prefixRank block d pa p :=
      List.countP_mono_left fun y _ hy => by
        refine mono ?_ y hy
        simpa using hc
    omega
  · intro h
    obtain ⟨x, hx, rfl⟩ := List.mem_map.1 hp
    have hle : ∀ y ∈ pa, prefixBefore block d (entryPos y) (entryPos x) = true →
        prefixBefore block d (entryPos y) q = true := fun y _ hy => lexLt_trans hy h
    clear hp
    unfold prefixRank
    induction pa with
    | nil => simp at hx
    | cons a l ih =>
      simp only [List.countP_cons]
      have h1 := List.countP_mono_left (p := fun y => prefixBefore block d (entryPos y) (entryPos x))
        (q := fun y => prefixBefore block d (entryPos y) q) (l := l) fun y hy => hle y (by simp [hy])
      rcases List.mem_cons.1 hx with rfl | hx'
      · have : prefixBefore block d (entryPos x) (entryPos x) = false := by simp [prefixBefore]
        simp only [this, h, Bool.false_eq_true, if_false, if_true]
        omega
      · have h2 := ih hx' fun y hy => hle y (by simp [hy])
        have h3 := hle a (by simp)
        split_ifs with c1 c2
        · omega
        · exact absurd (h3 c1) c2
        · omega
        · omega

theorem prefixRank_eq_iff {block : List Byte} {d : Nat} {pa : List Word} {p q : Nat} (hp : p ∈ pa.map entryPos)
    (hq : q ∈ pa.map entryPos) :
    prefixRank block d pa p = prefixRank block d pa q ↔ (rotation block p).take d = (rotation block q).take d := by
  have h1 := prefixRank_lt_iff (block := block) (d := d) (q := q) hp
  have h2 := prefixRank_lt_iff (block := block) (d := d) (q := p) hq
  constructor
  · intro h
    refine eq_of_not_lexLt ?_ ?_
    · by_contra hc
      have := h1.2 (by simpa [prefixBefore] using hc)
      omega
    · by_contra hc
      have := h2.2 (by simpa [prefixBefore] using hc)
      omega
  · intro h
    have h3 : ¬ prefixRank block d pa p < prefixRank block d pa q := by
      rw [h1, prefixBefore, h]
      simp
    have h4 : ¬ prefixRank block d pa q < prefixRank block d pa p := by
      rw [h2, prefixBefore, h]
      simp
    omega

theorem lexLt_of_prefixBefore {block : List Byte} {d p q : Nat} (hd : d ≤ block.length) (hp : p < block.length)
    (hq : q < block.length) (h : prefixBefore block d p q = true) :
    lexLt (rotation block p) (rotation block q) = true := by
  obtain ⟨k, hk, he, hl⟩ := (prefixBefore_iff hd hp hq).1 h
  rw [← prefixBefore_length, prefixBefore_iff (le_refl _) hp hq]
  exact ⟨k, by omega, he, hl⟩

theorem eq_of_countP_le_one {α : Type} {l : List α} {p : α → Bool} (h : l.countP p ≤ 1) {x y : α} (hx : x ∈ l)
    (hy : y ∈ l) (px : p x = true) (py : p y = true) : x = y := by
  rw [List.countP_eq_length_filter] at h
  have hx' := List.mem_filter.2 ⟨hx, px⟩
  have hy' := List.mem_filter.2 ⟨hy, py⟩
  match hl : l.filter p with
  | [] => simp [hl] at hx'
  | [z] => simp [hl] at hx' hy'; rw [hx', hy']
  | _ :: _ :: _ => simp [hl] at h

@[simp] theorem entryOf_msb (w : Word) : (entryOf (entryPos w)).msb = false := by
  have := entryPos_lt w
  simp [entryOf, BitVec.msb_eq_decide]
  omega

@[simp] theorem entryDone_msb (w : Word) : (entryDone (entryPos w)).msb = true := by
  simp [entryDone]

/-! ## The refinement: where it starts and ends -/

/-- The refinement starts from the order of the substrings and the ranks by them. -/
theorem RefineInv.start {block : List Byte} {n : Nat} {w : SortWork} (hn : block.length = n)
    (ht : InText n (textOrder w.pa)) (hl : w.pa.length < 2 ^ 32) (h0 : w.engine.ssize = 0)
    (hs : w.pa.Pairwise (PrefixLe block (substringDepth n (textOrder w.pa)))) :
    RefineInv block (startRefinement block n w).engine (startRefinement block n w).pa
      (startRefinement block n w).isa := by
  subst hn
  have hd := substringDepth_le block.length (textOrder w.pa)
  simp only [startRefinement]
  have hps : textOrder (markDone block (substringDepth block.length (textOrder w.pa)) w.pa) = textOrder w.pa :=
    textOrder_congr (by rw [markDone_positions])
  have hD := fun p hp => le_substringDepth (ps := textOrder w.pa) (p := p) hp (aheadDistance_one_le ht hp)
  generalize substringDepth block.length (textOrder w.pa) = d at *
  have hr : ∀ p ∈ textOrder w.pa, rankAt (textOrder w.pa) (ranks block d w.pa) p = prefixRank block d w.pa p := by
    intro p hp
    refine rankAt_map _ (fun p _ => ?_) hp
    have : prefixRank block d w.pa p ≤ w.pa.length := List.countP_le_length
    omega
  have hm : ∀ {p : Nat}, p ∈ textOrder w.pa → p ∈ w.pa.map entryPos := fun hp => mem_textOrder.1 hp
  have hfr : framesOf { w.engine with budget := Config.trBudgetInit, depth := 1, taken := 0 } = [] := framesOf_zero h0
  refine ⟨?_, ?_, ?_, ?_, ?_, ?_, ?_, by rw [hfr]; simp, by rw [hfr]; simp⟩ <;> rw [hps]
  · rw [markDone_positions, List.pairwise_map]
    refine hs.imp_of_mem fun {x y} hx hy h => ?_
    rw [hr _ (entryPos_mem_textOrder hx), hr _ (entryPos_mem_textOrder hy)]
    by_contra hc
    have := (prefixRank_lt_iff (block := block) (d := d) (q := entryPos x) (List.mem_map_of_mem hy)).1 (by omega)
    rw [h] at this
    simp at this
  · intro p hp
    rw [hr p hp, prefixRank, (textOrder_perm w.pa).countP_eq, List.countP_map]
    refine List.countP_congr fun y hy => ?_
    simp only [Function.comp, decide_eq_true_eq]
    rw [hr _ (entryPos_mem_textOrder hy), ← prefixRank]
    exact (prefixRank_lt_iff (List.mem_map_of_mem hy)).symm
  · intro p hp q hq h
    rw [hr p hp, hr q hq, prefixRank_lt_iff (hm hp)] at h
    exact lexLt_of_prefixBefore hd (ht.inside p hp) (ht.inside q hq) h
  · intro x hx hmk q hq h
    simp only [markDone, List.mem_map] at hx
    obtain ⟨y, hy, rfl⟩ := hx
    split at hmk
    · next h1 =>
      rw [if_pos h1, entryPos_entryDone (entryPos_lt y)] at h ⊢
      rw [hr q hq, hr _ (entryPos_mem_textOrder hy), prefixRank_eq_iff (hm hq) (List.mem_map_of_mem hy)] at h
      obtain ⟨z, hz, rfl⟩ := List.mem_map.1 (hm hq)
      rw [eq_of_countP_le_one h1 hz hy (by simpa using h) (by simp)]
    · simp at hmk
  · intro p hp q hq h he j hj
    rw [hr p hp, hr q hq, prefixRank_eq_iff (hm hp) (hm hq)] at h
    have hj : j < aheadDistance block.length (textOrder w.pa) 1 p := hj
    have := hD p hp
    exact (take_eq_iff hd (ht.inside p hp) (ht.inside q hq)).1 h j (by omega)
  · intro p _ q _ _ h
    simp at h
  · exact ⟨by simp, by simp⟩

/-- The end of the refinement: PA is in the order of the rotations. -/
theorem RefineInv.done {block : List Byte} {w : SortWork} (hI : RefineInv block w.engine w.pa w.isa)
    (h : refinementDone w = true) : (w.pa.map entryPos).Pairwise (RowLe block) := by
  simp only [refinementDone, Bool.and_eq_true, allDone, List.all_eq_true] at h
  refine hI.ordered.imp_of_mem fun {p q} hp hq hle => ?_
  rcases Nat.lt_or_ge (rankAt (textOrder w.pa) w.isa p) (rankAt (textOrder w.pa) w.isa q) with h1 | h1
  · exact lexLt_asymm (hI.sound p (mem_textOrder.2 hp) q (mem_textOrder.2 hq) h1)
  · obtain ⟨x, hx, rfl⟩ := List.mem_map.1 hp
    have := hI.marked x hx (h.2 x hx) q (mem_textOrder.2 hq) (by omega)
    rw [RowLe, this]
    simp

/-! ## The steps of the refinement -/

/-- Where the ranks, the stack and the cursor stay, the refinement stands as before. -/
theorem RefineInv.congr (hI : RefineInv block e pa isa) (hf : framesOf e' = framesOf e) (hp : e'.pa = e.pa)
    (ht : e'.taken = e.taken) (hd : e'.depth = e.depth) : RefineInv block e' pa isa := by
  obtain ⟨a, b, c, d, f, g, h, i, j⟩ := hI
  exact ⟨a, b, c, d, by rwa [hd], by rwa [ht, hf, hp, hd], by rwa [ht], by rwa [hf, hp, hd, ht], by rwa [hf, hp]⟩

/-- A frame whose ties are all equal rotations is done with. -/
theorem RefineInv.drop (hI : RefineInv block e pa isa) (ht : InText block.length (textOrder pa)) {f : Frame}
    (hf : framesOf e = framesOf e' ++ [f]) (he : e'.pa = e.pa ∧ e'.taken = e.taken ∧ e'.depth = e.depth)
    (hr : ∀ p ∈ textOrder pa, ∀ q ∈ textOrder pa, rankOf pa isa p = (frameRange e.pa f).1 →
      rankOf pa isa q = (frameRange e.pa f).1 → rotation block p = rotation block q) : RefineInv block e' pa isa := by
  obtain ⟨h1, h2, h3⟩ := he
  have hsub : ∀ g ∈ framesOf e', g ∈ framesOf e := fun g hg => by simp [hf, hg]
  refine ⟨hI.ordered, hI.counted, hI.sound, hI.marked, by rw [h3]; exact hI.tied, ?_, by rw [h2]; exact hI.cursor,
    by rw [h1, h2, h3]; exact fun g hg => hI.groups g (hsub g hg), ?_⟩
  · rw [h1, h2, h3]
    intro p hp q hq hpq hlt hn
    by_cases hc : (frameRange e.pa f).1 = rankAt (textOrder pa) isa p
    · exact AgreeAhead.of_rotation_eq (ht.inside p hp) (ht.inside q hq)
        (hr p hp q hq hc.symm (hpq.symm.trans hc.symm))
    · refine hI.passed p hp q hq hpq hlt fun g hg => ?_
      rw [hf, List.mem_append] at hg
      rcases hg with hg | hg
      · exact hn g hg
      · obtain rfl : g = f := by simpa using hg
        exact hc
  · rw [h1]
    have := hI.apart
    rw [hf, List.pairwise_append] at this
    exact this.1

/-- The group of a frame. -/
theorem RefineInv.frame_group (hI : RefineInv block e pa isa) {f : Frame} (hf : f ∈ framesOf e) :
    frameRange e.pa f =
      ((frameRange e.pa f).1, groupSize (textOrder pa) (rankOf pa isa) (frameRange e.pa f).1) ∧
    ∃ p ∈ textOrder pa, rankOf pa isa p = (frameRange e.pa f).1 := by
  obtain ⟨h1, h2, h3, h4, h5⟩ := hI.groups f hf
  refine ⟨Prod.ext rfl h5.symm, ?_⟩
  obtain ⟨p, hp, h⟩ := List.one_le_countP_iff.1 (show 1 ≤ (textOrder pa).countP _ by rw [h5]; omega)
  exact ⟨p, hp, by simpa using h⟩

/-- A group whose entries are all marked holds equal rotations. -/
theorem RefineInv.allDone_group (hI : RefineInv block e pa isa) {a : Nat}
    (ha : ∃ p ∈ textOrder pa, rankOf pa isa p = a)
    (hd : allDone (rangeEntries (a, groupSize (textOrder pa) (rankOf pa isa) a) pa) = true) :
    ∀ p ∈ textOrder pa, ∀ q ∈ textOrder pa, rankOf pa isa p = a → rankOf pa isa q = a →
      rotation block p = rotation block q := by
  intro p hp q hq h1 h2
  have hm := (hI.group_perm ha).symm.mem_iff.1 (show p ∈ _ from List.mem_filter.2 ⟨hp, by simpa using h1⟩)
  obtain ⟨x, hx, rfl⟩ := List.mem_map.1 hm
  have hpa : x ∈ pa := List.mem_of_mem_drop (List.mem_of_mem_take hx)
  exact (hI.marked x hpa (List.all_eq_true.1 hd x hx) q hq (h2.trans h1.symm)).symm

/-- What a step over the top frame works with. -/
structure TopFrame (e e' : Engine) (f : Frame) : Prop where
  frames : framesOf e = framesOf e' ++ [f]
  pa     : e'.pa = e.pa
  taken  : e'.taken = e.taken
  depth  : e'.depth = e.depth

theorem TopFrame.rest (h : TopFrame e e' f) (hI : RefineInv block e pa isa) :
    (∀ g ∈ framesOf e', g ∈ framesOf e ∧ (frameRange e.pa g).1 ≠ (frameRange e.pa f).1) ∧
    (framesOf e').Pairwise (fun f g => (frameRange e.pa f).1 ≠ (frameRange e.pa g).1) ∧
    ∀ g ∈ framesOf e, g ∈ framesOf e' ∨ (frameRange e.pa g).1 = (frameRange e.pa f).1 := by
  have ha := hI.apart
  rw [h.frames, List.pairwise_append] at ha
  refine ⟨fun g hg => ⟨by simp [h.frames, hg], ha.2.2 g hg f (by simp)⟩, ha.1, fun g hg => ?_⟩
  rw [h.frames, List.mem_append] at hg
  rcases hg with hg | hg
  · exact .inl hg
  · obtain rfl : g = f := by simpa using hg
    exact .inr rfl

/-- `lsSort` of the group of the top frame. -/
theorem RefineInv.lsRange {w v : SortWork} {f : Frame} (hI : RefineInv block w.engine w.pa w.isa)
    (ht : InText block.length (textOrder w.pa)) (hl : w.pa.length < 2 ^ 32) (htop : TopFrame w.engine v.engine f)
    (hp : v.pa = w.pa) (hi : v.isa = w.isa) :
    RefineInv block (lsRange block (frameRange w.engine.pa f) v).engine
      (lsRange block (frameRange w.engine.pa f) v).pa (lsRange block (frameRange w.engine.pa f) v).isa := by
  have hf : f ∈ framesOf w.engine := by simp [htop.frames]
  obtain ⟨hfr, ha⟩ := hI.frame_group hf
  obtain ⟨t1, t2, t3⟩ := htop.rest hI
  have hcur : (frameRange w.engine.pa f).1 +
      groupSize (textOrder w.pa) (rankOf w.pa w.isa) (frameRange w.engine.pa f).1 ≤ w.engine.taken := by
    have := (hI.groups f hf).2.2.2.1
    rw [hfr] at this
    exact this
  rw [hfr]
  generalize (frameRange w.engine.pa f).1 = a at *
  have hgp := hI.group_perm ha
  have hmem : ∀ p ∈ textOrder w.pa, rankOf w.pa w.isa p = a →
      p ∈ (rangeEntries (a, groupSize (textOrder w.pa) (rankOf w.pa w.isa) a) w.pa).map entryPos :=
    fun p hp h => hgp.symm.mem_iff.1 (List.mem_filter.2 ⟨hp, by simpa using h⟩)
  simp only [Machine.lsRange, hp, hi]
  have heqr : ∀ p ∈ textOrder w.pa, ∀ q ∈ textOrder w.pa, rankOf w.pa w.isa p = a → rankOf w.pa w.isa q = a →
      prefixRank block block.length (rangeEntries (a, groupSize (textOrder w.pa) (rankOf w.pa w.isa) a) w.pa) p =
        prefixRank block block.length (rangeEntries (a, groupSize (textOrder w.pa) (rankOf w.pa w.isa) a) w.pa) q →
      rotation block p = rotation block q := by
    intro p hp q hq h1 h2 h
    rw [prefixRank_eq_iff (hmem p hp h1) (hmem q hq h2)] at h
    rwa [List.take_of_length_le (by simp), List.take_of_length_le (by simp)] at h
  refine hI.split (κ := prefixRank block block.length
    (rangeEntries (a, groupSize (textOrder w.pa) (rankOf w.pa w.isa) a) w.pa))
    (xs := markAll (sortByPrefix block block.length
      (rangeEntries (a, groupSize (textOrder w.pa) (rankOf w.pa w.isa) a) w.pa))) (parts := [])
    hl ha hcur t1 t2 t3 (by simp [framesOf]) ⟨htop.pa, htop.taken, htop.depth⟩ ?_ ?_ ?_ ?_ (by simp)
    List.Pairwise.nil ?_
  · rw [markAll_positions]
    exact (sortByPrefix_perm _ _ _).map _
  · rw [markAll_positions, List.pairwise_map]
    refine (sortByPrefix_pairwise block block.length _).imp_of_mem fun {x y} hx hy h => ?_
    by_contra hc
    have := (prefixRank_lt_iff (block := block) (d := block.length) (q := entryPos x)
      (List.mem_map_of_mem ((sortByPrefix_perm _ _ _).mem_iff.1 hy))).1 (by omega)
    rw [h] at this
    simp at this
  · intro p hp q _ h1 _ h
    rwa [prefixRank_lt_iff (hmem p hp h1), prefixBefore_length] at h
  · intro x hx _ q hq h1 h
    have hx' : entryPos x ∈ (rangeEntries (a, groupSize (textOrder w.pa) (rankOf w.pa w.isa) a) w.pa).map entryPos := by
      have := List.mem_map_of_mem (f := entryPos) hx
      rw [markAll_positions] at this
      exact ((sortByPrefix_perm _ _ _).map _).mem_iff.1 this
    have h2 := List.mem_filter.1 (hgp.mem_iff.1 hx')
    exact heqr q hq _ h2.1 h1 (by simpa using h2.2) h
  · intro p hp q hq h1 h2 h _
    exact AgreeAhead.of_rotation_eq (ht.inside p hp) (ht.inside q hq) (heqr p hp q hq h1 h2 h)

theorem side_eq_iff {v k l : Nat} : side v k = side v l ↔ (k < v ∧ l < v) ∨ (k = v ∧ l = v) ∨ (v < k ∧ v < l) := by
  unfold side
  split_ifs <;> simp <;> omega

theorem side_lt {v k l : Nat} (h : side v k < side v l) : k < l := by
  unfold side at h
  split_ifs at h <;> omega

theorem side_lt_iff {v k l : Nat} : side v k < side v l ↔ (k < v ∧ v ≤ l) ∨ (k = v ∧ v < l) := by
  unfold side
  split_ifs <;> omega

/-- `trIntroSort`'s partition of the group of the top frame. -/
theorem RefineInv.introRange {w u v : SortWork} {f : Frame} {free : Nat} (hI : RefineInv block w.engine w.pa w.isa)
    (ht : InText block.length (textOrder w.pa)) (hl : w.pa.length < 2 ^ 32) (htop : TopFrame w.engine u.engine f)
    (hs : u.engine.ssize ≤ 64) (hp : u.pa = w.pa) (hi : u.isa = w.isa)
    (hal : rangeAligned block.length f.depth.toNat (textOrder w.pa) (rangeEntries (frameRange w.engine.pa f) w.pa) = true)
    (h : introRange free f (frameRange w.engine.pa f) u = some v) : RefineInv block v.engine v.pa v.isa := by
  have hf : f ∈ framesOf w.engine := by simp [htop.frames]
  obtain ⟨hfr, ha⟩ := hI.frame_group hf
  obtain ⟨t1, t2, t3⟩ := htop.rest hI
  obtain ⟨k1, k2, k3, k4, k5⟩ := hI.groups f hf
  have hcur : (frameRange w.engine.pa f).1 +
      groupSize (textOrder w.pa) (rankOf w.pa w.isa) (frameRange w.engine.pa f).1 ≤ w.engine.taken := by
    rw [hfr] at k4
    exact k4
  have hfirst : (frameRange w.engine.pa f).1 = f.first.toNat - w.engine.pa.base := rfl
  have hsize : (frameRange w.engine.pa f).2 = f.last.toNat + 1 - f.first.toNat := rfl
  have hlast := f.last.isLt
  rw [hfr] at h hal
  rw [hfr] at hsize k3
  simp only at hsize k3
  generalize (frameRange w.engine.pa f).1 = a at *
  have hgp := hI.group_perm ha
  obtain ⟨e, he, rfl⟩ := Option.map_eq_some_iff.1 h
  simp only [hp, hi, k2] at he hal ⊢
  obtain ⟨q1, q2, -, -⟩ := pushFrames_frames he hs
  have c1 : e.pa = w.engine.pa := by rw [show e.pa = u.engine.pa by rw [q1], htop.pa]
  have c2 : e.taken = w.engine.taken := by rw [show e.taken = u.engine.taken by rw [q1], htop.taken]
  have c3 : e.depth = w.engine.depth := by rw [show e.depth = u.engine.depth by rw [q1], htop.depth]
  clear q1 he h
  have hlen : (rangeEntries (a, groupSize (textOrder w.pa) (rankOf w.pa w.isa) a) w.pa).length =
      groupSize (textOrder w.pa) (rankOf w.pa w.isa) a := by
    have := hgp.length_eq
    rw [List.length_map, ← List.countP_eq_length_filter] at this
    exact this
  have hmem : ∀ p ∈ textOrder w.pa, rankOf w.pa w.isa p = a →
      ∃ x ∈ rangeEntries (a, groupSize (textOrder w.pa) (rankOf w.pa w.isa) a) w.pa, entryPos x = p := fun p hp h =>
    List.mem_map.1 (hgp.symm.mem_iff.1 (List.mem_filter.2 ⟨hp, by simpa using h⟩))
  have hmem' : ∀ x ∈ rangeEntries (a, groupSize (textOrder w.pa) (rankOf w.pa w.isa) a) w.pa,
      entryPos x ∈ textOrder w.pa ∧ rankOf w.pa w.isa (entryPos x) = a := fun x hx => by
    have := List.mem_filter.1 (hgp.mem_iff.1 (List.mem_map_of_mem hx))
    exact ⟨this.1, by simpa using this.2⟩
  have halign : ∀ p ∈ textOrder w.pa, ∀ q ∈ textOrder w.pa, rankOf w.pa w.isa p = a → rankOf w.pa w.isa q = a →
      aheadDistance block.length (textOrder w.pa) w.engine.depth p =
        aheadDistance block.length (textOrder w.pa) w.engine.depth q := by
    intro p hp q hq h1 h2
    obtain ⟨x, hx, rfl⟩ := hmem p hp h1
    obtain ⟨y, hy, rfl⟩ := hmem q hq h2
    simpa using List.all_eq_true.1 (List.all_eq_true.1 hal x hx) y hy
  -- counts over the range are counts over the group
  have hcnt : ∀ P : Nat → Bool, (rangeEntries (a, groupSize (textOrder w.pa) (rankOf w.pa w.isa) a) w.pa).countP
      (fun x => P (entryPos x)) = (textOrder w.pa).countP (fun p => P p && decide (rankOf w.pa w.isa p = a)) := by
    intro P
    rw [← List.countP_filter, ← hgp.countP_eq, List.countP_map]
    rfl
  generalize hxs : rangeEntries (a, groupSize (textOrder w.pa) (rankOf w.pa w.isa) a) w.pa = xs at *
  have hkey : ∀ p, aheadRank (textOrder w.pa) w.isa w.engine.depth p =
    rankOf w.pa w.isa (ahead (textOrder w.pa) w.engine.depth p) := fun p => rfl
  generalize hkk : aheadRank (textOrder w.pa) w.isa w.engine.depth = key at *
  generalize key (entryPos (pivotEntry free xs)) = v at *
  have hsum := partition3_length (fun x => key (entryPos x)) v xs
  have hnb := hcnt (fun p => decide (key p < v))
  have hne := hcnt (fun p => decide (key p = v))
  have hna := hcnt (fun p => decide (v < key p))
  generalize xs.countP (fun x => decide (key (entryPos x) < v)) = nb at *
  generalize xs.countP (fun x => decide (key (entryPos x) = v)) = ne at *
  generalize xs.countP (fun x => decide (v < key (entryPos x))) = na at *
  have hplace : ∀ p, (((textOrder w.pa).filter (fun q => decide (rankOf w.pa w.isa q = a))).countP
      (fun q => decide (side v (key q) < side v (key p)))) =
      if key p < v then 0 else if key p = v then nb else nb + ne := by
    intro p
    rw [List.countP_filter]
    split_ifs with h1 h2
    · rw [List.countP_eq_zero]
      intro q _
      simp only [Bool.and_eq_true, decide_eq_true_eq, side_lt_iff]
      omega
    · rw [hnb]
      refine List.countP_congr fun q _ => ?_
      simp only [Bool.and_eq_true, decide_eq_true_eq, side_lt_iff]
      omega
    · rw [hnb, hne]
      simp only [side_lt_iff]
      have : ∀ l : List Nat, l.countP (fun q => decide (key q < v ∧ v ≤ key p ∨ key q = v ∧ v < key p) &&
          decide (rankOf w.pa w.isa q = a)) =
          l.countP (fun q => decide (key q < v) && decide (rankOf w.pa w.isa q = a)) +
            l.countP (fun q => decide (key q = v) && decide (rankOf w.pa w.isa q = a)) := by
        intro l
        induction l with
        | nil => simp
        | cons z l ih =>
          simp only [List.countP_cons, ih, Bool.and_eq_true, decide_eq_true_eq]
          split_ifs <;> omega
      exact this _
  have hsplit : ∀ (n : Nat) (P : Nat → Bool), n = (textOrder w.pa).countP (fun p => P p && decide (rankOf w.pa w.isa p = a)) →
      1 ≤ n → ∃ p ∈ textOrder w.pa, P p = true ∧ rankOf w.pa w.isa p = a := by
    intro n P h1 h2
    obtain ⟨p, hp, hP⟩ := List.one_le_countP_iff.1 (h1 ▸ h2)
    simp only [Bool.and_eq_true, decide_eq_true_eq] at hP
    exact ⟨p, hp, hP.1, hP.2⟩
  have hparts : ∀ g ∈ partFrame f.first.toNat nb f.depth f.limit ++
      partFrame (f.first.toNat + nb + ne) na f.depth f.limit,
      g.depth = f.depth ∧ w.engine.pa.base ≤ g.first.toNat ∧
      ((2 ≤ nb ∧ frameRange w.engine.pa g = (a, nb)) ∨ (2 ≤ na ∧ frameRange w.engine.pa g = (a + nb + ne, na))) := by
    intro g hg
    rcases List.mem_append.1 hg with hg | hg
    · obtain ⟨m1, m2, m3, m4, m5, m6⟩ := mem_partFrame (pa := w.engine.pa) hg (by omega)
      exact ⟨m4, by omega, .inl ⟨m1, by rw [m6, hfirst]⟩⟩
    · obtain ⟨m1, m2, m3, m4, m5, m6⟩ := mem_partFrame (pa := w.engine.pa) hg (by omega)
      exact ⟨m4, by omega, .inr ⟨m1, by rw [m6, hfirst]; congr 1; omega⟩⟩
  have hpap : (partFrame f.first.toNat nb f.depth f.limit ++
      partFrame (f.first.toNat + nb + ne) na f.depth f.limit).Pairwise
        (fun f g => (frameRange w.engine.pa f).1 ≠ (frameRange w.engine.pa g).1) := by
    have part : ∀ {first size : Nat}, (partFrame first size f.depth f.limit).Pairwise
        (fun f g => (frameRange w.engine.pa f).1 ≠ (frameRange w.engine.pa g).1) := by
      intro first size
      unfold partFrame
      split <;> simp
    refine List.pairwise_append.2 ⟨part, part, fun g hg g' hg' => ?_⟩
    have h1 : f.first.toNat + nb ≤ 2 ^ 32 := by omega
    have h2 : f.first.toNat + nb + ne + na ≤ 2 ^ 32 := by omega
    obtain ⟨m1, m2, m3, m4, m5, m6⟩ := mem_partFrame (pa := w.engine.pa) hg h1
    obtain ⟨m1', m2', m3', m4', m5', m6'⟩ := mem_partFrame (pa := w.engine.pa) hg' h2
    rw [m6, m6']
    simp only
    omega
  have hcov : (2 ≤ nb → ∃ g ∈ partFrame f.first.toNat nb f.depth f.limit ++
      partFrame (f.first.toNat + nb + ne) na f.depth f.limit, (frameRange w.engine.pa g).1 = a) ∧
      (2 ≤ na → ∃ g ∈ partFrame f.first.toNat nb f.depth f.limit ++
      partFrame (f.first.toNat + nb + ne) na f.depth f.limit, (frameRange w.engine.pa g).1 = a + nb + ne) := by
    refine ⟨fun h => ?_, fun h => ?_⟩
    · obtain ⟨g, hg, hr⟩ := partFrame_covers w.engine.pa (first := f.first.toNat) f.depth f.limit h (by omega)
      exact ⟨g, by simp [hg], by rw [hr, hfirst]⟩
    · obtain ⟨g, hg, hr⟩ := partFrame_covers w.engine.pa (first := f.first.toNat + nb + ne) f.depth f.limit h (by omega)
      exact ⟨g, by simp [hg], by rw [hr, hfirst]; simp only; omega⟩
  generalize partFrame f.first.toNat nb f.depth f.limit ++ partFrame (f.first.toNat + nb + ne) na f.depth f.limit =
    parts at *
  rw [← hxs]
  refine hI.split (κ := fun p => side v (key p))
    (xs := markAlone (fun p => side v (key p)) (partition3 (fun x => key (entryPos x)) v xs)) (parts := parts)
    hl ha hcur t1 t2 t3 q2 ⟨c1, c2, c3⟩ ?_ ?_ ?_ ?_ ?_ hpap ?_ |> fun h => by rw [← hxs] at h; exact h
  · rw [markAlone_positions, hxs]
    exact (partition3_perm _ _ _).map _
  · rw [markAlone_positions, List.pairwise_map]
    exact partition3_pairwise (fun x => key (entryPos x)) v xs
  · intro p hp q hq h1 h2 h
    have := side_lt h
    rw [hkey, hkey] at this
    exact lexLt_of_ahead ht hp hq (halign p hp q hq h1 h2) (hI.tied p hp q hq (h1.trans h2.symm))
      (hI.sound _ (ahead_mem hp) _ (ahead_mem hq) this)
  · intro x hx hm q hq h1 h
    simp only [markAlone, List.mem_map] at hx
    obtain ⟨y, hy, rfl⟩ := hx
    split at hm
    · next hone =>
      rw [if_pos hone, entryPos_entryDone (entryPos_lt y)] at h ⊢
      obtain ⟨z, hz, rfl⟩ := hmem q hq h1
      rw [eq_of_countP_le_one hone ((partition3_perm _ _ _).mem_iff.2 hz) hy (by simpa using h) (by simp)]
    · simp at hm
  · intro g hg
    obtain ⟨g1, g2, g3⟩ := hparts g hg
    rcases g3 with ⟨g3, g4⟩ | ⟨g3, g4⟩
    · obtain ⟨p, hp, hP, hpa⟩ := hsplit nb _ hnb (by omega)
      simp only [decide_eq_true_eq] at hP
      refine ⟨g2, by rw [g1]; exact k2, by rw [g4]; exact g3, p, hp, hpa, ?_, ?_⟩
      · rw [g4, placeOf, hplace, if_pos hP]
        rfl
      · rw [g4, hnb]
        refine List.countP_congr fun q _ => ?_
        simp only [Bool.and_eq_true, decide_eq_true_eq, side_eq_iff]
        omega
    · obtain ⟨p, hp, hP, hpa⟩ := hsplit na _ hna (by omega)
      simp only [decide_eq_true_eq] at hP
      refine ⟨g2, by rw [g1]; exact k2, by rw [g4]; exact g3, p, hp, hpa, ?_, ?_⟩
      · rw [g4, placeOf, hplace, if_neg (by omega), if_neg (by omega)]
        simp only
        omega
      · rw [g4, hna]
        refine List.countP_congr fun q _ => ?_
        simp only [Bool.and_eq_true, decide_eq_true_eq, side_eq_iff]
        omega
  · intro p hp q hq h1 h2 h hn
    simp only [placeOf, hplace] at hn
    rcases side_eq_iff.1 h with ⟨s1, s2⟩ | ⟨s1, s2⟩ | ⟨s1, s2⟩
    · have : ¬ 2 ≤ nb := fun hb => by
        obtain ⟨g, hg, hga⟩ := hcov.1 hb
        exact hn g hg (by rw [if_pos s1]; exact hga)
      have hone : (textOrder w.pa).countP (fun p => decide (key p < v) && decide (rankOf w.pa w.isa p = a)) ≤ 1 := by
        omega
      rw [eq_of_countP_le_one hone hp hq (by simp [s1, h1]) (by simp [s2, h2])]
      exact AgreeAhead.refl q
    · refine AgreeAhead.double ht hp hq (halign p hp q hq h1 h2) (hI.tied p hp q hq (h1.trans h2.symm))
        (hI.tied _ (ahead_mem hp) _ (ahead_mem hq) ?_)
      rw [hkey] at s1 s2
      exact s1.trans s2.symm
    · have : ¬ 2 ≤ na := fun hb => by
        obtain ⟨g, hg, hga⟩ := hcov.2 hb
        exact hn g hg (by rw [if_neg (by omega), if_neg (by omega)]; omega)
      have hone : (textOrder w.pa).countP (fun p => decide (v < key p) && decide (rankOf w.pa w.isa p = a)) ≤ 1 := by
        omega
      rw [eq_of_countP_le_one hone hp hq (by simp [s1, h1]) (by simp [s2, h2])]
      exact AgreeAhead.refl q

/-- The next group of a round starts at the cursor: an entry of the rank of its place. -/
theorem RefineInv.next_group (hI : RefineInv block e pa isa) (h : e.taken < pa.length) :
    ∃ p ∈ textOrder pa, rankOf pa isa p = e.taken := by
  have hlen : e.taken < (pa.map entryPos).length := by simpa using h
  have hmem : (pa.map entryPos)[e.taken] ∈ textOrder pa := mem_textOrder.2 (List.getElem_mem _)
  refine ⟨_, hmem, ?_⟩
  have hcur := hI.cursor.2
  rw [(textOrder_perm pa).countP_eq] at hcur
  have hcnt := hI.countP_lt hmem
  rw [(textOrder_perm pa).countP_eq] at hcnt
  have h1 := (sorted_group hI.ordered e.taken).1
  have h2 := (sorted_group hI.ordered (rankOf pa isa (pa.map entryPos)[e.taken])).1
  rw [hcur] at h1
  rw [hcnt] at h2
  generalize hv : rankOf pa isa (pa.map entryPos)[e.taken] = v at *
  rcases lt_trichotomy v e.taken with c | c | c
  · exfalso
    -- the entries before the cursor are all of lower rank, and this one would be one more
    have hcount : ((pa.map entryPos).take e.taken).countP (fun p => decide (rankOf pa isa p < e.taken)) = e.taken := by
      rw [h1, List.countP_filter]
      simpa using hcur
    have hrest : (pa.map entryPos).countP (fun p => decide (rankOf pa isa p < e.taken)) =
        ((pa.map entryPos).take e.taken).countP (fun p => decide (rankOf pa isa p < e.taken)) +
          ((pa.map entryPos).drop e.taken).countP (fun p => decide (rankOf pa isa p < e.taken)) := by
      rw [← List.countP_append, List.take_append_drop]
    have hone : 1 ≤ ((pa.map entryPos).drop e.taken).countP (fun p => decide (rankOf pa isa p < e.taken)) := by
      refine List.one_le_countP_iff.2 ⟨(pa.map entryPos)[e.taken], ?_, by rw [decide_eq_true_eq, hv]; exact c⟩
      rw [List.drop_eq_getElem_cons hlen]
      exact List.mem_cons_self
    rw [hcur, hcount] at hrest
    omega
  · exact c
  · exfalso
    have : (pa.map entryPos)[e.taken] ∈ (pa.map entryPos).take v := by
      rw [List.mem_take_iff_getElem]
      exact ⟨e.taken, by omega, rfl⟩
    rw [h2, List.mem_filter] at this
    simp only [hv, decide_eq_true_eq, lt_irrefl, and_false] at this

/-- The cursor moves past a group. -/
theorem RefineInv.cursor_next (hI : RefineInv block e pa isa) (ha : ∃ p ∈ textOrder pa, rankOf pa isa p = e.taken) :
    (textOrder pa).countP (fun p => decide (rankOf pa isa p <
      e.taken + groupSize (textOrder pa) (rankOf pa isa) e.taken)) =
        e.taken + groupSize (textOrder pa) (rankOf pa isa) e.taken ∧
    ∀ p ∈ textOrder pa, rankOf pa isa p < e.taken + groupSize (textOrder pa) (rankOf pa isa) e.taken →
      rankOf pa isa p < e.taken ∨ rankOf pa isa p = e.taken := by
  have hc : Counted (textOrder pa) (rankOf pa isa) := hI.counted
  have hgap : ∀ p ∈ textOrder pa, rankOf pa isa p < e.taken + groupSize (textOrder pa) (rankOf pa isa) e.taken →
      rankOf pa isa p < e.taken ∨ rankOf pa isa p = e.taken := by
    intro p hp h
    obtain ⟨q, hq, hqa⟩ := ha
    by_contra hn
    have := hc.gap hq hp (by omega)
    rw [hqa] at this
    omega
  refine ⟨?_, hgap⟩
  have hg : 1 ≤ groupSize (textOrder pa) (rankOf pa isa) e.taken := by
    obtain ⟨q, hq, hqa⟩ := ha
    exact List.one_le_countP_iff.2 ⟨q, hq, by simpa using hqa⟩
  have e1 : (textOrder pa).countP (fun p => decide (rankOf pa isa p <
      e.taken + groupSize (textOrder pa) (rankOf pa isa) e.taken)) =
      (textOrder pa).countP (fun p => decide (rankOf pa isa p < e.taken ∨ rankOf pa isa p = e.taken)) := by
    refine List.countP_congr fun p hp => ?_
    simp only [decide_eq_true_eq]
    have := hgap p hp
    omega
  have e2 : ∀ l : List Nat, l.countP (fun p => decide (rankOf pa isa p < e.taken ∨ rankOf pa isa p = e.taken)) =
      l.countP (fun p => decide (rankOf pa isa p < e.taken)) + groupSize l (rankOf pa isa) e.taken := by
    intro l
    induction l with
    | nil => simp
    | cons z l ih =>
      simp only [groupSize, List.countP_cons, decide_eq_true_eq] at ih ⊢
      rw [ih]
      split_ifs <;> omega
  rw [e1, e2]
  have := hI.cursor.2
  simp only [rankOf] at this ⊢
  omega

/-- The next group taken up. -/
theorem RefineInv.takeGroup {w v : SortWork} (hI : RefineInv block w.engine w.pa w.isa)
    (ht : InText block.length (textOrder w.pa)) (h0 : w.engine.ssize = 0) (hlt : w.engine.taken < w.pa.length)
    (hb : w.engine.pa.base + w.pa.length ≤ 2 ^ 31) (hd : w.engine.depth < 2 ^ 31) (h : takeGroup w = some v) :
    RefineInv block v.engine v.pa v.isa := by
  have ha := hI.next_group hlt
  obtain ⟨hcur, hpast⟩ := hI.cursor_next ha
  have hg1 : 1 ≤ groupSize (textOrder w.pa) (rankOf w.pa w.isa) w.engine.taken := by
    obtain ⟨q, hq, hqa⟩ := ha
    exact List.one_le_countP_iff.2 ⟨q, hq, by simpa using hqa⟩
  have hroom := (hI.group ha).2.2.2
  have hg : min (w.pa.length - w.engine.taken) (max 1 (groupSize (textOrder w.pa) (rankOf w.pa w.isa) w.engine.taken)) =
      groupSize (textOrder w.pa) (rankOf w.pa w.isa) w.engine.taken := by omega
  have hf0 := framesOf_zero h0
  unfold Machine.takeGroup at h
  simp only at h
  change (if min (w.pa.length - w.engine.taken)
    (max 1 (groupSize (textOrder w.pa) (rankOf w.pa w.isa) w.engine.taken)) = 1 then _ else _) = _ at h
  have hcnt : ∀ k, (textOrder w.pa).countP (fun p => decide (rankAt (textOrder w.pa) w.isa p = k)) =
    groupSize (textOrder w.pa) (rankOf w.pa w.isa) k := fun _ => rfl
  simp only [hcnt, hg] at h
  -- a round that comes past the group leaves what is true of its ties
  have past : ∀ {e' : Engine} {pa : List Word}, pa.map entryPos = w.pa.map entryPos → framesOf e' = [] →
      e'.depth = w.engine.depth →
      e'.taken = w.engine.taken + groupSize (textOrder w.pa) (rankOf w.pa w.isa) w.engine.taken →
      (∀ x ∈ pa, x.msb = true → x ∈ w.pa ∨ rankOf w.pa w.isa (entryPos x) = w.engine.taken ∧
        entryPos x ∈ textOrder w.pa) →
      (∀ p ∈ textOrder w.pa, ∀ q ∈ textOrder w.pa, rankOf w.pa w.isa p = w.engine.taken →
        rankOf w.pa w.isa q = w.engine.taken → rotation block p = rotation block q) →
      RefineInv block e' pa w.isa := by
    intro e' pa hp hf hd htk hm hr
    have hps : textOrder pa = textOrder w.pa := textOrder_congr (by rw [hp])
    have hl : pa.length = w.pa.length := by simpa using congrArg List.length hp
    refine ⟨by rw [hp, hps]; exact hI.ordered, by rw [hps]; exact hI.counted, by rw [hps]; exact hI.sound, ?_,
      by rw [hps, hd]; exact hI.tied, ?_, ?_, by simp [hf], by simp [hf]⟩
    · rw [hps]
      intro x hx hmx q hq hqx
      rcases hm x hx hmx with h | ⟨h1, h2⟩
      · exact hI.marked x h hmx q hq hqx
      · exact hr q hq _ h2 (hqx.trans h1) h1
    · rw [hps, hd, htk]
      intro p hp q hq hpq hlt' _
      rcases hpast p hp hlt' with h | h
      · exact hI.passed p hp q hq hpq h (by simp [hf0])
      · exact AgreeAhead.of_rotation_eq (ht.inside p hp) (ht.inside q hq) (hr p hp q hq h (hpq.symm.trans h))
    · rw [hps, htk, hl]
      exact ⟨by omega, hcur⟩
  split at h
  · next hone =>
    cases h
    have hone' : (textOrder w.pa).countP (fun p => decide (rankOf w.pa w.isa p = w.engine.taken)) ≤ 1 := by
      show groupSize (textOrder w.pa) (rankOf w.pa w.isa) w.engine.taken ≤ 1
      omega
    have hperm : ∀ x ∈ rangeEntries (w.engine.taken, 1) w.pa,
        entryPos x ∈ textOrder w.pa ∧ rankOf w.pa w.isa (entryPos x) = w.engine.taken := by
      intro x hx
      have h1 := hI.group_perm ha
      rw [hone] at h1
      have := List.mem_filter.1 (h1.mem_iff.1 (List.mem_map_of_mem hx))
      exact ⟨this.1, by simpa using this.2⟩
    refine past ?_ (by simp [framesOf, h0]) rfl rfl ?_ ?_
    · simp only [onRange, List.map_append, markAll_positions]
      rw [← List.map_append, ← List.map_append, List.take_append_drop, List.take_append_drop]
    · intro x hx _
      simp only [onRange, List.mem_append] at hx
      rcases hx with hx | hx | hx
      · exact .inl (List.mem_of_mem_take hx)
      · obtain ⟨y, hy, rfl⟩ := List.mem_map.1 hx
        rw [entryPos_entryDone (entryPos_lt y)]
        exact .inr (And.symm (hperm y hy))
      · exact .inl (List.mem_of_mem_drop (List.mem_of_mem_drop hx))
    · intro p hp q hq h1 h2
      rw [eq_of_countP_le_one hone' hp hq (by simpa using h1) (by simpa using h2)]
  · next hone =>
    split at h
    · next hall =>
      cases h
      exact past rfl (by simp [framesOf, h0]) rfl rfl (fun x hx _ => .inl hx) (hI.allDone_group ha hall)
    · obtain ⟨e, he, rfl⟩ := Option.map_eq_some_iff.1 h
      obtain ⟨q1, q2, -, -⟩ := pushFrames_frames he (by simp [h0])
      rw [show framesOf { w.engine with
        taken := w.engine.taken + groupSize (textOrder w.pa) (rankOf w.pa w.isa) w.engine.taken } = framesOf w.engine
        from rfl, hf0, List.nil_append] at q2
      have c1 : e.pa = w.engine.pa := by rw [q1]
      have c2 : e.taken = w.engine.taken + groupSize (textOrder w.pa) (rankOf w.pa w.isa) w.engine.taken := by rw [q1]
      have c3 : e.depth = w.engine.depth := by rw [q1]
      have hfit : w.engine.pa.base + w.engine.taken +
          groupSize (textOrder w.pa) (rankOf w.pa w.isa) w.engine.taken ≤ 2 ^ 32 := by omega
      clear q1 he h
      refine ⟨hI.ordered, hI.counted, hI.sound, hI.marked, by rw [c3]; exact hI.tied, ?_, ?_, ?_, ?_⟩
      · simp only [c1, c2, c3]
        intro p hp q hq hpq hlt' hn
        rcases hpast p hp hlt' with h | h
        · exact hI.passed p hp q hq hpq h (by simp [hf0])
        · exfalso
          obtain ⟨g, hg, hr⟩ := partFrame_covers w.engine.pa (first := w.engine.pa.base + w.engine.taken)
            (BitVec.ofNat 32 w.engine.depth) ((Config.trDepthLimit
              (groupSize (textOrder w.pa) (rankOf w.pa w.isa) w.engine.taken)).setWidth 32)
            (show 2 ≤ groupSize (textOrder w.pa) (rankOf w.pa w.isa) w.engine.taken by omega) hfit
          refine hn g (by rw [q2]; exact hg) ?_
          rw [hr, Nat.add_sub_cancel_left]
          exact h.symm
      · simp only [c2]
        exact ⟨by omega, hcur⟩
      · simp only [c1, c2, c3, q2]
        intro g hg
        obtain ⟨m1, m2, m3, m4, m5, m6⟩ := mem_partFrame (pa := w.engine.pa) hg hfit
        rw [m6, Nat.add_sub_cancel_left]
        refine ⟨by omega, ?_, m1, by simp only; omega, rfl⟩
        rw [m4]
        simp
        omega
      · simp only [c1, q2]
        unfold partFrame
        split <;> simp

/-- The next round: every tie left is good for twice the depth. -/
theorem RefineInv.nextRound {w : SortWork} (hI : RefineInv block w.engine w.pa w.isa) (h0 : w.engine.ssize = 0)
    (ht : ¬ w.engine.taken < w.pa.length) :
    RefineInv block (nextRound w).engine (nextRound w).pa (nextRound w).isa := by
  have hf0 := framesOf_zero h0
  have hc : Counted (textOrder w.pa) (rankOf w.pa w.isa) := hI.counted
  refine ⟨hI.ordered, hI.counted, hI.sound, hI.marked, ?_, ?_, ⟨by simp [Machine.nextRound], by
    simp [Machine.nextRound]⟩, by simp [Machine.nextRound, framesOf, h0], by simp [Machine.nextRound, framesOf, h0]⟩
  · intro p hp q hq hpq
    have hlt : rankOf w.pa w.isa p < w.engine.taken := by
      have h1 := hc.lt_length hp
      have h2 : 1 ≤ groupSize (textOrder w.pa) (rankOf w.pa w.isa) (rankOf w.pa w.isa p) :=
        List.one_le_countP_iff.2 ⟨p, hp, by simp⟩
      rw [textOrder_length] at h1
      omega
    show AgreeAhead block (textOrder w.pa) (if _ then _ else _) p q
    split
    · exact hI.passed p hp q hq hpq hlt (by simp [hf0])
    · exact hI.tied p hp q hq hpq
  · intro p _ q _ _ h
    simp [Machine.nextRound] at h

/-- A step of the refinement keeps what it has done so far. -/
theorem RefineInv.step {w v : SortWork} {n free : Nat} (hI : RefineInv block w.engine w.pa w.isa)
    (hn : block.length = n) (ht : InText n (textOrder w.pa)) (hs : w.engine.ssize ≤ 64)
    (hb : w.engine.pa.base + w.pa.length ≤ 2 ^ 31) (hd : w.engine.depth < 2 ^ 31)
    (h : refinementStep block n free w = some v ∨ v = refinementSpill block w) :
    RefineInv block v.engine v.pa v.isa := by
  subst hn
  have hl : w.pa.length < 2 ^ 32 := by omega
  have top : ∀ {f : Frame} {e : Engine} (budget : Budget) (method : SortMethod), popFrame w.engine = some (f, e) →
      TopFrame w.engine { e with budget := budget, method := method } f ∧ e.ssize ≤ 64 ∧ e.pa = w.engine.pa := by
    intro f e budget method hpop
    obtain ⟨p1, p2, p3⟩ := popFrame_frames hpop hs
    have e1 : e.pa = w.engine.pa := by rw [p1]
    have e2 : e.taken = w.engine.taken := by rw [p1]
    have e3 : e.depth = w.engine.depth := by rw [p1]
    exact ⟨⟨p2, e1, e2, e3⟩, by omega, e1⟩
  rcases h with h | rfl
  · unfold refinementStep at h
    split at h
    · next hpop =>
      have h0 := (popFrame_none hs).1 hpop
      split at h
      · next hlt => exact hI.takeGroup ht h0 hlt hb hd h
      · next hlt =>
        cases h
        exact hI.nextRound h0 hlt
    · next f e hpop =>
      unfold refineRange at h
      simp only at h
      obtain ⟨htop, hes, hpa⟩ := top e.budget e.method hpop
      have hf : f ∈ framesOf w.engine := by simp [htop.frames]
      obtain ⟨hfr, ha⟩ := hI.frame_group hf
      rw [show frameRange e.pa f = frameRange w.engine.pa f by rw [hpa]] at h
      split at h
      · next hskip =>
        cases h
        have hlen : (rangeEntries (frameRange w.engine.pa f) w.pa).length = (frameRange w.engine.pa f).2 :=
          rangeEntries_length (le_trans (hI.groups f hf).2.2.2.1 hI.cursor.1)
        have h2 := (hI.groups f hf).2.2.1
        refine hI.drop ht htop.frames ⟨htop.pa, htop.taken, htop.depth⟩ ?_
        rcases hskip with hskip | hskip
        · omega
        · rw [hfr] at hskip
          exact hI.allDone_group ha hskip
      · split at h
        · cases h
          exact hI.lsRange ht hl (top _ _ hpop).1 rfl rfl
        · split at h
          · next hal =>
            exact hI.introRange ht hl (top _ _ hpop).1 hes (by rfl) (by rfl) hal h
          · obtain ⟨e', he', rfl⟩ := Option.map_eq_some_iff.1 h
            obtain ⟨q1, q2, -, -⟩ := pushFrame_frames he'
            have htop' := (top (chargeBudget (rangeEntries (frameRange w.engine.pa f) w.pa).length e.budget).1
              (chargeBudget (rangeEntries (frameRange w.engine.pa f) w.pa).length e.budget).2 hpop).1
            refine hI.congr (q2.trans htop'.frames.symm) ?_ ?_ ?_
            · rw [← htop'.pa]; simp only; rw [q1]
            · rw [← htop'.taken]; simp only; rw [q1]
            · rw [← htop'.depth]; simp only; rw [q1]
  · unfold refinementSpill
    split
    · exact hI
    · next f e hpop =>
      obtain ⟨htop, hes, hpa⟩ := top (chargeBudget (rangeEntries (frameRange e.pa f) w.pa).length e.budget).1 e.method hpop
      rw [show frameRange e.pa f = frameRange w.engine.pa f by rw [hpa]] at htop ⊢
      exact hI.lsRange ht hl htop rfl rfl

end Sys2Proof.Machine
end

