-- ==== Sys2Proof/Laws/Finite.lean ====
section
/-! SUPPORT. Every engine step leaves less of a run, whatever the free values (42_bwt_engine.md R168): a partition of SSSORT
leaves cheaper ranges, and a step of TRSORT spends the budget, marks entries or comes further in its round. -/

namespace Sys2Proof.Machine

/-! ## What is left of a run, as numbers -/

/-- How far a frame of the substring sort can still go down: by bytes, and by levels of recursion. -/
def frameWeight (n : Nat) (depth limit : BitVec 32) : Nat :=
  (n + 1 - depth.toNat) * 2 ^ 33 + (limit.toInt + 1).toNat

/-- What a frame of the substring sort can still cost: more than all the parts it may be split into. -/
def frameCost (n : Nat) (f : Frame) : Nat :=
  (f.last.toNat + 1 - f.first.toNat) * frameWeight n f.depth f.limit

/-- What the frames in use can still cost. -/
def stackCost (e : Engine) : Nat := ((framesOf e).map (frameCost e.nLat.toNat)).sum

/-- Some entry without its mark is still to come past in this round, or stands in a frame. -/
def workPending (w : SortWork) : Bool :=
  !allDone (w.pa.drop w.engine.taken) ||
    (framesOf w.engine).any (fun f =>
      decide (2 ≤ (rangeEntries (frameRange w.engine.pa f) w.pa).length) &&
        !allDone (rangeEntries (frameRange w.engine.pa f) w.pa))

/-- How many entries have no mark. -/
def unmarkedCount (pa : List Word) : Nat := pa.countP (fun x => !x.msb)

/-- What is left of SSSORT: the blocks, a merge, and the frames. -/
abbrev substringLeft (w : SortWork) : Nat × Nat × Nat × Nat × Nat × Nat :=
  (w.pa.length - w.engine.taken, if w.engine.sorted < w.engine.taken then 1 else 0, stackCost w.engine, 0, 0, 0)

/-- What is left of TRSORT: the budget, the entries without their mark, the round, its groups, and the frames. -/
abbrev refinementLeft (w : SortWork) : Nat × Nat × Nat × Nat × Nat × Nat :=
  (w.engine.budget.chances, w.engine.budget.remain, unmarkedCount w.pa, if workPending w then 0 else 1,
    w.pa.length - w.engine.taken, w.engine.ssize)

/-- What is left of the sort in a phase. -/
def sortLeft (p : Phase) (w : SortWork) : Nat × Nat × Nat × Nat × Nat × Nat :=
  match p with
  | .sssort => substringLeft w
  | .trsort => refinementLeft w
  | _ => (0, 0, 0, 0, 0, 0)

/-- The lexicographic order of the numbers of a sort. -/
abbrev SortLess : Nat × Nat × Nat × Nat × Nat × Nat → Nat × Nat × Nat × Nat × Nat × Nat → Prop :=
  Prod.Lex (· < ·) (Prod.Lex (· < ·) (Prod.Lex (· < ·) (Prod.Lex (· < ·) (Prod.Lex (· < ·) (· < ·)))))

theorem sortLess_iff {a b c d e f a' b' c' d' e' f' : Nat} :
    SortLess (a, b, c, d, e, f) (a', b', c', d', e', f') ↔
      a < a' ∨ a = a' ∧ (b < b' ∨ b = b' ∧ (c < c' ∨ c = c' ∧ (d < d' ∨ d = d' ∧ (e < e' ∨ e = e' ∧ f < f')))) := by
  simp only [SortLess, Prod.lex_def]

theorem sortLess_wf : WellFounded SortLess :=
  WellFounded.prod_lex Nat.lt_wfRel.wf (WellFounded.prod_lex Nat.lt_wfRel.wf (WellFounded.prod_lex Nat.lt_wfRel.wf
    (WellFounded.prod_lex Nat.lt_wfRel.wf (WellFounded.prod_lex Nat.lt_wfRel.wf Nat.lt_wfRel.wf))))

/-! ## SSSORT -/

theorem stackCost_eq {e g : Engine} {fs : List Frame} (hn : g.nLat = e.nLat) (h : framesOf g = fs) :
    stackCost g = (fs.map (frameCost e.nLat.toNat)).sum := by
  rw [stackCost, h, hn]

theorem frameWeight_pos {n : Nat} {depth : BitVec 32} (limit : BitVec 32) (h : depth.toNat ≤ n) :
    0 < frameWeight n depth limit := by
  unfold frameWeight
  omega

theorem frameWeight_limit {n : Nat} {depth limit : BitVec 32} (h : 0 ≤ limit.toInt) :
    frameWeight n depth (limit - 1#32) + 1 ≤ frameWeight n depth limit := by
  unfold frameWeight
  rw [limit_step h]
  omega

theorem frameWeight_depth {n : Nat} {depth : BitVec 32} (limit : BitVec 32) (h : depth.toNat < n) (hn : n < 2 ^ 24) :
    frameWeight n (depth + 1#32) limit + 1 ≤ frameWeight n depth limit := by
  unfold frameWeight
  have hdep : (depth + 1#32).toNat = depth.toNat + 1 := by
    rw [BitVec.toNat_add]
    simp
    omega
  rw [hdep]
  omega

/-- What the frame of a part can cost. -/
theorem frameCost_part {n first size W : Nat} {depth limit : BitVec 32} (hb : first + size ≤ 2 ^ 32)
    (h : frameWeight n depth limit ≤ W) : ((partFrame first size depth limit).map (frameCost n)).sum ≤ size * W := by
  by_cases hs : size ≤ 1
  · simp [partFrame, hs]
  · obtain ⟨g, hg, -⟩ := partFrame_covers ⟨0, 0⟩ depth limit (show 2 ≤ size by omega) hb
    obtain ⟨m1, m2, m3, m4, m5, -⟩ := mem_partFrame (pa := ⟨0, 0⟩) hg hb
    have e : partFrame first size depth limit = [g] := by
      unfold partFrame at hg ⊢
      rw [if_neg hs] at hg ⊢
      rw [List.mem_singleton.1 hg]
    rw [e, List.map_singleton, List.sum_singleton, frameCost, m4, m5]
    exact Nat.mul_le_mul (by omega) h

theorem frameCost_pos {n : Nat} {f : Frame} (h : frameOk n f = true) : 0 < frameCost n f := by
  simp only [frameOk, decide_eq_true_eq] at h
  exact Nat.mul_pos (by omega) (frameWeight_pos _ h.2.2.1)

/-- The parts of a partition cost less than the range. -/
theorem splitFrames_cost {n d : Nat} {f : Frame} {below level above : Nat} (hf : frameOk n f = true) (hn : n < 2 ^ 24)
    (hd : d ≤ n) (hl : 0 ≤ f.limit.toInt) (hs : below + level + above ≤ f.last.toNat + 1 - f.first.toNat) :
    ((splitFrames d f below level above).map (frameCost n)).sum < frameCost n f := by
  simp only [frameOk, decide_eq_true_eq] at hf
  obtain ⟨f1, f2, f3, f4⟩ := hf
  have hl := frameWeight_limit (n := n) (depth := f.depth) hl
  have hp := frameWeight_pos f.limit f3
  have c1 := frameCost_part (n := n) (first := f.first.toNat) (size := below) (W := frameWeight n f.depth f.limit - 1)
    (depth := f.depth) (limit := f.limit - 1#32) (by omega) (by omega)
  have c3 := frameCost_part (n := n) (first := f.first.toNat + below + level) (size := above)
    (W := frameWeight n f.depth f.limit - 1) (depth := f.depth) (limit := f.limit - 1#32) (by omega) (by omega)
  have c2 : ((partFrame (f.first.toNat + below) (if f.depth.toNat + 1 < d then level else 0) (f.depth + 1#32)
      f.limit).map (frameCost n)).sum ≤ level * (frameWeight n f.depth f.limit - 1) := by
    split
    · next hlt =>
      have := frameWeight_depth f.limit (show f.depth.toNat < n by omega) hn
      exact frameCost_part (by omega) (by omega)
    · simp [partFrame]
  have hsum : below * (frameWeight n f.depth f.limit - 1) + (level * (frameWeight n f.depth f.limit - 1) +
      above * (frameWeight n f.depth f.limit - 1)) ≤
      (f.last.toNat + 1 - f.first.toNat) * (frameWeight n f.depth f.limit - 1) := by
    rw [← Nat.add_mul, ← Nat.add_mul]
    exact Nat.mul_le_mul_right _ (by omega)
  have hstep : (f.last.toNat + 1 - f.first.toNat) * (frameWeight n f.depth f.limit - 1) <
      (f.last.toNat + 1 - f.first.toNat) * frameWeight n f.depth f.limit :=
    Nat.mul_lt_mul_of_pos_left (by omega) (by omega)
  simp only [splitFrames, List.map_append, List.sum_append]
  rw [frameCost]
  omega

/-- A frame for one group always finds room on an empty stack. -/
theorem pushFrames_empty {first size : Nat} {depth limit : BitVec 32} {e : Engine} (h : e.ssize = 0) :
    pushFrames (partFrame first size depth limit) e ≠ none := by
  unfold partFrame
  split
  · simp [pushFrames]
  · simp [pushFrames, pushFrame, h]

theorem substringLeft_step {block : List Byte} {n free : Nat} {w v : SortWork} (hb : BoundsInv w.engine)
    (hn : n = w.engine.nLat.toNat) (hd : substringsDone w = false)
    (h : substringStep block n free w = some v ∨ substringStep block n free w = none ∧ v = substringSpill block n w) :
    SortLess (substringLeft v) (substringLeft w) := by
  subst hn
  have hlen := (substringStep_spec rfl (h.imp_right And.right)).paLength
  have hn := w.engine.nLat.isLt
  have hdep := substringDepth_le w.engine.nLat.toNat (textOrder w.pa)
  rw [sortLess_iff, hlen]
  have popped : ∀ {f : Frame} {e : Engine}, popFrame w.engine = some (f, e) →
      frameOk w.engine.nLat.toNat f = true ∧ stackCost w.engine =
        ((framesOf e).map (frameCost w.engine.nLat.toNat)).sum + frameCost w.engine.nLat.toNat f ∧ e.nLat = w.engine.nLat ∧
        e.sorted = w.engine.sorted ∧ e.taken = w.engine.taken ∧ e.ssize ≤ 64 := by
    intro f e hpop
    obtain ⟨p1, p2, p3⟩ := popFrame_frames hpop hb.stack_depth
    have hs : w.engine.ssize ≤ 64 := hb.stack_depth
    refine ⟨hb.frameOk_of_mem (by simp [p2]), ?_, by rw [p1], by rw [p1], by rw [p1], by omega⟩
    rw [stackCost_eq rfl p2, List.map_append, List.sum_append, List.map_singleton, List.sum_singleton]
  have sorted : ∀ {f : Frame} {e : Engine} (m : SortMethod), popFrame w.engine = some (f, e) →
      v = sortRange block (substringDepth w.engine.nLat.toNat (textOrder w.pa)) m f e w →
      v.engine.taken = w.engine.taken ∧ v.engine.sorted = w.engine.sorted ∧ stackCost v.engine < stackCost w.engine := by
    intro f e m hpop hv
    obtain ⟨p1, p2, p3, p4, p5, -⟩ := popped hpop
    have := frameCost_pos p1
    subst hv
    refine ⟨p5, p4, ?_⟩
    have e1 : stackCost (sortRange block (substringDepth w.engine.nLat.toNat (textOrder w.pa)) m f e w).engine =
        ((framesOf e).map (frameCost w.engine.nLat.toNat)).sum := stackCost_eq p3 rfl
    omega
  rcases h with h | ⟨h0, hv⟩
  · unfold substringStep at h
    simp only at h
    split at h
    · next hpop =>
      have hz := (popFrame_none hb.stack_depth).1 hpop
      split at h
      · next hlt =>
        cases h
        have e1 : (mergeBlock block (substringDepth w.engine.nLat.toNat (textOrder w.pa)) w).engine.taken =
            w.engine.taken := by unfold mergeBlock; simp only; split <;> rfl
        have e2 : (mergeBlock block (substringDepth w.engine.nLat.toNat (textOrder w.pa)) w).engine.sorted =
            w.engine.taken := by unfold mergeBlock; simp only; split <;> rfl
        rw [e1, e2]
        simp [hlt]
      · next hlt =>
        unfold takeBlock at h
        obtain ⟨e', he, rfl⟩ := Option.map_eq_some_iff.1 h
        simp only [substringsDone, decide_eq_false_iff_not] at hd
        have c1 : e'.taken = w.engine.taken := by rw [pushFrames_only he]
        simp only [c1]
        simp only [Config.ssBlockSize]
        omega
    · next f e hpop =>
      obtain ⟨p1, p2, p3, p4, p5, p6⟩ := popped hpop
      split at h
      · next hm =>
        unfold multikeyStep at h
        obtain ⟨e', he, rfl⟩ := Option.map_eq_some_iff.1 h
        obtain ⟨q1, q2, -, -⟩ := pushFrames_frames he p6
        have c1 : e'.taken = w.engine.taken := by rw [q1]; exact p5
        have c2 : e'.sorted = w.engine.sorted := by rw [q1]; exact p4
        have c3 : e'.nLat = w.engine.nLat := by rw [q1]; exact p3
        have hl := rangeEntries_length_le (frameRange e.pa f) w.pa
        have hsum := countP_side (byteKey block f.depth.toNat)
          (byteKey block f.depth.toNat (pivotEntry free (rangeEntries (frameRange e.pa f) w.pa)))
          (rangeEntries (frameRange e.pa f) w.pa)
        have hc := splitFrames_cost p1 hn hdep (limit_of_multikey hm) (le_trans (le_of_eq hsum) hl)
        right
        refine ⟨by rw [c1], .inr ⟨by simp only [c1, c2], .inl ?_⟩⟩
        simp only
        rw [stackCost_eq c3 q2, p2, List.map_append, List.sum_append]
        exact Nat.add_lt_add_left hc _
      · cases h
        obtain ⟨s1, s2, s3⟩ := sorted _ hpop rfl
        exact .inr ⟨by rw [s1], .inr ⟨by rw [s1, s2], .inl s3⟩⟩
  · unfold substringSpill at hv
    split at hv
    · next hpop =>
      exfalso
      have hz := (popFrame_none hb.stack_depth).1 hpop
      unfold substringStep at h0
      simp only [hpop] at h0
      split at h0
      · simp at h0
      · simp only [takeBlock, Option.map_eq_none_iff] at h0
        exact pushFrames_empty hz h0
    · next f e hpop =>
      obtain ⟨s1, s2, s3⟩ := sorted _ hpop hv
      exact .inr ⟨by rw [s1], .inr ⟨by rw [s1, s2], .inl s3⟩⟩

/-! ## TRSORT -/

theorem unmarkedCount_append (xs ys : List Word) :
    unmarkedCount (xs ++ ys) = unmarkedCount xs + unmarkedCount ys := List.countP_append

/-- A list marked from end to end has no entry without its mark. -/
theorem unmarkedCount_eq_zero {xs : List Word} (h : allDone xs = true) : unmarkedCount xs = 0 := by
  rw [unmarkedCount, List.countP_eq_zero]
  intro x hx
  simp [List.all_eq_true.1 h x hx]

theorem unmarkedCount_pos {xs : List Word} (h : allDone xs = false) : 0 < unmarkedCount xs := by
  rw [unmarkedCount, List.countP_pos_iff]
  simp only [allDone, List.all_eq_false] at h
  obtain ⟨x, hx, hm⟩ := h
  exact ⟨x, hx, by simpa using hm⟩

theorem allDone_markAll (xs : List Word) : allDone (markAll xs) = true := by
  simp [allDone, markAll]

/-- The unmarked entries, range by range. -/
theorem unmarkedCount_onRange (f : List Word → List Word) (r : Nat × Nat) (pa : List Word) :
    unmarkedCount (onRange r.1 r.2 f pa) + unmarkedCount (rangeEntries r pa) =
      unmarkedCount pa + unmarkedCount (f (rangeEntries r pa)) := by
  have e : unmarkedCount pa = unmarkedCount (pa.take r.1) + (unmarkedCount (rangeEntries r pa) +
      unmarkedCount ((pa.drop r.1).drop r.2)) := by
    rw [rangeEntries, ← unmarkedCount_append, ← unmarkedCount_append, List.take_append_drop, List.take_append_drop]
  rw [onRange, unmarkedCount_append, unmarkedCount_append, e]
  simp only [rangeEntries]
  omega

/-- Where `lsSort` finishes a range with an unmarked entry, fewer are left. -/
theorem unmarkedCount_markRange {f : List Word → List Word} {r : Nat × Nat} {pa : List Word}
    (h : allDone (rangeEntries r pa) = false) :
    unmarkedCount (onRange r.1 r.2 (fun l => markAll (f l)) pa) < unmarkedCount pa := by
  have h1 := unmarkedCount_onRange (fun l => markAll (f l)) r pa
  have h2 := unmarkedCount_eq_zero (allDone_markAll (f (rangeEntries r pa)))
  have h3 := unmarkedCount_pos h
  omega

/-- The budget after a charge is less, or it is spent. -/
theorem chargeBudget_spec (size : Nat) (b : Budget) (h : 1 ≤ size) :
    ((chargeBudget size b).2 = .lsSort ∧ (chargeBudget size b).1 = b) ∨
    ((chargeBudget size b).2 ≠ .lsSort ∧ ((chargeBudget size b).1.chances < b.chances ∨
      (chargeBudget size b).1.chances = b.chances ∧ (chargeBudget size b).1.remain < b.remain)) := by
  unfold chargeBudget
  split
  · exact .inr ⟨by simp, .inr ⟨rfl, by simp only; omega⟩⟩
  · split
    · exact .inr ⟨by simp, .inl (by simp only; omega)⟩
    · exact .inl ⟨rfl, rfl⟩

theorem refinementLeft_step {block : List Byte} {n free : Nat} {w v : SortWork} (hb : BoundsInv w.engine)
    (hl : w.pa.length = w.engine.pa.len) (hd : refinementDone w = false)
    (h : refinementStep block n free w = some v ∨ refinementStep block n free w = none ∧ v = refinementSpill block w) :
    SortLess (refinementLeft v) (refinementLeft w) := by
  have hlen := (refinementStep_spec (h.imp_right And.right)).paLength
  have hn := w.engine.nLat.isLt
  have hs : w.engine.ssize ≤ 64 := hb.stack_depth
  have hin := hb.pa_inside
  rw [sortLess_iff, hlen]
  rcases h with h | ⟨h0, hv⟩
  · unfold refinementStep at h
    split at h
    · next hpop =>
      have hz := (popFrame_none hb.stack_depth).1 hpop
      have hf0 := framesOf_zero hz
      split at h
      · next hlt =>
        unfold takeGroup at h
        simp only at h
        generalize hg : min (w.pa.length - w.engine.taken) (max 1 ((textOrder w.pa).countP
          (fun p => decide (rankAt (textOrder w.pa) w.isa p = w.engine.taken)))) = g at h
        have hg1 : 1 ≤ g := by omega
        have hg2 : g ≤ w.pa.length - w.engine.taken := by omega
        have past : ∀ k, w.pa.drop w.engine.taken =
            rangeEntries (w.engine.taken, k) w.pa ++ w.pa.drop (w.engine.taken + k) := by
          intro k
          rw [rangeEntries, ← List.drop_drop, List.take_append_drop]
        split at h
        · next hone =>
          cases h
          subst hone
          simp only
          right
          refine ⟨by trivial, .inr ⟨by trivial, ?_⟩⟩
          cases hm : allDone (rangeEntries (w.engine.taken, 1) w.pa) with
          | false =>
            exact .inl (unmarkedCount_markRange (f := id) (r := (w.engine.taken, 1)) hm)
          | true =>
            have h1 := unmarkedCount_onRange markAll (w.engine.taken, 1) w.pa
            rw [unmarkedCount_eq_zero hm, unmarkedCount_eq_zero (allDone_markAll _)] at h1
            have h2 : (onRange w.engine.taken 1 markAll w.pa).drop (w.engine.taken + 1) =
                w.pa.drop (w.engine.taken + 1) := by
              rw [onRange, ← List.append_assoc, List.drop_left' (by simp; omega), List.drop_drop]
            have h3 : workPending { w with
                engine := { w.engine with taken := w.engine.taken + 1 }, pa := onRange w.engine.taken 1 markAll w.pa } =
                workPending w := by
              simp only [workPending, h2]
              rw [past 1, show framesOf { w.engine with taken := w.engine.taken + 1 } = framesOf w.engine from rfl, hf0]
              simp only [allDone, List.all_append] at hm ⊢
              rw [hm]
              simp
            rw [h3]
            exact .inr ⟨by omega, .inr ⟨rfl, .inl (by omega)⟩⟩
        · next hone =>
          split at h
          · next hm =>
            cases h
            simp only
            have h3 : workPending { w with engine := { w.engine with taken := w.engine.taken + g } } = workPending w := by
              simp only [workPending]
              rw [past g, show framesOf { w.engine with taken := w.engine.taken + g } = framesOf w.engine from rfl, hf0]
              simp only [allDone, List.all_append] at hm ⊢
              rw [hm]
              simp
            rw [h3]
            exact .inr ⟨by trivial, .inr ⟨by trivial, .inr ⟨by trivial, .inr ⟨rfl, .inl (by omega)⟩⟩⟩⟩
          · next hm =>
            obtain ⟨e', he, rfl⟩ := Option.map_eq_some_iff.1 h
            obtain ⟨q1, q2, q3, -⟩ := pushFrames_frames he hs
            have c1 : e'.budget = w.engine.budget := by rw [q1]
            have c2 : e'.taken = w.engine.taken + g := by rw [q1]
            have c3 : e'.pa = w.engine.pa := by rw [q1]
            have hp : workPending { w with engine := e' } = true := by
              obtain ⟨f, hf, hr⟩ := partFrame_covers w.engine.pa (first := w.engine.pa.base + w.engine.taken)
                (BitVec.ofNat 32 w.engine.depth) ((Config.trDepthLimit g).setWidth 32) (show 2 ≤ g by omega) (by omega)
              simp only [workPending, Bool.or_eq_true]
              refine .inr (List.any_eq_true.2 ⟨f, by rw [q2]; exact List.mem_append_right _ hf, ?_⟩)
              rw [c3, hr, Nat.add_sub_cancel_left, rangeEntries_length (by simp only; omega)]
              simp only [Bool.and_eq_true, decide_eq_true_eq]
              exact ⟨by omega, by simpa using hm⟩
            simp only [c1, c2, hp, if_true]
            refine .inr ⟨trivial, .inr ⟨trivial, .inr ⟨trivial, ?_⟩⟩⟩
            split <;> omega
      · next hlt =>
        cases h
        have hd : allDone w.pa = false := by simpa [refinementDone, hz] using hd
        have h1 : workPending w = false := by
          simp only [workPending, hf0, List.any_nil, Bool.or_false]
          rw [List.drop_eq_nil_of_le (by omega)]
          rfl
        have h2 : workPending (nextRound w) = true := by
          simp [workPending, nextRound, hd]
        rw [h1, h2]
        exact .inr ⟨rfl, .inr ⟨rfl, .inr ⟨rfl, .inl (by simp)⟩⟩⟩
    · next f e hpop =>
      obtain ⟨p1, p2, p3⟩ := popFrame_frames hpop hs
      have c1 : e.budget = w.engine.budget := by rw [p1]
      have c2 : e.taken = w.engine.taken := by rw [p1]
      have c3 : e.pa = w.engine.pa := by rw [p1]
      unfold refineRange at h
      simp only at h
      split at h
      · next hskip =>
        cases h
        have hp : workPending { w with engine := e } = workPending w := by
          simp only [workPending, c2, c3, p2, List.any_append, List.any_cons, List.any_nil, Bool.or_false]
          rw [c3] at hskip
          have : (decide (2 ≤ (rangeEntries (frameRange w.engine.pa f) w.pa).length) &&
              !allDone (rangeEntries (frameRange w.engine.pa f) w.pa)) = false := by
            rcases hskip with h | h
            · simp only [Bool.and_eq_false_imp, decide_eq_true_eq]
              omega
            · simp [h]
          rw [this]
          simp
        simp only [hp, c1, c2]
        exact .inr ⟨trivial, .inr ⟨trivial, .inr ⟨trivial, .inr ⟨trivial, .inr ⟨trivial, by omega⟩⟩⟩⟩⟩
      · next hskip =>
        have hskip := not_or.1 hskip
        have hch := chargeBudget_spec (rangeEntries (frameRange e.pa f) w.pa).length e.budget (by omega)
        rw [c1] at hch
        rw [c1] at h
        split at h
        · next hls =>
          cases h
          rcases hch with ⟨-, hch⟩ | ⟨hch, -⟩
          · simp only [lsRange, hch]
            exact .inr ⟨trivial, .inr ⟨trivial, .inl (unmarkedCount_markRange (by simpa using hskip.2))⟩⟩
          · exact absurd hls hch
        · next hls =>
          rcases hch with ⟨hch, -⟩ | ⟨-, hch⟩
          · exact absurd hch hls
          · have done : v.engine.budget = (chargeBudget (rangeEntries (frameRange e.pa f) w.pa).length w.engine.budget).1 := by
              split at h
              · unfold introRange at h
                obtain ⟨e', he, rfl⟩ := Option.map_eq_some_iff.1 h
                simp only
                rw [pushFrames_only he]
              · obtain ⟨e', he, rfl⟩ := Option.map_eq_some_iff.1 h
                simp only
                rw [(pushFrame_frames he).1]
            rw [done]
            rcases hch with hch | ⟨h1, h2⟩
            · exact .inl hch
            · exact .inr ⟨h1, .inl h2⟩
  · unfold refinementSpill at hv
    unfold refinementStep at h0
    split at hv
    · next hpop =>
      exfalso
      simp only [hpop] at h0
      split at h0
      · unfold takeGroup at h0
        simp only at h0
        split at h0
        · simp at h0
        · split at h0
          · simp at h0
          · simp only [Option.map_eq_none_iff] at h0
            exact pushFrames_empty (by exact (popFrame_none hb.stack_depth).1 hpop) h0
      · simp at h0
    · next f e hpop =>
      simp only [hpop] at h0
      have c1 : e.budget = w.engine.budget := by rw [popFrame_only hpop]
      unfold refineRange at h0
      simp only at h0
      split at h0
      · simp at h0
      · next hskip =>
        have hskip := not_or.1 hskip
        have hch := chargeBudget_spec (rangeEntries (frameRange e.pa f) w.pa).length e.budget (by omega)
        split at h0
        · simp at h0
        · next hls =>
          subst hv
          rw [c1] at hch hls
          rcases hch with ⟨hch, -⟩ | ⟨-, hch⟩
          · exact absurd hch hls
          · simp only [lsRange, c1]
            rcases hch with hch | ⟨h1, h2⟩
            · exact .inl hch
            · exact .inr ⟨h1, .inl h2⟩

/-! ## The run -/

/-- What is left of a run: its phases, the sort, and the internal steps before the phase's next. -/
def runLeft (s : State) : Nat × (Nat × Nat × Nat × Nat × Nat × Nat) × Nat :=
  (phaseRank s.engine.phase, sortLeft s.engine.phase (loadWork s), s.engine.work)

/-- The lexicographic order of what is left of a run. -/
abbrev RunLess : Nat × (Nat × Nat × Nat × Nat × Nat × Nat) × Nat → Nat × (Nat × Nat × Nat × Nat × Nat × Nat) × Nat →
    Prop :=
  Prod.Lex (· < ·) (Prod.Lex SortLess (· < ·))

theorem runLess_wf : WellFounded RunLess :=
  WellFounded.prod_lex Nat.lt_wfRel.wf (WellFounded.prod_lex sortLess_wf Nat.lt_wfRel.wf)

theorem sortLeft_work (p : Phase) (w : SortWork) (k : Nat) :
    sortLeft p { w with engine := { w.engine with work := k } } = sortLeft p w := by
  cases p <;> rfl

/-- Every engine step ends the run or leaves less of it (42_bwt_engine.md R168). -/
theorem EngineOutcome.less {u t : State} (h : EngineOutcome u t) (hb : BoundsInv u.engine) (hp : u.engine.phase ≠ .idle) :
    t.engine.phase = .idle ∨ RunLess (runLeft t) (runLeft u) := by
  have rank : ∀ {t : State}, phaseRank t.engine.phase < phaseRank u.engine.phase → RunLess (runLeft t) (runLeft u) :=
    fun h => Prod.Lex.left _ _ h
  have sort : ∀ {v : SortWork} {k : Nat}, SortStep (loadWork u) v →
      SortLess (sortLeft u.engine.phase v) (sortLeft u.engine.phase (loadWork u)) →
      RunLess (runLeft (storeWork { v with engine := { v.engine with work := k } } (u.drawn 2))) (runLeft u) := by
    intro v k hv hl
    have hbv : BoundsInv { v.engine with work := k } := by
      obtain ⟨a, b, c, d, e, f⟩ := hv.bounds (by simp [loadWork]) hb
      exact ⟨a, b, c, d, e, f⟩
    have e1 : v.engine.pa = u.engine.pa := by rw [hv.only]; rfl
    have e2 : v.engine.isa = u.engine.isa := by rw [hv.only]; rfl
    have e3 : v.engine.phase = u.engine.phase := by rw [hv.only]; rfl
    have e4 : v.engine.nLat = u.engine.nLat := by rw [hv.only]; rfl
    have l1 : (loadWork u).pa.length = u.engine.pa.len := by simp [loadWork]
    have l2 : (loadWork u).isa.length = u.engine.isa.len := by simp [loadWork]
    have l3 := hb.entries
    have hld := loadWork_storeWork (w := { v with engine := { v.engine with work := k } }) (s := u.drawn 2) hbv e4
      (by simp only; rw [hv.paLength, l1, e1]) (by simp only; rw [hv.isaLength (by omega), l1, e2]; omega)
    unfold runLeft
    rw [hld, storeWork_engine, sortLeft_work]
    simp only
    rw [e3]
    exact Prod.Lex.right _ (Prod.Lex.left _ _ hl)
  cases h with
  | idle h => exact absurd h hp
  | complete => exact .inl rfl
  | classified h => exact .inr (rank (by simp [phaseRank, h]))
  | sorted h => exact .inr (rank (by simp [phaseRank, h]))
  | refined h => exact .inr (rank (by simp [phaseRank, h]))
  | substring h hw hd v free k hv =>
    refine .inr (sort (EngineOutcome.sortStep (.inl hv)) ?_)
    rw [h]
    exact substringLeft_step hb rfl hd hv
  | refinement h hw hd v free k hv =>
    refine .inr (sort (EngineOutcome.sortStep (.inr hv)) ?_)
    rw [h]
    exact refinementLeft_step hb (by simp [loadWork]) hd hv
  | fault => exact .inl (by simp)
  | move hw hc =>
    obtain ⟨hm, hk, -⟩ := moved_spec u (Config.freeMove u.draws)
    have e1 : (moved u (Config.freeMove u.draws)).phase = u.engine.phase := by rw [hm.only]
    have hld := loadWork_storeWork (w := { loadWork u with engine := moved u (Config.freeMove u.draws) }) (s := u.drawn 1)
      (hm.bounds hb) (by simp only; rw [hm.only]; rfl) (by simp only; rw [hm.only]; simp [loadWork])
      (by simp only; rw [hm.only]; simp [loadWork])
    have hs : sortLeft u.engine.phase { loadWork u with engine := moved u (Config.freeMove u.draws) } =
        sortLeft u.engine.phase (loadWork u) := by
      rw [hm.only]
      cases u.engine.phase <;> rfl
    refine .inr ?_
    simp only [moveStep, runLeft, hld, storeWork_engine, e1, hs, hk]
    exact Prod.Lex.right _ (Prod.Lex.right _ (by omega))
  | induce h hw =>
    refine .inr ?_
    simp only [runLeft, induceStep_engine, h, sortLeft, hw]
    exact Prod.Lex.right _ (Prod.Lex.right _ (by omega))

/-- Every engine step of a running block ends the run or leaves less of it, and keeps the sort inside its bounds. -/
theorem engineStep_less {s : State} (hb : BoundsInv s.engine) (hp : s.engine.phase ≠ .idle) :
    BoundsInv (engineStep s).engine ∧
      ((engineStep s).engine.phase = .idle ∨ RunLess (runLeft (engineStep s)) (runLeft s)) :=
  ⟨(engineStep_outcome s).bounds hb, (engineStep_outcome s).less hb hp⟩

end Sys2Proof.Machine
end

