-- ==== Sys2Proof/Laws/PerInstr.lean ====
section
/-! SUPPORT. The statements made per instruction: an instruction's encoding is a well-formed packet (30_encoding.md R91,
R92, R95). -/

namespace Sys2Proof.Laws.EncodesWell

def Statement (i : Instr) : Prop := (encode i).wellFormed = true

theorem nop : Statement .nop := encode_wellFormed _

theorem bwt : Statement .bwt := encode_wellFormed _

theorem clear : Statement .clear := encode_wellFormed _

theorem rd8 (addr : Addr) : Statement (.rd8 addr) := encode_wellFormed _

theorem rd32 (addr : Addr) : Statement (.rd32 addr) := encode_wellFormed _

theorem wr8 (addr : Addr) (data : Byte) : Statement (.wr8 addr data) := encode_wellFormed _

theorem wr32 (addr : Addr) (data : Word) : Statement (.wr32 addr data) := encode_wellFormed _

end Sys2Proof.Laws.EncodesWell
end

