-- ==== Sys2Proof/Laws/Step.lean ====
section
/-! SUPPORT. Which agent a step moves, and what a host step can do. -/

namespace Sys2Proof.Machine

theorem nextLine_eq (s : State) : nextLine s = { s with agent := { s.agent with line := s.agent.line + 1 } } :=
  rfl

/-- The cases of a step: reset, an engine step, or a host step, each after the reset input's level is taken. -/
theorem step_cases {s t : State} (h : step s = .next t) :
    s.modelFault = none ∧
    ((∃ r, s.resetIn = true :: r ∧ t = (blockReset s).setResetIn r) ∨
      (s.resetIn.head? ≠ some true ∧ ∃ u, u = s.setResetIn s.resetIn.tail ∧
        ((engineMoves s = true ∧ t = engineStep u) ∨
          (engineMoves s = false ∧ hostStep (spendTurn u) = .next t)))) := by
  unfold step machineStep at h
  split at h
  · simp at h
  · next hf =>
    refine ⟨hf, ?_⟩
    unfold levelStep at h
    split at h
    · next hr =>
      refine .inr ⟨by simp [hr], s, by cases s; simp_all [State.setResetIn], ?_⟩
      unfold agentStep at h
      split at h
      · next he => exact .inl ⟨he, by simpa using h.symm⟩
      · next he => exact .inr ⟨by simpa using he, h⟩
    · next r hr => exact .inl ⟨r, hr, by simpa using h.symm⟩
    · next r hr =>
      refine .inr ⟨by simp [hr], _, rfl, ?_⟩
      rw [hr, List.tail_cons]
      have hm : engineMoves (s.setResetIn r) = engineMoves s := rfl
      unfold agentStep at h
      split at h
      · next he => exact .inl ⟨by rwa [hm] at he, by simpa using h.symm⟩
      · next he => exact .inr ⟨by simpa [hm] using he, h⟩

/-- A step with no reset and no fault, the engine to move. -/
theorem step_engine {s : State} (hf : s.modelFault = none) (hr : s.resetIn = []) (he : engineMoves s = true) :
    step s = .next (engineStep s) := by
  simp [step, machineStep, hf, levelStep, hr, agentStep, he]

/-- A step with no reset and no fault, the host to move. -/
theorem step_host {s : State} (hf : s.modelFault = none) (hr : s.resetIn = []) (he : engineMoves s = false) :
    step s = hostStep (spendTurn s) := by
  simp [step, machineStep, hf, levelStep, hr, agentStep, he]

/-- Spending a turn changes the count of turns alone. -/
theorem spendTurn_eq (s : State) :
    spendTurn s = { s with hostTurns := if s.status.busy then s.hostTurns - 1 else s.hostTurns } := by
  unfold spendTurn
  split <;> simp_all [State.setHostTurns]

/-- The cases of a host step: nothing, a move of the host alone, or a transaction. -/
theorem hostStep_cases {s t : State} (h : hostStep s = .next t) :
    (hostLine s = none ∧ t = s) ∨
    (∃ a, t = s.setAgent a) ∨
    (∃ p i, hostLine s = some (.transaction p) ∧ decode p = .ok i ∧ exec i (nextLine s) = .next t) ∨
    (∃ p, hostLine s = some (.transaction p) ∧ decode p = .error .illegalCommand ∧
      t = unlessBusy (setError .illegalCmd) (nextLine s)) := by
  have hj : ∀ l, jumpTo l s = .next t → ∃ a, t = s.setAgent a := by
    intro l hl
    unfold jumpTo at hl
    split at hl
    · exact ⟨_, by simpa using hl.symm⟩
    · simp at hl
  unfold hostStep at h
  split at h
  · next hl => exact .inl ⟨hl, by simpa using h.symm⟩
  · next x hl =>
    cases x with
    | label l => exact .inr (.inl ⟨_, (Host.Outcome.next.inj h).symm⟩)
    | transaction p =>
      refine .inr (.inr ?_)
      simp only [lineStep, issue] at h
      split at h
      · next i hi => exact .inl ⟨p, i, hl, hi, h⟩
      · next hi => exact .inr ⟨p, hl, hi, by simpa using h.symm⟩
      all_goals simp at h
    | jbit b l =>
      simp only [lineStep, jumpOnBit] at h
      split at h
      · exact .inr (.inl (hj l h))
      · exact .inr (.inl ⟨_, (Host.Outcome.next.inj h).symm⟩)
    | jnbit b l =>
      simp only [lineStep, jumpOnBit] at h
      split at h
      · exact .inr (.inl (hj l h))
      · exact .inr (.inl ⟨_, (Host.Outcome.next.inj h).symm⟩)
    | jmp l => exact .inr (.inl (hj l h))
    | halt => exact .inr (.inl ⟨_, (Host.Outcome.next.inj h).symm⟩)
    | expect v => exact .inr (.inl ⟨_, (Host.Outcome.next.inj h).symm⟩)

end Sys2Proof.Machine
end

