-- ==== Sys2Proof/Tests/Slice0.lean ====
section
/-! SUPPORT. Tests of the model against words, vectors and programs the spec gives (95_test_vectors.md), and for every
obligation that has hypotheses a state and operands that meet them together. -/

namespace Sys2Proof.Tests

open Sys2Proof.Machine

/-! ## Ill-formed terms the checks refuse -/

/-- Bit 23 set (B37). -/
theorem test_mbz_low_is_ill_formed : (Packet.bus 0x00800000#32 .none).wellFormed = false := by decide

/-- Bit 28 set. -/
theorem test_mbz_high_is_ill_formed : (Packet.bus 0x10000000#32 .none).wellFormed = false := by decide

/-- `SZ = 01` (B35). -/
theorem test_size_01_is_ill_formed : (Packet.bus 0x20000000#32 .none).wellFormed = false := by decide

/-- `SZ = 11` (B36). -/
theorem test_size_11_is_ill_formed : (Packet.bus 0x60000000#32 .none).wellFormed = false := by decide

theorem test_read_with_data_is_ill_formed : (Packet.bus 0x00100000#32 (.d8 1#8)).wellFormed = false := by decide

theorem test_write_without_data_is_ill_formed : (Packet.bus 0x80100000#32 .none).wellFormed = false := by decide

theorem test_byte_write_of_a_word_is_ill_formed : (Packet.bus 0x80100000#32 (.d32 1#32)).wellFormed = false := by
  decide

/-- `OP = 0` with `MBZ != 0` (C6). -/
theorem test_illegal_command_is_ill_formed : (Packet.cmd 0x10#32).wellFormed = false := by decide

theorem test_ill_formed_line : scriptWellFormed [.transaction (.bus 0x00800000#32 .none)] = false := by decide

theorem test_label_defined_twice : scriptWellFormed [.label (.named 0), .label (.named 0)] = false := by decide

theorem test_target_not_defined : scriptWellFormed [.jmp (.named 0)] = false := by decide

theorem test_well_formed_script :
    scriptWellFormed [.label (.named 0), .transaction (.bus 0x40000008#32 .none), .jbit 0 (.named 0), .halt] = true := by
  decide

/-! ## Words written out from 30_encoding.md R91 and R95 -/

theorem test_decode_nop : decode (.cmd 0b00000000000000000000000000000000#32) = .ok .nop := by decide

theorem test_decode_bwt : decode (.cmd 0b00000000000000000000000000000001#32) = .ok .bwt := by decide

theorem test_decode_clear : decode (.cmd 0b00000000000000000000000000000010#32) = .ok .clear := by decide

/-- `rd8 T_BASE+2` (P1). -/
theorem test_decode_rd8 : decode (.bus 0b00000000000100000000000000000010#32 .none) = .ok (.rd8 0x100002#23) := by decide

/-- The highest address (B34). -/
theorem test_decode_rd32 : decode (.bus 0b01000000011111111111111111111100#32 .none) = .ok (.rd32 0x7FFFFC#23) := by
  decide

/-- `wr8 T_BASE+6, 'b'` (B33). -/
theorem test_decode_wr8 :
    decode (.bus 0b10000000000100000000000000000110#32 (.d8 0x62#8)) = .ok (.wr8 0x100006#23 0x62#8) := by decide

/-- `wr32 REG_LEN, 6` (B32). -/
theorem test_decode_wr32 :
    decode (.bus 0b11000000000000000000000000001100#32 (.d32 6#32)) = .ok (.wr32 0x00000C#23 6#32) := by decide

/-- The `MBZ` check comes first (B38). -/
theorem test_decode_mbz_first : decode (.bus 0xFF800000#32 .none) = .error .mbzSet := by decide

/-- The table's numbering of bits: the data operand stands above bit 31. -/
theorem test_table_word_with_data : decodeTableWord 40 0x6280100006 = some (.wr8 0x100006#23 0x62#8) := by decide

theorem test_table_word_bwt : decodeTableWord 32 0x1 = some .bwt := by decide

/-! ## States -/

/-- "banana" with its wrap byte, and `LEN = 6` (V6). -/
def banana : State :=
  { State.reset with
    tMem := [(0, 0x62#8), (1, 0x61#8), (2, 0x6E#8), (3, 0x61#8), (4, 0x6E#8), (5, 0x61#8), (6, 0x62#8)]
    len := 6#24 }

/-- The bytes of "banana". -/
def bananaBytes : List Byte := [0x62#8, 0x61#8, 0x6E#8, 0x61#8, 0x6E#8, 0x61#8]

/-- A run over "banana" in a phase, with `SA[9]` written before it. -/
def running (p : Phase) : State :=
  { banana with
    saMem := [(9, 0x11#32)]
    status := ⟨true, false, false, false, .none⟩
    engine := { Engine.reset with phase := p, nLat := 6#24 } }

/-- `cab` with the byte `x` in the wrap byte's place (C10). -/
def cab (x : Byte) : State :=
  { State.reset with tMem := [(0, 0x63#8), (1, 0x61#8), (2, 0x62#8), (3, x)], len := 3#24 }

/-- The state an outcome leaves. -/
def stateOf (o : Host.Outcome State Fault Refusal) : Option State :=
  match o with
  | .next s => some s
  | _ => none

/-- The `STATUS` word an outcome leaves. -/
def statusOf (o : Host.Outcome State Fault Refusal) : Option Word := (stateOf o).map (fun s => s.status.word)

/-- The value an outcome leaves in `RES`. -/
def resOf (o : Host.Outcome State Fault Refusal) : Option Word := (stateOf o).map (fun s => s.agent.res)

/-- The fault mark an outcome leaves. -/
def faultOf (o : Host.Outcome State Fault Refusal) : Option (Option Fault) := (stateOf o).map (fun s => s.modelFault)

theorem reset_memories_wf : Memory.wf State.reset.tMem ∧ Memory.wf State.reset.saMem := by decide

/-! ## One step of each instruction -/

/-- C2. -/
theorem test_nop_while_busy : statusOf (exec .nop (running .sssort)) = some 0x1#32 := by decide

/-- C10; and `N_MAX` is a parameter: a block that takes 5 bytes at most turns "banana" away (41_commands.md R142). -/
theorem test_bwt_turned_away :
    statusOf (exec .bwt (cab 0x78#8)) = some 0x34#32 ∧
    statusOf (exec .bwt { banana with nMax := 5#24 }) = some 0x24#32 := by decide

/-- C14: the unwritten input comes before the wrap check. -/
theorem test_bwt_unwritten_input :
    faultOf (exec .bwt { State.reset with tMem := [(0, 0x61#8), (1, 0x61#8)], len := 2#24 }) =
      some (some .unwrittenInput) := by decide

/-- C9. -/
theorem test_clear : statusOf (exec .clear { banana with status := ⟨false, true, false, true, .none⟩ }) = some 0#32 := by
  decide

/-- C4. -/
theorem test_clear_while_busy : statusOf (exec .clear (running .trsort)) = some 0x9#32 := by decide

/-- B20. -/
theorem test_rd8_while_busy : resOf (exec (.rd8 0x100001#23) (running .sssort)) = some 0x61#32 := by decide

/-- B22. -/
theorem test_rd8_of_a_register : faultOf (exec (.rd8 0x8#23) banana) = some (some (.busError 0x8#23)) := by decide

/-- Little-endian lanes (B9, B12). -/
theorem test_rd32_lanes : resOf (exec (.rd32 0x100000#23) banana) = some 0x616E6162#32 := by decide

/-- B16: `SA[i]` with `i > n` keeps its word while the engine runs. -/
theorem test_rd32_sa_beyond_the_block : resOf (exec (.rd32 0x400024#23) (running .sssort)) = some 0x11#32 := by decide

/-- The last byte of `T_MEM` (B11). -/
theorem test_wr8_last_byte :
    (stateOf (exec (.wr8 0x1DBBA3#23 0xAA#8) State.reset)).map (fun s => s.tMem) = some [(900003, 0xAA#8)] := by decide

/-- B18. -/
theorem test_wr8_while_busy : statusOf (exec (.wr8 0x100000#23 0x7A#8) (running .construct)) = some 0x9#32 := by decide

/-- B9. -/
theorem test_wr32_lanes :
    (stateOf (exec (.wr32 0x100000#23 0x04030201#32) State.reset)).map (fun s => s.tMem) =
      some [(0, 1#8), (1, 2#8), (2, 3#8), (3, 4#8)] := by decide

/-- C6: `OP = 0` with `MBZ != 0` is illegal. -/
theorem test_wr32_illegal_command : statusOf (exec (.wr32 0x4#23 0x10#32) banana) = some 0x14#32 := by decide

/-! ## The engine and the transform -/

/-- V6. -/
theorem test_completion_of_banana :
    (engineStep (running .construct)).startPtr = 3#24 ∧ (engineStep (running .construct)).status.word = 2#32 ∧
      (List.range 6).map (Memory.read (engineStep (running .construct)).saMem) =
        [some 0x6E#32, some 0x6E#32, some 0x62#32, some 0x61#32, some 0x61#32, some 0x61#32] := by decide

/-- V13: bytes compare unsigned. -/
theorem test_unsigned_order : rowOrder [0xFF#8, 0x00#8, 0x7F#8, 0x80#8] = [1, 2, 3, 0] := by decide

/-- V16: the order is that of rotations, not of suffixes. -/
theorem test_rotation_order :
    rowOrder [0x62#8, 0x61#8, 0x62#8] = [1, 0, 2] ∧ transform [0x62#8, 0x61#8, 0x62#8] = [0x62#8, 0x62#8, 0x61#8] := by
  decide

/-- V8: the rows rotation 0 may have. -/
theorem test_periodic_block :
    rowsBelow [0x61#8, 0x62#8, 0x61#8, 0x62#8] = 0 ∧ rowsEqual [0x61#8, 0x62#8, 0x61#8, 0x62#8] = 2 := by decide

/-- The inverse of V6 from its start pointer (42_bwt_engine.md R182). -/
theorem test_inverse_of_banana :
    inverseTransform [0x6E#8, 0x6E#8, 0x62#8, 0x61#8, 0x61#8, 0x61#8] 3 = bananaBytes := by decide

/-- Type A, B and B* positions of "banana" (42_bwt_engine.md R171), its last position taken as type A. -/
theorem test_suffix_classes : suffixClasses .a bananaBytes = [.a, .bStar, .a, .bStar, .a, .a] := by decide

/-- I6: an accepted BWT keeps `VIOL`, and the interrupt it raises. -/
theorem test_irq_survives_acceptance :
    (stateOf (exec .bwt { banana with status := ⟨false, true, false, true, .none⟩, irqEn := 4#3 })).map
      (fun s => (s.irq, s.status.word)) = some (true, 0x9#32) := by decide

/-- The bytes of V6, induced from its B* suffixes in their order (42_bwt_engine.md R179). -/
theorem test_induction_of_banana : inducedTransform bananaBytes [3, 1] = [0x6E#8, 0x6E#8, 0x62#8, 0x61#8, 0x61#8, 0x61#8] := by
  decide

/-- `anaban` stands before `ananab`: the B* suffixes of "banana" sorted, forward and backward (42_bwt_engine.md R174). -/
theorem test_merges_of_banana :
    mergeForward bananaBytes 6 [1#32] [3#32] = [3#32, 1#32] ∧ mergeBackward bananaBytes 6 [1#32] [3#32] = [3#32, 1#32] := by
  decide

/-- The block `ababac`: its B* suffixes 0, 2 and 4 are two bytes apart. -/
def ababac : List Byte := [0x61#8, 0x62#8, 0x61#8, 0x62#8, 0x61#8, 0x63#8]

/-- The B* suffixes 0 and 2 of `ababac` agree in `ab`; the ranks of those ahead of them, 2 and 4, tell them apart, and each
is then alone and marked (42_bwt_engine.md R175, 10_state.md R43). -/
theorem test_depth_doubling :
    ranks ababac 2 [0#32, 2#32, 4#32] = [0#32, 0#32, 2#32] ∧ rangeAligned 6 1 [0, 2, 4] [0#32, 2#32] = true ∧
    (introRange 0 ⟨0#32, 1#32, 1#32, 0#32⟩ (0, 2) ⟨Engine.reset, [0#32, 2#32, 4#32], [0#32, 0#32, 2#32]⟩).map
        (fun v => (v.pa, v.isa)) =
      some ([0xFFFFFFFF#32, 0xFFFFFFFD#32, 4#32], [0#32, 1#32, 2#32]) := by decide

/-- The threshold of 8 entries and the recursion limit (42_bwt_engine.md R174). -/
theorem test_sub_sort_thresholds :
    ssMethod 7 0#32 = .insertion ∧ ssMethod 8 0#32 = .multikey ∧ ssMethod 1024 0#32 = .multikey ∧
    ssMethod 8 (-1#32) = .heap := by decide

/-- The steps of SSSORT over "banana": the block is taken up, its range is sorted, and it is a run (42_bwt_engine.md R174).
-/
theorem test_substring_steps :
    (((substringStep bananaBytes 6 0 ⟨Engine.reset, [1#32, 3#32], []⟩).bind (substringStep bananaBytes 6 0)).bind
        (substringStep bananaBytes 6 0)).map (fun w => (w.pa, w.engine.method, w.engine.sorted, substringsDone w)) =
      some ([3#32, 1#32], .insertion, 2, true) := by decide

/-- The bounds of a frame: its indexes, its depth and its limit (10_state.md R40). -/
theorem test_frame_bounds :
    frameOk 6 ⟨0#32, 6#32, 6#32, -1#32⟩ = true ∧ frameOk 6 ⟨0#32, 7#32, 0#32, 0#32⟩ = false ∧
    frameOk 6 ⟨0#32, 6#32, 7#32, 0#32⟩ = false ∧ frameOk 6 ⟨0#32, 6#32, 0#32, -2#32⟩ = false ∧
    frameOk 6 ⟨1#32, 0#32, 0#32, 0#32⟩ = false := by decide

/-! ## Scripts and steps -/

/-- The first lines of P1. -/
theorem test_assemble_p1 :
    (assemble [.rd32 (.sym .regId), .wr32 (.add (.sym .tBase) (.lit 4)) (.lit 0x0062616E), .bwt (.lit 6),
        .rd32 (.sym (.sa 5)), .halt]).toOption =
      some [.transaction (.bus 0x40000000#32 .none), .transaction (.bus 0xC0100004#32 (.d32 0x0062616E#32)),
        .transaction (.bus 0xC000000C#32 (.d32 6#32)), .transaction (.bus 0xC0000004#32 (.d32 1#32)),
        .label (.fresh 2), .transaction (.bus 0x40000008#32 .none), .jbit 0 (.fresh 2),
        .transaction (.bus 0x40400014#32 .none), .halt] := by decide

/-- The first lines of P2. -/
theorem test_assemble_load_block :
    (assemble [.loadBlock [.lit 0x63, .lit 0x61]]).toOption =
      some [.transaction (.bus 0x80100000#32 (.d8 0x63#8)), .transaction (.bus 0x80100001#32 (.d8 0x61#8))] := by decide

/-- A transaction issued as the first step after reset. -/
theorem test_step_of_a_placed_word :
    (stateOf (step (State.reset.withFetchWord 32 0xC0400000))).map (fun s => s.saMem) = some [(0, 0#32)] := by decide

/-- A fault is marked by the transaction and stops the next step. -/
theorem test_step_after_a_bus_error :
    (stateOf (step (State.reset.withFetchWord 32 0x80000000))).map step = some (.fault (.busError 0#23)) := by rfl

/-- B37: the decoder's refusal stops the step. -/
theorem test_step_refuses_mbz : step (State.reset.withFetchWord 32 0x00800000) = .refused .busMbzSet := by rfl

/-! ## States and operands that meet the hypotheses of each obligation -/

theorem witness_PacketsThatDecodeAreEncodings : decode (.bus 0x80100006#32 (.d8 0x62#8)) = .ok (.wr8 0x100006#23 0x62#8) := by
  decide

theorem witness_BusRowsMatchTheirMasks :
    0x007FFFFF#32 &&& 0xFF800000#32 = 0x00000000#32 ∧ 0x407FFFFC#32 &&& 0xFF800000#32 = 0x40000000#32 ∧
    0x80100006#32 &&& 0xFF800000#32 = 0x80000000#32 ∧ 0xC000000C#32 &&& 0xFF800000#32 = 0xC0000000#32 := by decide

theorem witness_ReservedDescriptorsAreRefusedByName :
    (0xFF800000#32 : Word).extractLsb' 23 6 ≠ 0#6 ∧
    ((0x20000000#32 : Word).extractLsb' 23 6 = 0#6 ∧ (0x20000000#32 : Word).extractLsb' 29 2 = 1#2) ∧
    ((0x60000000#32 : Word).extractLsb' 23 6 = 0#6 ∧ (0x60000000#32 : Word).extractLsb' 29 2 = 3#2) := by decide

theorem witness_CommandWordsAreExact : (0x3#32 : Word) ≠ 0#32 ∧ (0x3#32 : Word) ≠ 1#32 ∧ (0x3#32 : Word) ≠ 2#32 := by
  decide

/-- The edges of every window (B3, B11-B13, B24-B31). -/
theorem witness_AddressMapIsTheSpecs :
    decodeAddr 900000 0x0000FC#23 .word = some (.reg, 0xFC) ∧ decodeAddr 900000 0x000100#23 .word = none ∧
    decodeAddr 900000 0x1DBBA3#23 .byte = some (.tMem, 900003) ∧ decodeAddr 900000 0x1DBBA4#23 .byte = none ∧
    decodeAddr 900000 0x1DBBA0#23 .word = some (.tMem, 900000) ∧ decodeAddr 900000 0x100002#23 .word = none ∧
    decodeAddr 900000 0x76EE80#23 .word = some (.saMem, 900000) ∧ decodeAddr 900000 0x76EE84#23 .word = none ∧
    decodeAddr 900000 0x400000#23 .byte = none ∧ decodeAddr 900000 0x400002#23 .word = none ∧
    decodeAddr 900000 0x200000#23 .word = none ∧ decodeAddr 1 0x100003#23 .byte = some (.tMem, 3) ∧
    decodeAddr 1 0x100004#23 .byte = none ∧ decodeAddr 1048572 0x1FFFFF#23 .byte = some (.tMem, 1048575) ∧
    decodeAddr 1048572 0x7FFFF0#23 .word = some (.saMem, 1048572) ∧
    decodeAddr 1048572 0x7FFFF4#23 .word = none := by decide

theorem witness_BusErrorOnlyMarksTheFault :
    banana.nMax.toNat ≤ Config.nMaxLimit ∧ (0x0FFFFF#23).toNat < 0x100000 ∧ 0x100000 + Config.tDepth banana.nMax.toNat ≤ (0x1DBBA4#23).toNat ∧
    (0xFF < (0x100#23).toNat ∧ (0x100#23).toNat < 0x100000) ∧ (0xFF < (0x0FFFFC#23).toNat ∧ (0x0FFFFC#23).toNat < 0x100000) ∧
    (0x100000 + Config.tDepth banana.nMax.toNat ≤ (0x1DBBA4#23).toNat ∧ (0x1DBBA4#23).toNat < 0x400000) ∧
    (0x100000 + Config.tDepth banana.nMax.toNat ≤ (0x3FFFFC#23).toNat ∧ (0x3FFFFC#23).toNat < 0x400000) ∧
    0x400000 + 4 * Config.saDepth banana.nMax.toNat ≤ (0x76EE84#23).toNat ∧ (0x2#23).toNat % 4 ≠ 0 := by decide

theorem witness_ModelFaultIsSticky :
    ({ banana with modelFault := some .unwrittenInput } : State).modelFault = some .unwrittenInput ∧
    exec .nop { banana with modelFault := some .unwrittenInput } = .next { banana with modelFault := some .unwrittenInput } :=
  ⟨rfl, rfl⟩

theorem witness_Rd8ReadsAByte :
    banana.nMax.toNat ≤ Config.nMaxLimit ∧ 900003 < Config.tDepth banana.nMax.toNat ∧
    Memory.read banana.tMem 2 = some 0x6E#8 ∧ Memory.read banana.tMem 900003 = none := by decide

/-- A value for each clause, with both ends of the reserved range. -/
theorem witness_Rd32ReadsEachRegister :
    (0x1C ≤ (0x1C#23).toNat ∧ (0x1C#23).toNat ≤ 0xFC ∧ (0x1C#23).toNat % 4 = 0) ∧
    (0x1C ≤ (0xFC#23).toNat ∧ (0xFC#23).toNat ≤ 0xFC ∧ (0xFC#23).toNat % 4 = 0) ∧
    resOf (exec (.rd32 0x1C#23) (running .sssort)) = some 0#32 ∧ resOf (exec (.rd32 0xFC#23) (running .sssort)) = some 0#32 ∧
    resOf (exec (.rd32 0x18#23) (running .sssort)) = some 0x000DBBA0#32 := by decide

theorem witness_Rd32ReadsATWordLittleEndian :
    banana.nMax.toNat ≤ Config.nMaxLimit ∧ 900000 % 4 = 0 ∧ 900000 + 3 < Config.tDepth banana.nMax.toNat ∧
    Memory.read banana.tMem (0 + 3) = some 0x61#8 := by decide

theorem witness_Rd32ReadsAnSaWord :
    (running .trsort).nMax.toNat ≤ Config.nMaxLimit ∧ 900000 < Config.saDepth (running .trsort).nMax.toNat ∧
    ((running .trsort).status.busy = true ∧ 6 ≤ (running .trsort).engine.nLat.toNat) ∧
    ((running .trsort).engine.nLat.toNat < 9 ∧ Memory.read (running .trsort).saMem 9 = some 0x11#32) ∧
    (banana.status.busy = false ∧ Memory.read banana.saMem 900000 = none) := by decide

theorem witness_ReadsHaveNoSideEffect : (Instr.rd8 0x8#23 = .rd8 0x8#23) ∧ (Instr.rd32 0x8#23 = .rd32 0x8#23) := by decide

theorem witness_Wr8StoresItsByte :
    banana.nMax.toNat ≤ Config.nMaxLimit ∧ 900003 < Config.tDepth banana.nMax.toNat ∧ banana.status.busy = false := by decide

theorem witness_Wr32StoresATWordLittleEndian :
    banana.nMax.toNat ≤ Config.nMaxLimit ∧ 900000 % 4 = 0 ∧ 900000 + 3 < Config.tDepth banana.nMax.toNat ∧
    banana.status.busy = false := by decide

theorem witness_Wr32StoresAnSaWord :
    banana.nMax.toNat ≤ Config.nMaxLimit ∧ 900000 < Config.saDepth banana.nMax.toNat ∧ banana.status.busy = false := by decide

theorem witness_MixedWidthAccessesAgree :
    banana.nMax.toNat ≤ Config.nMaxLimit ∧ 4 % 4 = 0 ∧ 4 + 3 < Config.tDepth banana.nMax.toNat ∧ 1 < 4 ∧
    banana.status.busy = false ∧ Memory.read banana.tMem (4 + 2) = some 0x62#8 := by
  decide

theorem witness_LenTakesItsLow24BitsWhileIdle :
    banana.status.busy = false ∧ (running .sssort).status.busy = true := by decide

theorem witness_ReadOnlyAndReservedOffsetsIgnoreWrites :
    (0x18 ≤ (0x18#23).toNat ∧ (0x18#23).toNat ≤ 0xFC ∧ (0x18#23).toNat % 4 = 0) ∧
    (0x18 ≤ (0xFC#23).toNat ∧ (0xFC#23).toNat ≤ 0xFC ∧ (0xFC#23).toNat % 4 = 0) ∧
    (0x1C ≤ (0x1C#23).toNat ∧ (0x1C#23).toNat ≤ 0xFC ∧ (0x1C#23).toNat % 4 = 0) := by decide

theorem witness_Wr32CmdDispatchesItsWord :
    decode (.cmd 2#32) = .ok .clear ∧ decode (.cmd 0x11#32) = .error .illegalCommand := by decide

theorem witness_BusyBlockRefusesHostWrites :
    (running .sssort).nMax.toNat ≤ Config.nMaxLimit ∧ (running .sssort).status.busy = true ∧
    900003 < Config.tDepth (running .sssort).nMax.toNat ∧
    (900000 % 4 = 0 ∧ 900000 + 3 < Config.tDepth (running .sssort).nMax.toNat) ∧
    900000 < Config.saDepth (running .sssort).nMax.toNat ∧
    (1#32 : Word) ≠ 0#32 := by decide

theorem witness_ClearAcknowledgesTheStatus : banana.status.busy = false ∧ (running .sssort).status.busy = true := by decide

theorem witness_IllegalCommandLatchesItsError :
    banana.status.busy = false ∧ (running .sssort).status.busy = true ∧ (3#32 : Word) ≠ 0#32 ∧ (3#32 : Word) ≠ 1#32 ∧ (3#32 : Word) ≠ 2#32 := by decide

/-- A state for each check, at the ends of the length's range. -/
theorem witness_BwtChecksInOrder :
    (({ banana with len := 900001#24 } : State).status.busy = false ∧ banana.nMax.toNat < (900001#24).toNat) ∧
    (1 ≤ (900000#24).toNat ∧ (900000#24).toNat ≤ banana.nMax.toNat ∧ Memory.read banana.tMem 900000 = none) ∧
    (1 ≤ (cab 0x78#8).len.toNat ∧ (cab 0x78#8).len.toNat ≤ (cab 0x78#8).nMax.toNat ∧
      (∀ j, j ≤ (cab 0x78#8).len.toNat → Memory.read (cab 0x78#8).tMem j ≠ none) ∧
      Memory.read (cab 0x78#8).tMem (cab 0x78#8).len.toNat ≠ Memory.read (cab 0x78#8).tMem 0) := by decide

theorem witness_BwtIsAccepted :
    banana.status.busy = false ∧ banana.len.toNat ≤ banana.nMax.toNat ∧
    (1 ≤ banana.len.toNat → (∀ j, j ≤ banana.len.toNat → Memory.read banana.tMem j ≠ none) ∧
      Memory.read banana.tMem banana.len.toNat = Memory.read banana.tMem 0) := by decide

theorem witness_BwtChecksInOrder_busy : (running .classify).status.busy = true := by decide

theorem banana_row_order : IsRowOrder bananaBytes [5, 3, 1, 0, 4, 2] := by
  unfold IsRowOrder
  decide

theorem banana_holds : HoldsBlock banana bananaBytes := by
  unfold HoldsBlock
  decide

theorem witness_CompletionPublishesTheTransform :
    (running .construct).engine.phase = .construct ∧ (running .construct).engine.work = 0 ∧
    (running .construct).engine.nLat.toNat = bananaBytes.length ∧ 1 ≤ bananaBytes.length ∧
    HoldsBlock (running .construct) bananaBytes ∧ IsRowOrder bananaBytes [5, 3, 1, 0, 4, 2] :=
  ⟨by decide, by decide, by decide, by decide, banana_holds, banana_row_order⟩

/-- Runs of the empty block and of one byte. -/
theorem witness_ShortBlocksCompleteTrivially :
    (running .classify).engine.work = 0 ∧
    ({ (running .classify) with engine := { Engine.reset with phase := .classify } } : State).engine.nLat = 0#24 ∧
    ({ (running .classify) with engine := { Engine.reset with phase := .classify, nLat := 1#24 } } : State).engine.nLat =
      1#24 ∧
    Memory.read (running .classify).tMem 0 = some 0x62#8 := by decide

theorem witness_EngineStepIsConfined :
    (running .sssort).engine.nLat.toNat < 7 ∧
    ({ (running .sssort) with engine := { Engine.reset with phase := .classify } } : State).engine.nLat = 0#24 := by decide

/-- Also for PhasesFollowInOrder. -/
theorem witness_EngineStepHasThreeOutcomes :
    (running .sssort).status.busy = true ∧ (running .sssort).engine.phase ≠ .idle := by decide

theorem running_bounds (p : Phase) : BoundsInv (running p).engine := by
  constructor <;> simp [running, Engine.reset, regionsOk, regionInside, regionsApart]

theorem witness_EveryRunIsFinite :
    (running .sssort).engine.phase ≠ .idle ∧ BoundsInv (running .sssort).engine ∧ (running .sssort).status.busy = true :=
  ⟨by decide, running_bounds _, by decide⟩

theorem witness_BwtRunComputesTheTransform :
    banana.status.busy = false ∧ banana.modelFault = none ∧ banana.resetIn = [] ∧ hostLine banana = none ∧
    banana.len.toNat = bananaBytes.length ∧ bananaBytes.length ≤ banana.nMax.toNat ∧ HoldsBlock banana bananaBytes ∧
    (1 ≤ bananaBytes.length → Memory.read banana.tMem bananaBytes.length = Memory.read banana.tMem 0) ∧
    IsRowOrder bananaBytes [5, 3, 1, 0, 4, 2] :=
  ⟨by decide, by decide, by decide, by decide, by decide, by decide, banana_holds, by decide, banana_row_order⟩

theorem witness_EngineMovesWithinItsTurns :
    (running .sssort).status.busy = true ∧ (running .sssort).modelFault = none ∧ (running .sssort).resetIn = [] := by decide

/-- A host at the head of a `wait_idle` loop. -/
def waiting : State :=
  { (running .sssort) with agent := { Agent.initial with script := waitIdleLines 0 } }

theorem witness_WaitIdleLoopEnds :
    waiting.modelFault = none ∧ waiting.resetIn = [] ∧ waiting.agent.halted = false ∧
    (waiting.status.busy = true → waiting.engine.phase ≠ .idle ∧ BoundsInv waiting.engine) ∧ waiting.agent.line = 0 ∧
    labelPlace (.fresh 0) waiting.agent.script 0 = some 0 ∧
    waiting.agent.script[0]? = some (.label (.fresh 0)) ∧
    waiting.agent.script[0 + 1]? = some (.transaction (.bus 0x40000008#32 .none)) ∧
    waiting.agent.script[0 + 2]? = some (.jbit 0 (.fresh 0)) :=
  ⟨by decide, by decide, by decide, fun _ => ⟨by decide, running_bounds _⟩, by decide, by decide, by decide, by decide,
    by decide⟩

/-- A run over "banana" in a phase, its B* positions sorted in PA and their ranks in ISA. -/
def sorted (p : Phase) (work : Nat) : State :=
  { (running p) with
    saMem := [(0, 3#32), (1, 1#32), (2, 1#32), (3, 0#32)]
    engine := { Engine.reset with
      phase := p, nLat := 6#24, m := 2, pa := ⟨0, 2⟩, isa := ⟨2, 2⟩, buffer := ⟨4, 3⟩, depth := 1, work := work } }

theorem sorted_hidden (p : Phase) (work : Nat) : HiddenInv (sorted p work).engine := by
  refine ⟨⟨?_, ?_, ?_, ?_, ?_, ?_⟩, ?_, ?_⟩ <;>
    simp [sorted, Engine.reset, regionsOk, regionInside, regionsApart, Memory.wf]

/-- Two runs in order, the ends of the ranges of sizes, and work with a block to take up. -/
theorem witness_SubstringSortsAgree :
    ([3#32].Pairwise (PrefixLe bananaBytes 6) ∧ [1#32].Pairwise (PrefixLe bananaBytes 6)) ∧
    (7 < 8 ∧ (-1#32 : BitVec 32).toInt < 0 ∧ 0 ≤ (0#32 : BitVec 32).toInt) ∧
    BoundsInv (loadWork (sorted .sssort 0)).engine ∧
    (loadWork (sorted .sssort 0)).pa.length = (loadWork (sorted .sssort 0)).engine.pa.len ∧
    (loadWork (sorted .sssort 0)).engine.ssize = 0 ∧
    (loadWork (sorted .sssort 0)).engine.taken < (loadWork (sorted .sssort 0)).pa.length :=
  ⟨by decide, by decide, (sorted_hidden _ _).toBoundsInv, by decide, by decide, by decide⟩

/-- Blocks of one entry and of two: no frame, and one (42_bwt_engine.md R174, R178). -/
theorem test_block_frames : ∀ x ∈ [(1, 0), (2, 1)],
    (takeBlock (loadWork
      { sorted .sssort 0 with engine := { (sorted .sssort 0).engine with pa := ⟨0, x.1⟩ } })).map
      (fun v => (framesOf v.engine).length) = some x.2 := by decide

/-- Ties of `ababac` that the B* suffixes ahead tell apart. -/
theorem witness_DepthDoublingDoublesTheDepth :
    [1#32, 3#32].length < 2 ^ 32 ∧ [0, 2, 4].Pairwise (· < ·) ∧ (∀ x ∈ [0, 2, 4], x < ababac.length) ∧
    (∀ x ∈ [0, 2, 4], ∀ y ∈ [0, 2, 4], rankAt [0, 2, 4] [0#32, 0#32, 2#32] x < rankAt [0, 2, 4] [0#32, 0#32, 2#32] y →
      lexLt (rotation ababac x) (rotation ababac y) = true) ∧
    (∀ x ∈ [0, 2, 4], ∀ y ∈ [0, 2, 4], rankAt [0, 2, 4] [0#32, 0#32, 2#32] x = rankAt [0, 2, 4] [0#32, 0#32, 2#32] y →
      AgreeAhead ababac [0, 2, 4] 1 x y) ∧
    rankAt [0, 2, 4] [0#32, 0#32, 2#32] 0 = rankAt [0, 2, 4] [0#32, 0#32, 2#32] 2 ∧
    aheadDistance ababac.length [0, 2, 4] 1 0 = aheadDistance ababac.length [0, 2, 4] 1 2 ∧
    aheadRank [0, 2, 4] [0#32, 0#32, 2#32] 1 0 < aheadRank [0, 2, 4] [0#32, 0#32, 2#32] 1 2 := by
  unfold AgreeAhead
  decide

/-- Ties of `abab` that no depth tells apart. -/
theorem witness_DepthDoublingDoublesTheDepth_equal :
    [0, 2].Pairwise (· < ·) ∧ (∀ x ∈ [0, 2], x < ([0x61#8, 0x62#8, 0x61#8, 0x62#8] : List Byte).length) ∧
    (∀ x ∈ [0, 2], ∀ y ∈ [0, 2], ¬ rankAt [0, 2] [0#32, 0#32] x < rankAt [0, 2] [0#32, 0#32] y) ∧
    (∀ x ∈ [0, 2], ∀ y ∈ [0, 2], AgreeAhead [0x61#8, 0x62#8, 0x61#8, 0x62#8] [0, 2] 2 x y) ∧
    aheadDistance 4 [0, 2] 2 0 = aheadDistance 4 [0, 2] 2 2 ∧
    aheadRank [0, 2] [0#32, 0#32] 2 0 = aheadRank [0, 2] [0#32, 0#32] 2 2 ∧ [0, 2].length ≤ 2 := by
  unfold AgreeAhead
  decide

theorem witness_ConstructWritesLInPlace :
    (sorted .construct 1).engine.phase = .construct ∧ (sorted .construct 1).engine.work = 1 ∧
    (sorted .construct 1).engine.nLat.toNat = bananaBytes.length ∧ 1 ≤ bananaBytes.length ∧
    HoldsBlock (sorted .construct 1) bananaBytes ∧ (paPositions (sorted .construct 1)).Pairwise (RowLe bananaBytes) :=
  ⟨by decide, by decide, by decide, by decide, banana_holds, by decide⟩

/-- Where "banana" stands in TRSORT once its B* positions are sorted. -/
theorem sorted_refined : RefineInv bananaBytes (sorted .trsort 0).engine [3#32, 1#32] [1#32, 0#32] :=
  ⟨by decide, by decide, by decide,
    by rintro x hx hm; rcases List.mem_pair.1 hx with rfl | rfl <;> exact absurd hm (by decide),
    by unfold AgreeAhead; decide,
    by simp [sorted, Engine.reset], by decide, by simp [sorted, Engine.reset, framesOf],
    by simp [sorted, Engine.reset, framesOf]⟩

/-- The ways of the invariant of the sort: while SSSORT, TRSORT and CONSTRUCT work on the B* suffixes, and after the
induction. -/
theorem witness_EveryStepKeepsTheSort :
    State.Inv (sorted .trsort 0) ∧ SortInv (sorted .sssort 0) ∧ SortInv (sorted .trsort 0) ∧
    SortInv (sorted .construct 1) ∧ (stateOf (step (sorted .trsort 0))).isSome = true := by
  refine ⟨⟨⟨by unfold NMaxLegal; decide, by decide, by decide, by decide, by decide, by decide⟩,
    ⟨by decide, by decide, by decide, by decide⟩, ⟨by decide, by decide, by decide, by decide, by decide⟩,
    sorted_hidden _ _⟩,
    ⟨fun _ => ⟨.a, by decide⟩, fun _ => ?_, by simp [sorted], by decide, by decide⟩,
    ⟨fun _ => ⟨.a, by decide⟩, by simp [sorted], fun _ => ?_, by decide, by decide⟩,
    ⟨fun _ => ⟨.a, by decide⟩, by simp [sorted], by simp [sorted], by decide, by simp [sorted]⟩, by rfl⟩
  · exact ⟨by decide, by decide, by simp [sorted, Engine.reset], by simp [sorted, Engine.reset, framesOf],
      by simp [sorted, Engine.reset, framesOf]⟩
  · rw [show blockOf (sorted .trsort 0) (runLength (sorted .trsort 0)) = bananaBytes by decide,
      show (loadWork (sorted .trsort 0)).pa = [3#32, 1#32] by decide,
      show (loadWork (sorted .trsort 0)).isa = [1#32, 0#32] by decide]
    exact sorted_refined

theorem witness_RotationsCompareAsUnsignedBytes :
    5 < bananaBytes.length ∧ [0x80#8, 0x01#8].length = [0x01#8, 0x80#8].length := by decide

theorem witness_TransformIsIndependentOfTies :
    IsRowOrder [0x61#8, 0x61#8] [0, 1] ∧ IsRowOrder [0x61#8, 0x61#8] [1, 0] := by
  unfold IsRowOrder
  decide

theorem witness_StartPointerRangeIsExact : 1 ≤ [0x61#8, 0x62#8, 0x61#8, 0x62#8].length := by decide

theorem witness_InverseTransformReconstructsTheBlock :
    rowsBelow [0x61#8, 0x62#8, 0x61#8, 0x62#8] ≤ 1 ∧
    1 < rowsBelow [0x61#8, 0x62#8, 0x61#8, 0x62#8] + rowsEqual [0x61#8, 0x62#8, 0x61#8, 0x62#8] := by decide

theorem witness_EqualRowsCountThePeriods :
    1 ≤ [0x61#8, 0x62#8, 0x61#8, 0x62#8].length ∧ IsPeriod [0x61#8, 0x62#8, 0x61#8, 0x62#8] 2 ∧
    ∀ q, IsPeriod [0x61#8, 0x62#8, 0x61#8, 0x62#8] q → 2 ≤ q := by
  refine ⟨by decide, by unfold IsPeriod; decide, ?_⟩
  rintro q ⟨h1, -, h3⟩
  by_contra h
  obtain rfl : q = 1 := by omega
  exact absurd (h3 0 (by decide)) (by decide)

theorem witness_ResetInputResetsTheBlock :
    ({ (running .trsort) with resetIn := [true, false] } : State).modelFault = none ∧
    ({ (running .trsort) with resetIn := [true, false] } : State).resetIn = true :: [false] := by decide

theorem witness_ResetStateReadsAsSpecified : resOf (exec (.rd32 0x00#23) State.reset) = some 0x53410001#32 := by decide

/-- A host with one line, over a block that runs. -/
def hostWith (p : Packet) : State :=
  { (running .sssort) with agent := { Agent.initial with script := [.transaction p] }, hostTurns := 1 }

theorem witness_StepRunsTheDecodedInstruction :
    (hostWith (.bus 0x40000008#32 .none)).modelFault = none ∧ (hostWith (.bus 0x40000008#32 .none)).resetIn = [] ∧
    hostLine (hostWith (.bus 0x40000008#32 .none)) = some (.transaction (.bus 0x40000008#32 .none)) ∧
    1 ≤ (hostWith (.bus 0x40000008#32 .none)).hostTurns ∧
    decode (.bus 0x40000008#32 .none) = .ok (.rd32 0x8#23) := by decide

/-- The steps of ReservedDescriptorsAreRefusedByName. -/
theorem witness_ReservedDescriptorsAreNotIssued :
    (hostWith (.bus 0x20000000#32 .none)).modelFault = none ∧ (hostWith (.bus 0x20000000#32 .none)).resetIn = [] ∧
    hostLine (hostWith (.bus 0x20000000#32 .none)) = some (.transaction (.bus 0x20000000#32 .none)) ∧
    1 ≤ (hostWith (.bus 0x20000000#32 .none)).hostTurns ∧ (0x20000000#32 : Word).extractLsb' 23 6 = 0#6 ∧
    (0x20000000#32 : Word).extractLsb' 29 2 = 1#2 ∧ (0x10000000#32 : Word).extractLsb' 23 6 ≠ 0#6 ∧
    hostLine (hostWith (.bus 0x10000000#32 .none)) = some (.transaction (.bus 0x10000000#32 .none)) := by decide

theorem witness_ControlLinesMoveTheHost : labelPlace (.fresh 0) waiting.agent.script 0 = some 0 := by decide

theorem witness_InputIsStableWhileBusy :
    (hostWith (.bus 0x80100000#32 (.d8 1#8))).status.busy = true ∧ (hostWith (.bus 0x80100000#32 (.d8 1#8))).resetIn = [] ∧
    statusOf (step (hostWith (.bus 0x80100000#32 (.d8 1#8)))) = some 0x9#32 := by decide

/-- An idle block with `VIOL` set and a host that stands on `cmd CLEAR`. -/
def clearing : State :=
  { banana with
    status := ⟨false, true, false, true, .none⟩
    agent := { Agent.initial with script := [commandLine .clear] } }

theorem witness_OnlyClearAndResetClearViol : clearing.status.viol = true ∧ statusOf (step clearing) = some 0#32 := by decide

/-- An idle block and a host that stands on `cmd BWT`. -/
def starting : State := { banana with agent := { Agent.initial with script := [commandLine .bwt] } }

theorem witness_BusyRisesWithBwtAlone :
    (starting.status.busy = false ∧ statusOf (step starting) = some 0x1#32) ∧
    ((running .construct).status.busy = true ∧ statusOf (step (running .construct)) = some 0x2#32) := by decide

/-- A step that runs an instruction, from a state that meets the invariant. -/
theorem witness_EveryStepKeepsTheInvariant : State.Inv starting ∧ statusOf (step starting) = some 0x1#32 := by
  refine ⟨⟨⟨by unfold NMaxLegal; decide, by decide, by decide, by decide, by decide, by decide⟩,
    ⟨by decide, by decide, by decide, by decide⟩, ⟨by decide, by decide, by decide, by decide, by decide⟩,
    ⟨⟨by decide, by simp [starting, banana, State.reset, Engine.reset], by decide, by decide, by decide, by decide⟩,
      by decide, by decide⟩⟩, ?_⟩
  decide

theorem witness_IdleBlockPersists :
    banana.status.busy = false ∧ banana.modelFault = none ∧ banana.resetIn = [] ∧ hostLine banana = none := by decide

theorem witness_IrqIsTheEnabledStatus :
    resOf (exec (.rd32 0x08#23) { banana with status := ⟨true, false, false, true, .none⟩, irqEn := 4#3 }) = some 0x9#32 ∧
    resOf (exec (.rd32 0x14#23) { banana with status := ⟨true, false, false, true, .none⟩, irqEn := 4#3 }) = some 0x4#32 := by
  decide

end Sys2Proof.Tests
end

section
/-! SUPPORT. Proofs of the statements about the scope of the model (00_scope.md): the order of rotations, and the step
that runs a decoded instruction. -/

namespace Sys2Proof.Machine

/-! ## The order of rotations -/

/-- Settles O42: `rotation_getD` gives the bytes of a rotation, and `lexLt_iff_getD`, an induction over both strings,
the byte that decides. -/
theorem rotationsCompareAsUnsignedBytes : Obligations.RotationsCompareAsUnsignedBytes :=
  ⟨fun block _ _ hr hj => rotation_getD block hr hj, fun _ _ h => lexLt_iff_getD h⟩

/-! ## The host's turn -/

/-- The engine does not move where the host has a line and the block is idle or a turn of the host is left
(00_scope.md R13; log 6). -/
theorem engineMoves_eq_false {s : State} {x : Line} (hl : hostLine s = some x)
    (ht : s.status.busy = false ∨ 1 ≤ s.hostTurns) : engineMoves s = false := by
  rcases ht with hb | ht
  · simp [engineMoves, hb]
  · simp [engineMoves, hl, show s.hostTurns ≠ 0 by omega]

/-- Spending a turn leaves the host on its line. -/
@[simp] theorem hostLine_spendTurn (s : State) : hostLine (spendTurn s) = hostLine s := by
  rw [spendTurn_eq]
  rfl

/-- A host step over the line the host stands on. -/
theorem hostStep_of_hostLine {s : State} {x : Line} (hl : hostLine s = some x) : hostStep s = lineStep x s := by
  simp [hostStep, hl]

/-- A packet that spells an instruction is issued as that instruction. -/
theorem issue_of_decode {p : Packet} {i : Instr} (hd : decode p = .ok i) (s : State) : issue p s = exec i s := by
  simp [issue, hd]

/-- Settles O54: the host moves, on the line it stands on, and issues the instruction its packet spells. -/
theorem stepRunsTheDecodedInstruction : Obligations.StepRunsTheDecodedInstruction := by
  intro s p i hf hr hl ht hd
  have hl' : hostLine (spendTurn s) = some (.transaction p) := by rw [hostLine_spendTurn, hl]
  calc step s = hostStep (spendTurn s) := step_host hf hr (engineMoves_eq_false hl ht)
    _ = issue p (nextLine (spendTurn s)) := hostStep_of_hostLine hl'
    _ = exec i (nextLine (spendTurn s)) := issue_of_decode hd _
    _ = _ := by rw [nextLine_eq, spendTurn_eq]

end Sys2Proof.Machine
end

section
/-! SUPPORT. Proofs of the statements about the state (10_state.md): the registers the host reads and writes, what a step
of the machine can come to, and the invariant every step keeps. -/

namespace Sys2Proof.Machine

/-! ## Registers -/

/-- What a register read gives, at the address's own offset (40_bus_access.md R121). -/
theorem exec_rd32_reg {a : Addr} (s : State) (h : a.toNat ≤ 0xFF) (h4 : a.toNat % 4 = 0) :
    exec (.rd32 a) s = .next (s.setRes (readReg a.toNat s)) := execRd32_reg s h h4

/-- What a register write does, at the address's own offset (40_bus_access.md R123). -/
theorem exec_wr32_reg {a : Addr} (w : Word) (s : State) (h : a.toNat ≤ 0xFF) (h4 : a.toNat % 4 = 0) :
    exec (.wr32 a w) s = .next (writeReg a.toNat w s) := execWr32_reg w s h h4

/-- Every offset but those of `CMD`, `LEN` and `IRQ_EN` ignores writes (10_state.md R34). -/
theorem writeReg_ignored {offset : Nat} (w : Word) (s : State) (h1 : offset ≠ 0x04) (h2 : offset ≠ 0x0C)
    (h3 : offset ≠ 0x14) : writeReg offset w s = s := by
  simp [writeReg, h1, h2, h3]

/-- Offsets from 0x1C on are reserved and read as 0 (10_state.md R34). -/
theorem readReg_reserved {offset : Nat} (s : State) (h : 0x1C ≤ offset) : readReg offset s = 0#32 := by
  unfold readReg
  repeat rw [if_neg (by omega)]

/-- Settles O20: `LEN` is one of the host's writes that `unlessBusy` guards. -/
theorem lenTakesItsLow24BitsWhileIdle : Obligations.LenTakesItsLow24BitsWhileIdle := by
  intro s w
  have hw : exec (.wr32 0x0C#23 w) s = .next (unlessBusy (fun s => s.setLen (w.setWidth 24)) s) :=
    exec_wr32_reg w s (by decide) (by decide)
  refine ⟨fun hb => ?_, fun hb => ?_, exec_rd32_reg s (by decide) (by decide)⟩
  · rw [hw, unlessBusy_idle hb, BitVec.setWidth_eq_extractLsb' (by decide)]
    rfl
  · rw [hw, unlessBusy_busy hb]
    rfl

/-- Settles O21: no `unlessBusy` stands before `IRQ_EN`. -/
theorem wr32IrqEnIsTakenAtAnyTime : Obligations.Wr32IrqEnIsTakenAtAnyTime := by
  intro s w
  rw [exec_wr32_reg w s (by decide) (by decide), ← BitVec.setWidth_eq_extractLsb' (by decide)]
  rfl

/-- Settles O22: the offsets named are none of `CMD`, `LEN` and `IRQ_EN`. -/
theorem readOnlyAndReservedOffsetsIgnoreWrites : Obligations.ReadOnlyAndReservedOffsetsIgnoreWrites := by
  intro s a w
  constructor
  · intro ha
    have ho : a.toNat ≤ 0xFF ∧ a.toNat % 4 = 0 ∧ a.toNat ≠ 0x04 ∧ a.toNat ≠ 0x0C ∧ a.toNat ≠ 0x14 := by
      rcases ha with rfl | rfl | rfl | ha
      · decide
      · decide
      · decide
      · omega
    obtain ⟨hmap, h4, h1, h2, h3⟩ := ho
    rw [exec_wr32_reg w s hmap h4, writeReg_ignored w s h1 h2 h3]
  · intro h1 h2 h4
    rw [exec_rd32_reg s (by omega) h4, readReg_reserved s h1]
    rfl

/-- Settles O53: the registers of `Z1` to `Z6`, each at its own offset. -/
theorem resetStateReadsAsSpecified : Obligations.ResetStateReadsAsSpecified := by
  refine ⟨fun a v ha => ?_, rfl, rfl, fun i => ⟨rfl, rfl⟩⟩
  simp only [List.mem_cons, Prod.mk.injEq, List.not_mem_nil, or_false] at ha
  rcases ha with ⟨rfl, rfl⟩ | ⟨rfl, rfl⟩ | ⟨rfl, rfl⟩ | ⟨rfl, rfl⟩ | ⟨rfl, rfl⟩ | ⟨rfl, rfl⟩ <;>
    exact exec_rd32_reg _ (by decide) (by decide)

/-! ## `IRQ` -/

/-- Where the word read from `STATUS` shows the bits that raise `IRQ` (30_encoding.md R99). -/
theorem word_irqSources (f : Status) :
    f.word.getLsbD 1 = f.done ∧ f.word.getLsbD 2 = f.err ∧ f.word.getLsbD 3 = f.viol := by
  have hbit : ∀ k, f.word.getLsbD k = (0#24 ++ f.errCode.bits ++ BitVec.ofBool f.viol ++ BitVec.ofBool f.err ++
      BitVec.ofBool f.done ++ BitVec.ofBool f.busy : BitVec (24 + 4 + 1 + 1 + 1 + 1)).getLsbD k := fun _ => rfl
  simp only [hbit, BitVec.getLsbD_append]
  simp

/-- Settles O60: the two reads show the bits of `STATUS` and `IRQ_EN` that `irqLevel` combines. -/
theorem irqIsTheEnabledStatus : Obligations.IrqIsTheEnabledStatus := by
  intro s t ht u hu
  rw [exec_rd32_reg s (by decide) (by decide)] at ht hu
  have hs : t.agent.res = s.status.word := by rw [← Host.Outcome.next.inj ht]; rfl
  have he : u.agent.res = s.irqEn.setWidth 32 := by rw [← Host.Outcome.next.inj hu]; rfl
  obtain ⟨h1, h2, h3⟩ := word_irqSources s.status
  rw [hs, he, h1, h2, h3]
  simp [State.irq, irqLevel, or_assoc]

/-! ## `MODEL_FAULT` -/

/-- Settles O9: `exec_frame` keeps a fault already marked, and `step` answers it. -/
theorem modelFaultIsSticky : Obligations.ModelFaultIsSticky := by
  refine ⟨fun s r hf => ?_, fun i s t hf h => ?_, fun s => rfl, fun s hf hfin => hf hfin.2.2⟩
  · simp [step, machineStep, hf]
  · obtain ⟨u, hu, hframe⟩ := exec_frame i s
    obtain rfl := Host.Outcome.next.inj (h.symm.trans hu)
    exact hframe.fault hf

/-! ## What the host's writes can do -/

/-- A byte transaction decodes to an index below `T_DEPTH` (40_bus_access.md R120). -/
theorem decodeAddr_byte_lt {nMax : Nat} {a : Addr} {win : Window} {i : Nat}
    (h : decodeAddr nMax a .byte = some (win, i)) : i < Config.tDepth nMax := by
  simp only [decodeAddr, decodeReg, decodeT, decodeSa] at h
  split at h
  · simp at h
  · split at h
    · simp at h
      obtain ⟨hi, rfl, rfl⟩ := h
      exact hi
    · simp at h

/-- A word transaction to a memory decodes to indexes below its depth (40_bus_access.md R120). -/
theorem decodeAddr_word_lt {nMax : Nat} {a : Addr} {win : Window} {i : Nat}
    (h : decodeAddr nMax a .word = some (win, i)) :
    (win = .tMem → i + 4 ≤ Config.tDepth nMax) ∧ (win = .saMem → i < Config.saDepth nMax) := by
  simp only [decodeAddr, decodeReg, decodeT, decodeSa] at h
  split at h
  · simp at h
    obtain ⟨-, rfl, rfl⟩ := h
    exact ⟨by simp, by simp⟩
  · split at h
    · simp at h
      obtain ⟨⟨-, hi⟩, rfl, rfl⟩ := h
      exact ⟨fun _ => by omega, by simp⟩
    · simp at h
      obtain ⟨-, ⟨-, hi⟩, rfl, rfl⟩ := h
      exact ⟨by simp, fun _ => hi⟩

/-- What the host's part of a step can leave of `s`: `clears` and `starts` say that the host runs CLEAR or BWT. -/
inductive HostWrite (clears starts : Prop) (s : State) : State → Prop
  /-- Outside the block, but for `IRQ_EN`, which no invariant mentions. -/
  | outside (irqEn : BitVec 3) (fault : Option Fault) (agent : Agent) (draws : Nat) :
      HostWrite clears starts s { s with irqEn := irqEn, modelFault := fault, agent := agent, draws := draws }
  | refused (hb : s.status.busy = true) : HostWrite clears starts s (refuseWrite s)
  | len (hb : s.status.busy = false) (v : Len) : HostWrite clears starts s (s.setLen v)
  | tMem (hb : s.status.busy = false) (i : Nat) (xs : List Byte)
      (hi : i + xs.length ≤ Config.tDepth s.nMax.toNat) :
      HostWrite clears starts s (s.setTMem (Memory.fill s.tMem i xs))
  | saMem (hb : s.status.busy = false) (i : Nat) (w : Word) (hi : i < Config.saDepth s.nMax.toNat) :
      HostWrite clears starts s (writeSa i w s)
  | error (hb : s.status.busy = false) (c : ErrCode) (hc : c ≠ .none) : HostWrite clears starts s (setError c s)
  | clear (hb : s.status.busy = false) (hc : clears) : HostWrite clears starts s (clearStatus s)
  | start (hb : s.status.busy = false) (hs : starts) (hn : s.len.toNat ≤ s.nMax.toNat)
      (hi : 1 ≤ s.len.toNat → inputWritten s s.len.toNat = true ∧ wrapByteOk s s.len.toNat = true) :
      HostWrite clears starts s (acceptBwt s)

section HostWrite

variable {clears starts : Prop} {s t : State}

theorem HostWrite.refl : HostWrite clears starts s s := .outside s.irqEn s.modelFault s.agent s.draws

theorem HostWrite.fault (r : Fault) : HostWrite clears starts s (raiseFault r s) :=
  .outside s.irqEn (some r) s.agent s.draws

theorem HostWrite.read (k : Nat) (v : Word) : HostWrite clears starts s ((s.drawn k).setRes v) :=
  .outside s.irqEn s.modelFault { s.agent with res := v } (s.draws + k)

theorem HostWrite.mono {clears' starts' : Prop} (h : HostWrite clears starts s t) (hc : clears → clears')
    (hs : starts → starts') : HostWrite clears' starts' s t := by
  cases h with
  | outside irqEn fault agent draws => exact .outside irqEn fault agent draws
  | refused hb => exact .refused hb
  | len hb v => exact .len hb v
  | tMem hb i xs hi => exact .tMem hb i xs hi
  | saMem hb i w hi => exact .saMem hb i w hi
  | error hb c h => exact .error hb c h
  | clear hb h => exact .clear hb (hc h)
  | start hb h hn hi => exact .start hb (hs h) hn hi

/-- A write the engine's ownership refuses while it runs (60_exceptions.md R204). -/
theorem HostWrite.unlessBusy {f : State → State} (h : s.status.busy = false → HostWrite clears starts s (f s)) :
    HostWrite clears starts s (unlessBusy f s) := by
  cases hb : s.status.busy with
  | true => rw [unlessBusy_busy hb]; exact .refused hb
  | false => rw [unlessBusy_idle hb]; exact h hb

theorem HostWrite.bwtStart (hb : s.status.busy = false) (hs : starts) :
    HostWrite clears starts s (bwtStart s) := by
  rcases bwtStart_cases s with ⟨_, e⟩ | ⟨_, _, _, e⟩ | ⟨_, _, _, _, e⟩ | ⟨hn, hi, e⟩ <;> rw [e]
  · exact .error hb .len (by simp)
  · exact .fault .unwrittenInput
  · exact .error hb .wrap (by simp)
  · exact .start hb hs hn hi

end HostWrite

/-- A write of `CMD` (41_commands.md R140). -/
theorem commandWrite_hostWrite (w : Word) (s : State) : HostWrite (w = 2#32) (w = 1#32) s (commandWrite w s) := by
  unfold commandWrite
  split
  · exact .refl
  · split
    · next hb => exact .refused hb
    · next hb =>
      have hb : s.status.busy = false := by simpa using hb
      split
      · next hw => exact .bwtStart hb hw
      · split
        · next hw => exact .clear hb hw
        · exact .error hb .illegalCmd (by simp)

/-- A write of a register: only `CMD` runs a command (40_bus_access.md R123). -/
theorem writeReg_hostWrite (offset : Nat) (w : Word) (s : State) :
    HostWrite (offset = 0x04 ∧ w = 2#32) (offset = 0x04 ∧ w = 1#32) s (writeReg offset w s) := by
  unfold writeReg
  split
  · next ho => exact (commandWrite_hostWrite w s).mono (⟨ho, ·⟩) (⟨ho, ·⟩)
  · split
    · exact .unlessBusy fun hb => .len hb _
    · split
      · exact .outside _ s.modelFault s.agent s.draws
      · exact .refl

/-- A word write: a command runs only by the write of `CMD`. -/
theorem execWr32_hostWrite {a : Addr} {w : Word} {s t : State} (h : execWr32 a w s = .next t) :
    HostWrite (a = 0x04#23 ∧ w = 2#32) (a = 0x04#23 ∧ w = 1#32) s t := by
  unfold execWr32 at h
  split at h
  · cases h
    exact .fault _
  · next win i hd =>
    cases h
    obtain ⟨hT, hSa⟩ := decodeAddr_word_lt hd
    cases win with
    | reg =>
      have ha : i = 0x04 → a = 0x04#23 := fun hi => BitVec.eq_of_toNat_eq ((decodeAddr_reg_iff.1 hd).1.trans hi)
      exact (writeReg_hostWrite i w s).mono (And.imp_left ha) (And.imp_left ha)
    | tMem => exact .unlessBusy fun hb => .tMem hb i (bytesOfWord w) (hT rfl)
    | saMem => exact .unlessBusy fun hb => .saMem hb i w (hSa rfl)

/-- What an instruction can do to the state, and which instructions run CLEAR and BWT. -/
theorem exec_hostWrite {i : Instr} {s t : State} (h : exec i s = .next t) :
    HostWrite (i = .clear ∨ i = .wr32 0x04#23 2#32) (i = .bwt ∨ i = .wr32 0x04#23 1#32) s t := by
  cases i with
  | nop => cases h; exact .refl
  | bwt => cases h; exact .unlessBusy fun hb => .bwtStart hb (.inl rfl)
  | clear => cases h; exact .unlessBusy fun hb => .clear hb (.inl rfl)
  | rd8 a =>
    simp only [exec, execRd8] at h
    split at h
    · cases h; exact .fault _
    · next j _ =>
      obtain ⟨k, hk⟩ := readT_state j s
      cases h
      rw [hk]
      exact .read k _
  | rd32 a =>
    simp only [exec, execRd32] at h
    split at h
    · cases h; exact .fault _
    · next win j _ =>
      obtain ⟨k, hk⟩ := readWord_state win j s
      cases h
      rw [hk]
      exact .read k _
  | wr8 a b =>
    simp only [exec, execWr8] at h
    split at h
    · cases h; exact .fault _
    · next j hd =>
      cases h
      exact .unlessBusy fun hb => .tMem hb j [b] (decodeAddr_byte_lt hd)
  | wr32 a w =>
    exact (execWr32_hostWrite h).mono (fun ⟨ha, hw⟩ => .inr (by rw [ha, hw])) (fun ⟨ha, hw⟩ => .inr (by rw [ha, hw]))

/-! ## What a step can do -/

/-- The host stands on a transaction that spells `i` or `j`. -/
def HostRuns (s : State) (i j : Instr) : Prop :=
  ∃ p, hostLine s = some (.transaction p) ∧ (decode p = .ok i ∨ decode p = .ok j)

/-- A host step moves the host on and makes one of the host's writes. -/
theorem hostStep_hostWrite {s t : State} (h : hostStep s = .next t) :
    ∃ a, HostWrite (HostRuns s .clear (.wr32 0x04#23 2#32)) (HostRuns s .bwt (.wr32 0x04#23 1#32))
      { s with agent := a } t := by
  rcases hostStep_cases h with ⟨-, rfl⟩ | ⟨a, rfl⟩ | ⟨p, i, hl, hd, hx⟩ | ⟨p, -, -, rfl⟩
  · exact ⟨t.agent, .refl⟩
  · exact ⟨a, .refl⟩
  · have hr : ∀ j k, i = j ∨ i = k → HostRuns s j k := fun j k hi =>
      ⟨p, hl, hi.imp (fun e : i = j => e ▸ hd) (fun e : i = k => e ▸ hd)⟩
    exact ⟨_, (exec_hostWrite hx).mono (hr _ _) (hr _ _)⟩
  · exact ⟨_, .unlessBusy fun hb => .error hb .illegalCmd (by simp)⟩

/-- What a step of the machine can come to: reset, an engine step, or one of the host's writes. -/
inductive StepOutcome (s : State) : State → Prop
  | reset (levels : List Bool) (hr : s.resetIn = true :: levels) :
      StepOutcome s ((blockReset s).setResetIn levels)
  | engine (levels : List Bool) (hm : engineMoves s = true) : StepOutcome s ((engineStep s).setResetIn levels)
  | host (agent : Agent) (turns : Nat) (levels : List Bool) {t : State}
      (hw : HostWrite (HostRuns s .clear (.wr32 0x04#23 2#32)) (HostRuns s .bwt (.wr32 0x04#23 1#32))
        { s with agent := agent, hostTurns := turns, resetIn := levels } t) : StepOutcome s t

theorem step_outcome {s t : State} (h : step s = .next t) : StepOutcome s t := by
  obtain ⟨-, ⟨r, hr, rfl⟩ | ⟨-, u, rfl, ⟨hm, rfl⟩ | ⟨-, hh⟩⟩⟩ := step_cases h
  · exact .reset r hr
  · rw [engineStep_setResetIn]
    exact .engine _ hm
  · obtain ⟨a, hw⟩ := hostStep_hostWrite hh
    have hl : hostLine (spendTurn (s.setResetIn s.resetIn.tail)) = hostLine s := hostLine_spendTurn _
    simp only [HostRuns, hl] at hw
    rw [spendTurn_eq] at hw
    exact .host _ _ _ hw

theorem busy_of_engineMoves {s : State} (h : engineMoves s = true) : s.status.busy = true := by
  simp only [engineMoves, Bool.and_eq_true] at h
  exact h.1

/-! ## `VIOL` and `BUSY` -/

/-- Settles O57: neither an engine step nor a host's write other than CLEAR takes `VIOL` away. -/
theorem onlyClearAndResetClearViol : Obligations.OnlyClearAndResetClearViol := by
  intro s t hv h ht
  cases step_outcome h with
  | reset levels hr => exact .inl (by simp [hr])
  | engine levels hm =>
    have hk : (engineStep s).status.viol = true := (engineStep_frame s).viol.trans hv
    exact absurd (hk.symm.trans ht) (by simp)
  | host agent turns levels hw =>
    cases hw with
    | clear hb hc => exact .inr ⟨hb, hc⟩
    | refused hb => exact absurd ht (by simp [refuseWrite])
    | outside | len | tMem | saMem | error | start => exact absurd (hv.symm.trans ht) (by simp)

/-- Settles O58: of the host's writes only BWT touches `BUSY`, and sets it; an engine step runs from `BUSY = 1`. -/
theorem busyRisesWithBwtAlone : Obligations.BusyRisesWithBwtAlone := by
  intro s t h
  cases step_outcome h with
  | reset levels hr => exact ⟨fun _ ht => absurd ht (by simp [blockReset, Status.reset]), fun _ _ => .inl (by simp [hr])⟩
  | engine levels hm =>
    exact ⟨fun hs => absurd (hs.symm.trans (busy_of_engineMoves hm)) (by simp), fun _ _ => .inr ⟨hm, rfl⟩⟩
  | host agent turns levels hw =>
    cases hw with
    | start hb hs => exact ⟨fun _ _ => hs, fun _ ht => absurd ht (by simp [acceptBwt])⟩
    | outside | refused | len | tMem | saMem | error | clear =>
      exact ⟨fun hs ht => absurd (hs.symm.trans ht) (by simp), fun hs ht => absurd (hs.symm.trans ht) (by simp)⟩

/-! ## Memories and their depths -/

theorem Memory.read_ne_none_of_mem {α : Type} {m : Memory α} {c : Nat × α} (h : c ∈ m) :
    Memory.read m c.1 ≠ none := by
  induction m with
  | nil => simp at h
  | cons d r ih =>
    simp only [Memory.read]
    split
    · simp
    · next hd =>
      rcases List.mem_cons.1 h with rfl | h
      · exact absurd rfl hd
      · exact ih h

/-- A memory lies below `d` exactly if nothing is written from `d` on. -/
theorem Memory.below_iff_read {α : Type} {m : Memory α} {d : Nat} :
    Memory.below m d ↔ ∀ i, d ≤ i → Memory.read m i = none := by
  constructor
  · intro h i hi
    induction m with
    | nil => rfl
    | cons c r ih =>
      have hc := h c (by simp)
      simp only [Memory.read]
      rw [if_neg (by omega)]
      exact ih fun c' hc' => h c' (by simp [hc'])
  · intro h c hc
    by_contra hd
    exact Memory.read_ne_none_of_mem hc (h c.1 (by omega))

/-! ## The invariant of `STATUS` -/

theorem StatusInv.reset : StatusInv Status.reset := by constructor <;> simp [Status.reset]

theorem StatusInv.refuse {f : Status} (h : StatusInv f) : StatusInv f.refuse := { h with }

theorem StatusInv.setError {f : Status} (hb : f.busy = false) {c : ErrCode} (hc : c ≠ .none) :
    StatusInv (f.setError c) := by constructor <;> simp [hb, hc]

theorem StatusInv.clear (f : Status) : StatusInv f.clear := by constructor <;> simp

theorem StatusInv.accept (f : Status) : StatusInv f.accept := by constructor <;> simp

theorem StatusInv.complete {f : Status} (h : StatusInv f) (hb : f.busy = true) : StatusInv f.complete := by
  have he : f.err = false := (h.busy_excludes hb).2
  constructor <;> simp [he, h.no_code he]

theorem StatusInv.internalFault (f : Status) : StatusInv f.internalFault := by constructor <;> simp

/-! ## The invariant outside the engine -/

/-- A block that does not run owes nothing for a run. -/
theorem RunInv.of_idle {s : State} (hb : s.status.busy = false) (hp : s.engine.phase = .idle) : RunInv s := by
  constructor <;> simp [hb, hp]

/-- The invariant does not mention the host, `IRQ_EN`, the fault mark and the model's counts. -/
theorem State.Inv.outside {s : State} (h : State.Inv s) (irqEn : BitVec 3) (fault : Option Fault) (agent : Agent)
    (turns : Nat) (levels : List Bool) (draws : Nat) :
    State.Inv { s with
      irqEn := irqEn, modelFault := fault, agent := agent, hostTurns := turns, resetIn := levels, draws := draws } :=
  ⟨{ h.storage with }, h.status, { h.run with }, h.hidden⟩

theorem State.Inv.phase_idle {s : State} (h : State.Inv s) (hb : s.status.busy = false) : s.engine.phase = .idle :=
  h.run.phase_idle.2 hb

theorem HiddenInv.reset : HiddenInv Engine.reset := by
  refine ⟨⟨?_, ?_, ?_, ?_, ?_, ?_⟩, ?_, ?_⟩ <;>
    simp [Engine.reset, regionsOk, regionInside, regionsApart, Memory.wf]

/-- Reset gives the invariant back, with the `N_MAX` the block has (70_reset_and_hazards.md R240). -/
theorem blockReset_inv {s : State} (h : NMaxLegal s.nMax) : State.Inv (blockReset s) where
  storage :=
    { nMax_legal := h
      tMem_wf := by simp [blockReset, Memory.wf]
      tMem_depth := by simp [blockReset]
      saMem_wf := by simp [blockReset, Memory.wf]
      saMem_depth := by simp [blockReset]
      startPtr_lt := h.1 }
  status := .reset
  run := .of_idle rfl rfl
  hidden := .reset

/-- An accepted BWT starts a run that keeps the invariant (41_commands.md R142, 42_bwt_engine.md R160). -/
theorem acceptBwt_inv {s : State} (h : State.Inv s) (hn : s.len.toNat ≤ s.nMax.toNat)
    (hi : 1 ≤ s.len.toNat → inputWritten s s.len.toNat = true ∧ wrapByteOk s s.len.toNat = true) :
    State.Inv (acceptBwt s) where
  storage := { h.storage with }
  status := .accept s.status
  run := ⟨by simp [acceptBwt, startedEngine], fun _ => rfl, fun _ => hn, fun _ h1 => (hi h1).1, fun _ h1 => (hi h1).2⟩
  hidden := hiddenInv_iff.2 ⟨startedEngine_bounds _ _ _, (hiddenInv_iff.1 h.hidden).2⟩

/-- The host's writes keep the invariant. -/
theorem HostWrite.inv {clears starts : Prop} {s t : State} (hw : HostWrite clears starts s t) (h : State.Inv s) :
    State.Inv t := by
  cases hw with
  | outside irqEn fault agent draws => exact h.outside irqEn fault agent s.hostTurns s.resetIn draws
  | refused hb => exact ⟨{ h.storage with }, h.status.refuse, { h.run with }, h.hidden⟩
  | len hb v => exact ⟨{ h.storage with }, h.status, .of_idle hb (h.phase_idle hb), h.hidden⟩
  | tMem hb i xs hi =>
    have hst : StorageInv (s.setTMem (Memory.fill s.tMem i xs)) :=
      { h.storage with
        tMem_wf := Memory.wf_fill i xs h.storage.tMem_wf
        tMem_depth := Memory.below_fill xs h.storage.tMem_depth hi }
    exact ⟨hst, h.status, .of_idle hb (h.phase_idle hb), h.hidden⟩
  | saMem hb i w hi =>
    have hst : StorageInv (writeSa i w s) :=
      { h.storage with
        saMem_wf := Memory.wf_write i w h.storage.saMem_wf
        saMem_depth := Memory.below_write w h.storage.saMem_depth hi }
    exact ⟨hst, h.status, .of_idle hb (h.phase_idle hb), h.hidden⟩
  | error hb c hc => exact ⟨{ h.storage with }, .setError hb hc, .of_idle hb (h.phase_idle hb), h.hidden⟩
  | clear hb _ => exact ⟨{ h.storage with }, .clear s.status, .of_idle hb (h.phase_idle hb), h.hidden⟩
  | start hb _ hn hi => exact acceptBwt_inv h hn hi

/-! ## The invariant over an engine step -/

theorem redrawSa_wf {s : State} (h : Memory.wf s.saMem) : Memory.wf (redrawSa s).saMem := by
  unfold redrawSa
  split
  · exact h
  · exact Memory.wf_fill 0 _ h

theorem storeWork_wf (w : SortWork) {s : State} (h : Memory.wf s.saMem) : Memory.wf (storeWork w s).saMem := by
  unfold storeWork
  split
  · exact h
  · exact Memory.wf_fill _ _ (Memory.wf_fill _ _ (redrawSa_wf h))

theorem complete_wf {s : State} (h : Memory.wf s.saMem) : Memory.wf (complete s).saMem := by
  simp only [complete, drawn_saMem, setStatus_saMem, setEngine_saMem, setStartPtr_saMem, setSaMem_saMem]
  split
  · exact h
  · exact Memory.wf_fill 0 _ h

theorem induceStep_wf {s : State} (h : Memory.wf s.saMem) : Memory.wf (induceStep s).saMem := by
  simp only [induceStep, drawn_saMem, setEngine_saMem, setSaMem_saMem]
  split
  · exact h
  · exact Memory.wf_fill 0 _ h

/-- An engine step leaves `SA_MEM` in canonical form. -/
theorem EngineOutcome.saMem_wf {u t : State} (ho : EngineOutcome u t) (h : Memory.wf u.saMem) : Memory.wf t.saMem := by
  cases ho with
  | idle => exact h
  | complete => exact complete_wf h
  | classified | sorted | refined | substring | refinement | move => exact storeWork_wf _ h
  | fault => exact redrawSa_wf (s := u.drawn 2) h
  | induce => exact induceStep_wf h

/-- The published start pointer is below `N_MAX` (42_bwt_engine.md R163, R164). -/
theorem complete_startPtr_lt {s : State} (hl : NMaxLegal s.nMax) (hn : runLength s ≤ s.nMax.toNat) :
    (complete s).startPtr.toNat < s.nMax.toNat := by
  have hlt := s.nMax.isLt
  have hrow : startRow Config.startTie (blockOf s (runLength s)) s.engine.tie < s.nMax.toNat := by
    by_cases h0 : runLength s = 0
    · simpa [startRow, h0, Nat.lt_iff_add_one_le] using hl.1
    · have := startRow_lt Config.startTie (block := blockOf s (runLength s)) s.engine.tie (by simp; omega)
      simp only [blockOf_length] at this
      omega
  rw [complete_startPtr, BitVec.toNat_ofNat, Nat.mod_eq_of_lt (by omega)]
  exact hrow

/-- What an engine step of a running block does to what the host sees (42_bwt_engine.md R166-R168): the run goes on,
completes with a start pointer below `N_MAX`, or ends with the internal fault. -/
theorem engineStep_visible {s : State} (h : State.Inv s) (hb : s.status.busy = true) :
    (engineStep s).startPtr.toNat < s.nMax.toNat ∧ StatusInv (engineStep s).status ∧
      ((engineStep s).engine.phase = .idle ↔ (engineStep s).status.busy = false) := by
  have hp : s.engine.phase ≠ .idle := fun hp => absurd (hb.symm.trans (h.run.phase_idle.1 hp)) (by simp)
  rcases engineStep_cases s hp with ⟨hs, hptr, hph, -⟩ | ⟨hs, hph, -, -, hc⟩ | ⟨-, hs, hptr, hph⟩
  · simpa [hs, hptr, hph, hb] using ⟨h.storage.startPtr_lt, h.status⟩
  · have hn : runLength (turnsDrawn s) ≤ s.nMax.toNat := by
      simpa [runLength, h.run.latched hb] using h.run.length_ok hb
    refine ⟨?_, by rw [hs]; exact h.status.complete hb, by simp [hs, hph]⟩
    rw [hc]
    exact complete_startPtr_lt (s := turnsDrawn s) h.storage.nMax_legal hn
  · exact ⟨by rw [hptr]; exact h.storage.startPtr_lt, by rw [hs]; exact .internalFault _, by simp [hs, hph]⟩

/-- The engine keeps the invariant of the storage: it writes `SA[0..n]` alone, and `n` is at most `N_MAX`. -/
theorem engineStep_storage {s : State} (h : State.Inv s) (hb : s.status.busy = true) : StorageInv (engineStep s) := by
  have hf := engineStep_frame s
  have hn : s.engine.nLat.toNat ≤ s.nMax.toNat := by rw [h.run.latched hb]; exact h.run.length_ok hb
  refine
    { nMax_legal := by rw [hf.nMax]; exact h.storage.nMax_legal
      tMem_wf := by rw [hf.tMem]; exact h.storage.tMem_wf
      tMem_depth := by rw [hf.tMem, hf.nMax]; exact h.storage.tMem_depth
      saMem_wf := (engineStep_outcome s).saMem_wf h.storage.saMem_wf
      saMem_depth := ?_
      startPtr_lt := by rw [hf.nMax]; exact (engineStep_visible h hb).1 }
  rw [hf.nMax]
  refine Memory.below_iff_read.2 fun i hi => ?_
  rw [hf.beyond i (by simp only [Config.saDepth] at hi; omega)]
  exact Memory.below_iff_read.1 h.storage.saMem_depth i hi

theorem inputWritten_congr {s t : State} (h : t.tMem = s.tMem) (n : Nat) : inputWritten t n = inputWritten s n := by
  simp only [inputWritten, h]

theorem wrapByteOk_congr {s t : State} (h : t.tMem = s.tMem) (n : Nat) : wrapByteOk t n = wrapByteOk s n := by
  simp only [wrapByteOk, h]

/-- An engine step keeps the invariant. -/
theorem engineStep_inv {s : State} (h : State.Inv s) (hb : s.status.busy = true) : State.Inv (engineStep s) := by
  have hf := engineStep_frame s
  obtain ⟨-, hs, hph⟩ := engineStep_visible h hb
  refine ⟨engineStep_storage h hb, hs, ⟨hph, fun _ => ?_, fun _ => ?_, fun _ => ?_, fun _ => ?_⟩,
    (engineStep_outcome s).hidden h.hidden⟩
  · rw [hf.nLat, hf.len]; exact h.run.latched hb
  · rw [hf.len, hf.nMax]; exact h.run.length_ok hb
  · rw [hf.len, inputWritten_congr hf.tMem]; exact h.run.input_ok hb
  · rw [hf.len, wrapByteOk_congr hf.tMem]; exact h.run.wrap_ok hb

/-- Settles O50: reset, an engine step and each of the host's writes keep the invariant. -/
theorem everyStepKeepsTheInvariant : Obligations.EveryStepKeepsTheInvariant := by
  intro s t h hst
  cases step_outcome hst with
  | reset levels hr => exact (blockReset_inv h.storage.nMax_legal).outside _ _ _ _ levels _
  | engine levels hm => exact (engineStep_inv h (busy_of_engineMoves hm)).outside _ _ _ _ levels _
  | host agent turns levels hw => exact hw.inv (h.outside s.irqEn s.modelFault agent turns levels s.draws)

/-- Settles O49: the state after reset is a reset block of a legal `N_MAX`, and an idle engine owes the sort nothing. -/
theorem resetMeetsTheInvariant : Obligations.ResetMeetsTheInvariant := by
  have hl : NMaxLegal State.reset.nMax := by unfold NMaxLegal; decide
  refine ⟨blockReset_inv (s := State.reset) hl, ?_⟩
  constructor <;> simp [State.reset, Engine.reset]

end Sys2Proof.Machine
end

section
/-! SUPPORT. Proofs of the statements about the memories (20_memory.md): bus errors, reads, the lanes of a word of
`T_MEM`, and the stability of the input while the block runs. -/

namespace Sys2Proof.Machine

/-! ## Bus errors -/

/-- A byte transaction outside the bytes of `T_MEM` does not decode (20_memory.md R64). -/
theorem decodeAddr_byte_eq_none {nMax : Nat} (hn : nMax ≤ Config.nMaxLimit) {a : Addr}
    (h : a.toNat < tBase ∨ tBase + Config.tDepth nMax ≤ a.toNat) : decodeAddr nMax a .byte = none := by
  refine Option.eq_none_iff_forall_ne_some.2 fun ⟨win, i⟩ hd => ?_
  obtain ⟨-, ha, hi⟩ := (decodeAddr_byte hn).1 hd
  omega

/-- A word transaction that is unaligned or between, or past, the windows' words does not decode (20_memory.md R64). -/
theorem decodeAddr_word_eq_none {nMax : Nat} (hn : nMax ≤ Config.nMaxLimit) {a : Addr}
    (h : (0xFF < a.toNat ∧ a.toNat < tBase) ∨ (tBase + Config.tDepth nMax ≤ a.toNat ∧ a.toNat < saBase) ∨
      saBase + 4 * Config.saDepth nMax ≤ a.toNat ∨ a.toNat % 4 ≠ 0) : decodeAddr nMax a .word = none := by
  refine Option.eq_none_iff_forall_ne_some.2 fun ⟨win, i⟩ hd => ?_
  have hfit := (depths_fit hn).1
  have hbase : tBase = 0x100000 ∧ saBase = 0x400000 := ⟨rfl, rfl⟩
  rcases (decodeAddr_word hn).1 hd with ⟨-, ha, hi⟩ | ⟨-, ha, hi⟩ | ⟨-, ha, hi⟩ <;> omega

/-- Settles O8: what does not decode raises the fault, whichever way the data goes. -/
theorem busErrorOnlyMarksTheFault : Obligations.BusErrorOnlyMarksTheFault := by
  intro s a d8 d32 hn
  constructor
  · intro h
    have hd := decodeAddr_byte_eq_none hn h
    exact ⟨by simp only [exec, execRd8, hd]; rfl, by simp only [exec, execWr8, hd]; rfl⟩
  · intro h
    have hd := decodeAddr_word_eq_none hn h
    exact ⟨by simp only [exec, execRd32, hd]; rfl, by simp only [exec, execWr32, hd]; rfl⟩

/-! ## Reads change nothing of the block -/

/-- A host read faults, or draws some values and puts a word into `RES` (20_memory.md R69). -/
theorem exec_read_cases {a : Addr} {i : Instr} (hi : i = .rd8 a ∨ i = .rd32 a) (s : State) :
    exec i s = .next (raiseFault (.busError a) s) ∨ ∃ k v, exec i s = .next ((s.drawn k).setRes v) := by
  rcases hi with rfl | rfl
  · simp only [exec, execRd8]
    split
    · exact .inl rfl
    · next win j _ =>
      obtain ⟨k, hk⟩ := readT_state j s
      exact .inr ⟨k, _, by rw [hk]⟩
  · simp only [exec, execRd32]
    split
    · exact .inl rfl
    · next win j _ =>
      obtain ⟨k, hk⟩ := readWord_state win j s
      exact .inr ⟨k, _, by rw [hk]⟩

/-- Settles O15: neither outcome of a read touches the block. -/
theorem readsHaveNoSideEffect : Obligations.ReadsHaveNoSideEffect := by
  intro s a i hi
  rcases exec_read_cases hi s with h | ⟨k, v, h⟩
  · exact ⟨_, h, rfl⟩
  · exact ⟨_, h, rfl⟩

/-! ## Reads of `SA_MEM` -/

theorem readSa_owned {i : Nat} {s : State} (hb : s.status.busy = true) (hi : i ≤ s.engine.nLat.toNat) :
    readSa i s = (Config.freeWord s.draws, s.drawn 1) :=
  if_pos ⟨hb, hi⟩

theorem readSa_stored {i : Nat} {s : State} {w : Word} (h : s.status.busy = false ∨ s.engine.nLat.toNat < i)
    (hw : Memory.read s.saMem i = some w) : readSa i s = (w, s) := by
  have hfree : ¬ (s.status.busy = true ∧ i ≤ s.engine.nLat.toNat) := by
    rintro ⟨hb, hi⟩
    rcases h with h | h
    · simp [h] at hb
    · omega
  simp only [readSa, if_neg hfree, hw]

/-- An unwritten word is a draw, whoever owns it. -/
theorem readSa_unwritten {i : Nat} {s : State} (h : Memory.read s.saMem i = none) :
    readSa i s = (Config.freeWord s.draws, s.drawn 1) := by
  simp only [readSa, h, ite_self]

/-- RD32 of `SA[i]`, at its own address. -/
theorem exec_rd32_sa {i : Nat} (s : State) (hn : s.nMax.toNat ≤ Config.nMaxLimit)
    (hi : i < Config.saDepth s.nMax.toNat) :
    exec (.rd32 (BitVec.ofNat 23 (0x400000 + 4 * i))) s = .next ((readSa i s).2.setRes (readSa i s).1) :=
  execRd32_saMem s hn (saAddr_toNat hn hi) hi

/-- Settles O14: the three cases of `readSa`. -/
theorem rd32ReadsAnSaWord : Obligations.Rd32ReadsAnSaWord := by
  intro s i hn hi
  rw [exec_rd32_sa s hn hi]
  refine ⟨fun hb hle => ?_, fun hfree w hw => ?_, fun hw => ?_⟩
  · rw [readSa_owned hb hle]
    rfl
  · rw [readSa_stored hfree hw]
    rfl
  · rw [readSa_unwritten hw]
    rfl

/-! ## The lanes of a word of `T_MEM` -/

/-- Byte `k` of a word is its lane `k` (20_memory.md R66). -/
theorem bytesOfWord_getElem? (w : Word) {k : Nat} (hk : k < 4) :
    (bytesOfWord w)[k]? = some (w.extractLsb' (8 * k) 8) := by
  match k, hk with
  | 0, _ | 1, _ | 2, _ | 3, _ => rfl

/-- Reading a byte of `T_MEM` leaves `T_MEM` as it was. -/
@[simp] theorem readT_tMem (i : Nat) (s : State) : (readT i s).2.tMem = s.tMem := by
  obtain ⟨k, hk⟩ := readT_state i s
  rw [hk, drawn_tMem]

/-- A word read has every written byte of the word in its lane, whatever the other bytes are (20_memory.md R66, R73). -/
theorem readT32_lane {i k : Nat} {s : State} {b : Byte} (hk : k < 4) (h : Memory.read s.tMem (i + k) = some b) :
    (readT32 i s).1.extractLsb' (8 * k) 8 = b := by
  have hval : ∀ (j : Nat) (u : State), u.tMem = s.tMem → Memory.read s.tMem j = some b → (readT j u).1 = b :=
    fun j u hu hj => by rw [readT_written (hu ▸ hj)]
  refine Option.some.inj ((bytesOfWord_getElem? _ hk).symm.trans ?_)
  simp only [readT32, bytesOfWord_wordOfBytes]
  match k, hk with
  | 0, _ => exact congrArg some (hval _ _ rfl h)
  | 1, _ => exact congrArg some (hval _ _ (by simp) h)
  | 2, _ => exact congrArg some (hval _ _ (by simp) h)
  | 3, _ => exact congrArg some (hval _ _ (by simp) h)

/-- A word read of four written bytes draws nothing. -/
theorem readT32_draws {i : Nat} {s : State} (h : ∀ k, k < 4 → Memory.read s.tMem (i + k) ≠ none) :
    (readT32 i s).2 = s := by
  have hw : ∀ k, k < 4 → ∃ b, Memory.read s.tMem (i + k) = some b :=
    fun k hk => Option.ne_none_iff_exists'.1 (h k hk)
  obtain ⟨b0, h0⟩ := hw 0 (by omega)
  obtain ⟨b1, h1⟩ := hw 1 (by omega)
  obtain ⟨b2, h2⟩ := hw 2 (by omega)
  obtain ⟨b3, h3⟩ := hw 3 (by omega)
  rw [readT32_written (i := i) h0 h1 h2 h3]

/-- A word written to `T_MEM` leaves lane `k` at index `i + k` (20_memory.md R66). -/
theorem writeT32_read (w : Word) (s : State) {i k : Nat} (hk : k < 4) :
    Memory.read (writeT32 i w s).tMem (i + k) = some (w.extractLsb' (8 * k) 8) := by
  have hin : i ≤ i + k ∧ i + k < i + (bytesOfWord w).length := by
    rw [bytesOfWord_length]
    omega
  rw [writeT32, setTMem_tMem, Memory.read_fill, if_pos hin, Nat.add_sub_cancel_left, bytesOfWord_getElem? w hk]

/-! ## `T_MEM` at its own addresses -/

section
variable {i : Nat} {s : State} (hn : s.nMax.toNat ≤ Config.nMaxLimit)
include hn

/-- RD8 of `T[i]`. -/
theorem exec_rd8_t (hi : i < Config.tDepth s.nMax.toNat) :
    exec (.rd8 (BitVec.ofNat 23 (0x100000 + i))) s = .next ((readT i s).2.setRes ((readT i s).1.setWidth 32)) :=
  execRd8_mapped s hn (tAddr_toNat hn hi) hi

/-- WR8 of `T[i]` while idle. -/
theorem exec_wr8_t (b : Byte) (hi : i < Config.tDepth s.nMax.toNat) (hb : s.status.busy = false) :
    exec (.wr8 (BitVec.ofNat 23 (0x100000 + i)) b) s = .next (writeT i b s) := by
  rw [← unlessBusy_idle (w := writeT i b) hb]
  exact execWr8_mapped b s hn (tAddr_toNat hn hi) hi

/-- RD32 of `T[i..i+3]`. -/
theorem exec_rd32_t (h4 : i % 4 = 0) (hi : i + 3 < Config.tDepth s.nMax.toNat) :
    exec (.rd32 (BitVec.ofNat 23 (0x100000 + i))) s = .next ((readT32 i s).2.setRes (readT32 i s).1) :=
  execRd32_tMem s hn (tAddr_toNat hn (by omega)) h4 hi

/-- WR32 of `T[i..i+3]` while idle. -/
theorem exec_wr32_t (w : Word) (h4 : i % 4 = 0) (hi : i + 3 < Config.tDepth s.nMax.toNat)
    (hb : s.status.busy = false) :
    exec (.wr32 (BitVec.ofNat 23 (0x100000 + i)) w) s = .next (writeT32 i w s) := by
  rw [← unlessBusy_idle (w := writeT32 i w) hb]
  exact execWr32_tMem w s hn (tAddr_toNat hn (by omega)) h4 hi

end

/-- Settles O13: `readT32_lane` for the lanes, `readT32_draws` for the draws. -/
theorem rd32ReadsATWordLittleEndian : Obligations.Rd32ReadsATWordLittleEndian := by
  intro s i hn h4 hi
  refine ⟨_, exec_rd32_t hn h4 hi, ?_, fun k hk b hb => readT32_lane hk hb, fun h => ?_⟩
  · obtain ⟨k, hk⟩ := readT32_state i s
    rw [hk]
    rfl
  · rw [readT32_draws h, setRes_draws]

/-- Settles O17: a word write fills the four bytes of `T_MEM` with the word's lanes. -/
theorem wr32StoresATWordLittleEndian : Obligations.Wr32StoresATWordLittleEndian := by
  intro s i w hn h4 hi hb
  refine ⟨_, exec_wr32_t hn w h4 hi hb, rfl, fun k hk => writeT32_read w s hk, fun j hj => ?_⟩
  exact Memory.read_fill_outside _ _ (by rw [bytesOfWord_length]; omega)

/-- Settles O19: each read is taken in the state the write leaves, where the byte it looks at is a written one. -/
theorem mixedWidthAccessesAgree : Obligations.MixedWidthAccessesAgree := by
  intro s i k b w hn h4 hi hk hb
  have hik : i + k < Config.tDepth s.nMax.toNat := by omega
  constructor
  · refine ⟨_, _, exec_wr8_t hn b hik hb, exec_rd32_t (s := writeT (i + k) b s) hn h4 hi, ?_, ?_⟩
    · exact readT32_lane hk (Memory.read_write_same _ _ _)
    · intro j c hj hne hc
      exact readT32_lane hj ((Memory.read_write_other _ b (by omega)).trans hc)
  · refine ⟨_, _, exec_wr32_t hn w h4 hi hb, exec_rd8_t (s := writeT32 i w s) hn hik, ?_⟩
    rw [readT_written (writeT32_read w s hk)]
    rfl

/-! ## The input while the block runs -/

/-- Only the completion step writes `START_PTR` (42_bwt_engine.md R166, 10_state.md R31). -/
theorem EngineOutcome.startPtr {u t : State} (h : EngineOutcome u t) :
    t.startPtr = u.startPtr ∨ t.status = u.status.complete := by
  cases h with
  | complete => exact .inr rfl
  | idle | induce => exact .inl rfl
  | classified | sorted | refined | substring | refinement | fault | move => exact .inl (by simp [moveStep])

/-- Settles O56: the engine writes none of the input and `START_PTR` only as it completes; of the host's writes those
to the input are refused. -/
theorem inputIsStableWhileBusy : Obligations.InputIsStableWhileBusy := by
  intro s t hb hr h
  cases step_outcome h with
  | reset levels hl => simp [hr] at hl
  | engine levels hm =>
    have hf := engineStep_frame s
    refine ⟨hf.tMem, hf.len, hf.nLat, (engineStep_outcome s).startPtr.imp_right fun hs => ?_⟩
    simp [hs]
  | host agent turns levels hw =>
    cases hw with
    | outside | refused => exact ⟨rfl, rfl, rfl, .inl rfl⟩
    | len hi | tMem hi | saMem hi | error hi | clear hi | start hi => exact absurd (hb.symm.trans hi) (by simp)

end Sys2Proof.Machine
end

section
/-! SUPPORT. Proofs of the statements about the encoding (30_encoding.md): the decoder inverts the encoder, on exactly
the well-formed packets; the refusals of a descriptor; the word of `STATUS`; and the host's control lines. -/

namespace Sys2Proof

/-! ## A descriptor and its fields -/

/-- A descriptor with `MBZ = 0` is assembled from its `W`, `SZ` and `ADDR` (30_encoding.md R91). -/
theorem descriptor_fields {w : Word} (h : descriptorMbz w = 0#6) :
    descriptor (descriptorW w) (descriptorSz w) (descriptorAddr w) = w := by
  have hmbz : ∀ k, k < 6 → w.getLsbD (23 + k) = false := fun k hk => by
    simpa [descriptorMbz, hk] using congrArg (BitVec.getLsbD · k) h
  refine BitVec.eq_of_getLsbD_eq fun k hk => ?_
  rw [descriptor_getLsbD]
  split_ifs with haddr hlow hsz
  · simp [descriptorAddr, haddr]
  · rw [← hmbz (k - 23) (by omega), Nat.add_sub_cancel' (by omega)]
  · simp [descriptorSz, show k - 29 < 2 by omega, Nat.add_sub_cancel' (show 29 ≤ k by omega)]
  · simp [descriptorW, show k - 31 < 1 by omega, Nat.add_sub_cancel' (show 31 ≤ k by omega)]

/-- A word with a row's bits in [31:23], the row given as the descriptor of address 0, is that row's descriptor of the
address in its low 23 bits (30_encoding.md R92). -/
theorem eq_descriptor_of_masked {w : Word} {write : BitVec 1} {size : BitVec 2}
    (h : w &&& 0xFF800000#32 = descriptor write size 0#23) : w = descriptor write size (w.setWidth 23) := by
  have hmask : ∀ k, k < 32 → (0xFF800000#32).getLsbD k = decide (23 ≤ k) := by decide
  refine BitVec.eq_of_getLsbD_eq fun k hk => ?_
  have hbit := congrArg (BitVec.getLsbD · k) h
  simp only [BitVec.getLsbD_and, hmask k hk, descriptor_getLsbD] at hbit
  rw [descriptor_getLsbD]
  by_cases haddr : k < 23
  · simp [haddr]
  · simpa [haddr, Nat.le_of_not_lt haddr] using hbit

/-! ## The decoder inverts the encoder -/

/-- A byte descriptor decodes by its `W` and its operand. -/
theorem decode_byteDescriptor (write : BitVec 1) (a : Addr) (d : DataOperand) :
    decode (.bus (descriptor write 0#2 a) d) = decodeOperand (write == 1#1) false a d := by
  simp [decode, decodeBus]

/-- A word descriptor decodes by its `W` and its operand. -/
theorem decode_wordDescriptor (write : BitVec 1) (a : Addr) (d : DataOperand) :
    decode (.bus (descriptor write 2#2 a) d) = decodeOperand (write == 1#1) true a d := by
  simp [decode, decodeBus]

/-- Decoding undoes encoding (30_encoding.md R91, R92, R95). -/
theorem decode_encode (i : Instr) : decode (encode i) = .ok i := by
  cases i with
  | nop | bwt | clear => rfl
  | rd8 a => exact decode_byteDescriptor 0#1 a .none
  | rd32 a => exact decode_wordDescriptor 0#1 a .none
  | wr8 a b => exact decode_byteDescriptor 1#1 a (.d8 b)
  | wr32 a x => exact decode_wordDescriptor 1#1 a (.d32 x)

/-- An operand that decodes goes with the descriptor that fixes its size (30_encoding.md R90). -/
theorem encode_of_decodeOperand {write size32 : Bool} {a : Addr} {d : DataOperand} {i : Instr}
    (h : decodeOperand write size32 a d = .ok i) :
    encode i = .bus (descriptor (BitVec.ofBool write) (if size32 then 2#2 else 0#2) a) d := by
  unfold decodeOperand at h
  split at h
  · cases h; rfl
  · cases h; rfl
  · cases h; rfl
  · cases h; rfl
  · cases h

/-- What decodes is the encoding of its instruction. -/
theorem encode_of_decode {p : Packet} {i : Instr} (h : decode p = .ok i) : encode i = p := by
  cases p with
  | cmd w =>
    simp only [decode, decodeCommand] at h
    split_ifs at h with h0 h1 h2
    · cases h; rw [h0]; rfl
    · cases h; rw [h1]; rfl
    · cases h; rw [h2]; rfl
  | bus w d =>
    have hW : ∀ x : BitVec 1, BitVec.ofBool (x == 1#1) = x := by decide
    simp only [decode, decodeBus] at h
    split_ifs at h with hmbz h0 h2
    · rw [encode_of_decodeOperand h, hW, if_neg (by decide), ← h0, descriptor_fields (not_not.1 hmbz)]
    · rw [encode_of_decodeOperand h, hW, if_pos rfl, ← h2, descriptor_fields (not_not.1 hmbz)]

/-- A packet spells an instruction exactly if it is that instruction's encoding. -/
theorem decode_eq_ok_iff {p : Packet} {i : Instr} : decode p = .ok i ↔ encode i = p :=
  ⟨encode_of_decode, fun h => h ▸ decode_encode i⟩

/-- A well-formed packet is an encoding: its operand fixes `W`, and with a data operand `SZ` too. -/
theorem exists_encode_of_wellFormed {p : Packet} (h : p.wellFormed = true) : ∃ i, encode i = p := by
  cases p with
  | cmd w =>
    simp only [Packet.wellFormed, Bool.or_eq_true, beq_iff_eq] at h
    obtain (rfl | rfl) | rfl := h
    · exact ⟨.nop, rfl⟩
    · exact ⟨.bwt, rfl⟩
    · exact ⟨.clear, rfl⟩
  | bus w d =>
    simp only [Packet.wellFormed, Bool.and_eq_true, Bool.or_eq_true, beq_iff_eq] at h
    obtain ⟨⟨hmbz, hsz⟩, hfits⟩ := h
    rw [← descriptor_fields hmbz]
    cases d with
    | none =>
      rw [eq_of_beq hfits]
      rcases hsz with h0 | h2
      · exact ⟨.rd8 (descriptorAddr w), by rw [h0]; rfl⟩
      · exact ⟨.rd32 (descriptorAddr w), by rw [h2]; rfl⟩
    | d8 b =>
      obtain ⟨hW, h0⟩ := Bool.and_eq_true_iff.1 hfits
      exact ⟨.wr8 (descriptorAddr w) b, by rw [eq_of_beq hW, eq_of_beq h0]; rfl⟩
    | d32 x =>
      obtain ⟨hW, h2⟩ := Bool.and_eq_true_iff.1 hfits
      exact ⟨.wr32 (descriptorAddr w) x, by rw [eq_of_beq hW, eq_of_beq h2]; rfl⟩

/-- Settles O1: each instruction's fields come back out of its descriptor, by `decode_encode`. -/
theorem decodeOfEncodeIsTheInstruction : Obligations.DecodeOfEncodeIsTheInstruction :=
  decode_encode

/-- Settles O4: a well-formed packet is an encoding, and only the encoding of an instruction decodes to it. -/
theorem packetsThatDecodeAreEncodings : Obligations.PacketsThatDecodeAreEncodings := by
  refine fun p => ⟨⟨fun h => ?_, fun ⟨i, hi⟩ => ?_⟩, fun i hi => encode_of_decode hi⟩
  · obtain ⟨i, rfl⟩ := exists_encode_of_wellFormed h
    exact ⟨i, decode_encode i⟩
  · rw [← encode_of_decode hi]
    exact encode_wellFormed i

/-- Settles O2: a word that matches a row is the descriptor of that row's instruction. -/
theorem busRowsMatchTheirMasks : Obligations.BusRowsMatchTheirMasks := by
  refine fun w => ⟨fun h => ?_, fun h => ?_, fun d h => ?_, fun d h => ?_⟩ <;> rw [decode_eq_ok_iff]
  · exact congrArg (Packet.bus · .none) (eq_descriptor_of_masked h).symm
  · exact congrArg (Packet.bus · .none) (eq_descriptor_of_masked h).symm
  · exact congrArg (Packet.bus · (.d8 d)) (eq_descriptor_of_masked h).symm
  · exact congrArg (Packet.bus · (.d32 d)) (eq_descriptor_of_masked h).symm

/-- Settles O5: a word decodes to a command exactly if it is the word the command encodes to. -/
theorem commandWordsAreExact : Obligations.CommandWordsAreExact := by
  have hword : ∀ v w : Word, Packet.cmd v = .cmd w ↔ w = v := fun v w => by rw [Packet.cmd.injEq, eq_comm]
  refine fun w => ⟨decode_eq_ok_iff.trans (hword _ w), decode_eq_ok_iff.trans (hword _ w),
    decode_eq_ok_iff.trans (hword _ w), fun h0 h1 h2 => ?_⟩
  simp only [decode, decodeCommand, if_neg h0, if_neg h1, if_neg h2]

/-- Settles O6: each word written out is the encoding of its instruction. -/
theorem writtenOutWordsDecode : Obligations.WrittenOutWordsDecode :=
  ⟨decode_encode .nop, decode_encode .bwt, decode_encode .clear, decode_encode (.rd8 0x100002#23),
    decode_encode (.rd32 0x000000#23), decode_encode (.wr8 0x100006#23 0x62#8),
    decode_encode (.wr32 0x00000C#23 6#32)⟩

/-! ## Reserved descriptors -/

/-- A bit of [28:23] refuses a descriptor, whatever else it holds (30_encoding.md R92). -/
theorem decode_mbzSet {w : Word} (d : DataOperand) (h : descriptorMbz w ≠ 0#6) :
    decode (.bus w d) = .error .mbzSet := by
  simp only [decode, decodeBus, if_pos h]

/-- With `MBZ = 0`, `SZ` 01 or 11 refuses a descriptor (30_encoding.md R92). -/
theorem decode_reservedSize {w : Word} (d : DataOperand) (hmbz : descriptorMbz w = 0#6)
    (hsz : descriptorSz w = 1#2 ∨ descriptorSz w = 3#2) : decode (.bus w d) = .error .reservedSize := by
  rcases hsz with h | h <;> simp [decode, decodeBus, hmbz, h]

end Sys2Proof

namespace Sys2Proof.Machine

/-- The step of a host that stands on a transaction line and moves next issues the line's packet. -/
theorem step_issue {s : State} {p : Packet} (hf : s.modelFault = none) (hr : s.resetIn = [])
    (hl : hostLine s = some (.transaction p)) (ht : s.status.busy = false ∨ 1 ≤ s.hostTurns) :
    step s = issue p (nextLine (spendTurn s)) := by
  rw [step_host hf hr (engineMoves_eq_false hl ht), hostStep_of_hostLine ((hostLine_spendTurn s).trans hl)]
  rfl

/-- Settles O3: the decoder's two named refusals, and `issue` passes each name on. -/
theorem reservedDescriptorsAreRefusedByName : Obligations.ReservedDescriptorsAreRefusedByName := by
  refine fun w d => ⟨⟨decode_mbzSet d, decode_reservedSize d⟩, fun s hf hr hl ht => ?_⟩
  rw [step_issue hf hr hl ht]
  refine ⟨fun hmbz => ?_, fun hmbz hsz => ?_⟩
  · simp only [issue, decode_mbzSet d hmbz]
  · simp only [issue, decode_reservedSize d hmbz hsz]

/-! ## The word of `STATUS` -/

/-- Bit by bit, the word read from `STATUS` (30_encoding.md R99). -/
theorem Status.word_getLsbD (f : Status) (k : Nat) :
    f.word.getLsbD k =
      if k = 0 then f.busy else if k = 1 then f.done else if k = 2 then f.err else if k = 3 then f.viol
      else if k < 8 then f.errCode.bits.getLsbD (k - 4) else false := by
  change (0#24 ++ f.errCode.bits ++ BitVec.ofBool f.viol ++ BitVec.ofBool f.err ++ BitVec.ofBool f.done ++
    BitVec.ofBool f.busy : BitVec (24 + 4 + 1 + 1 + 1 + 1)).getLsbD k = _
  simp only [BitVec.getLsbD_append, BitVec.getLsbD_zero, BitVec.getLsbD_ofBool]
  grind

/-- Bits [7:4] of the word read from `STATUS` are the error code (30_encoding.md R99). -/
theorem Status.word_errCode (f : Status) : f.word.extractLsb' 4 4 = f.errCode.bits := by
  refine BitVec.eq_of_getLsbD_eq fun k hk => ?_
  rw [BitVec.getLsbD_extractLsb', decide_eq_true hk, Status.word_getLsbD]
  grind

/-- Bits [31:8] of the word read from `STATUS` are 0 (30_encoding.md R99). -/
theorem Status.word_reserved (f : Status) : f.word.extractLsb' 8 24 = 0#24 := by
  refine BitVec.eq_of_getLsbD_eq fun k hk => ?_
  rw [BitVec.getLsbD_extractLsb', Status.word_getLsbD]
  grind

/-- Settles O12: the read completes with the word of `STATUS` in `RES`, which `Status.word_getLsbD` gives bit by bit. -/
theorem statusWordLayout : Obligations.StatusWordLayout := by
  intro s
  have hbit := s.status.word_getLsbD
  exact ⟨s.setRes s.status.word, exec_rd32_reg s (by decide) (by decide), hbit 0, hbit 1, hbit 2, hbit 3,
    s.status.word_errCode, s.status.word_reserved⟩

/-! ## Control lines -/

/-- A jump to a label the script defines moves the host to the label's line. -/
theorem jumpTo_of_labelPlace {l : Label} {s : State} {k : Nat} (h : labelPlace l s.agent.script 0 = some k) :
    jumpTo l s = .next (s.setAgent { s.agent with line := k }) := by
  simp only [jumpTo, h]

/-- A jump on a bit of `RES`, to a label the script defines, moves the host to one of two lines. -/
theorem jumpOnBit_of_labelPlace {l : Label} {s : State} {k : Nat} (h : labelPlace l s.agent.script 0 = some k)
    (b : Fin 32) (v : Bool) :
    jumpOnBit b v l s = .next (s.setAgent { s.agent with
      line := if s.agent.res.getLsbD b.val = v then k else s.agent.line + 1 }) := by
  unfold jumpOnBit
  split
  · exact jumpTo_of_labelPlace h
  · rfl

/-- Settles O55: a jump, a fall-through and `halt` each set one field of the agent. -/
theorem controlLinesMoveTheHost : Obligations.ControlLinesMoveTheHost := by
  refine fun s b l k h => ⟨jumpOnBit_of_labelPlace h b true, ?_, jumpTo_of_labelPlace h, rfl⟩
  refine (jumpOnBit_of_labelPlace h b false).trans ?_
  cases hb : s.agent.res.getLsbD b.val <;> rfl

end Sys2Proof.Machine
end

section
/-! SUPPORT. Proofs of the statements about bus access (40_bus_access.md): the address map, the byte read, the registers,
and the writes that store while the block is idle. -/

namespace Sys2Proof.Machine

/-! ## The address map -/

/-- `T_DEPTH` is the first multiple of 4 that holds `N_MAX + 1` bytes (00_scope.md R7). -/
theorem tDepth_bounds (nMax : Nat) :
    Config.tDepth nMax % 4 = 0 ∧ nMax + 1 ≤ Config.tDepth nMax ∧ Config.tDepth nMax ≤ nMax + 4 := by
  unfold Config.tDepth
  omega

/-- Settles O7: `decodeAddr_byte` and `decodeAddr_word` give the windows, `tDepth_bounds` the depth. -/
theorem addressMapIsTheSpecs : Obligations.AddressMapIsTheSpecs :=
  ⟨fun _ hn _ _ _ => ⟨decodeAddr_byte hn, decodeAddr_word hn⟩, fun n => ⟨rfl, tDepth_bounds n⟩, rfl, rfl⟩

/-! ## Reads -/

/-- Settles O10: the two cases of `readT`. -/
theorem rd8ReadsAByte : Obligations.Rd8ReadsAByte := by
  intro s i hn hi
  rw [exec_rd8_t hn hi]
  refine ⟨fun b hb => ?_, fun hnone => ?_⟩
  · rw [readT_written hb]
    rfl
  · rw [readT_unwritten hnone]
    rfl

/-- Settles O11: every offset named is an aligned one of the register window, and the value named is the one `readReg`
gives there. -/
theorem rd32ReadsEachRegister : Obligations.Rd32ReadsEachRegister := by
  intro s a v h
  obtain ⟨hmap, h4, rfl⟩ : a.toNat ≤ 0xFF ∧ a.toNat % 4 = 0 ∧ v = readReg a.toNat s := by
    rcases h with ⟨rfl, rfl⟩ | ⟨rfl, rfl⟩ | ⟨rfl, rfl⟩ | ⟨rfl, rfl⟩ | ⟨rfl, rfl⟩ | ⟨rfl, rfl⟩ | ⟨rfl, rfl⟩ |
      ⟨hlow, hhigh, h4, rfl⟩
    iterate 7 · exact ⟨by decide, by decide, rfl⟩
    · exact ⟨by omega, h4, (readReg_reserved s hlow).symm⟩
  exact exec_rd32_reg s hmap h4

/-! ## Writes while idle -/

/-- WR32 of `SA[i]` while idle. -/
theorem exec_wr32_sa {i : Nat} {s : State} (hn : s.nMax.toNat ≤ Config.nMaxLimit) (w : Word)
    (hi : i < Config.saDepth s.nMax.toNat) (hb : s.status.busy = false) :
    exec (.wr32 (BitVec.ofNat 23 (0x400000 + 4 * i)) w) s = .next (writeSa i w s) := by
  rw [← unlessBusy_idle (w := writeSa i w) hb]
  exact execWr32_saMem w s hn (saAddr_toNat hn hi) hi

/-- Settles O16: while idle the byte is one write to `T_MEM`, which `Memory.read_write_same` and
`Memory.read_write_other` read back. -/
theorem wr8StoresItsByte : Obligations.Wr8StoresItsByte :=
  fun _ _ b hn hi hb =>
    ⟨_, exec_wr8_t hn b hi hb, rfl, Memory.read_write_same _ _ _, fun _ hj => Memory.read_write_other _ b hj⟩

/-- Settles O18: while idle the word is one write to `SA_MEM`, read back as the byte of `T_MEM` is. -/
theorem wr32StoresAnSaWord : Obligations.Wr32StoresAnSaWord :=
  fun _ _ w hn hi hb =>
    ⟨_, exec_wr32_sa hn w hi hb, rfl, Memory.read_write_same _ _ _, fun _ hj => Memory.read_write_other _ w hj⟩

end Sys2Proof.Machine
end

section
/-! SUPPORT. Proofs of the statements about the commands (41_commands.md): the dispatch of a word written to `CMD`, the
checks of a BWT, and the run an accepted BWT comes to the end of. -/

namespace Sys2Proof.Machine

/-! ## The dispatch of a command word -/

theorem commandWrite_nop (s : State) : commandWrite 0#32 s = s := rfl

theorem commandWrite_bwt (s : State) : commandWrite 1#32 s = unlessBusy bwtStart s := rfl

theorem commandWrite_clear (s : State) : commandWrite 2#32 s = unlessBusy clearStatus s := rfl

/-- A word that is no command is a write that a busy block refuses, as every other one (41_commands.md R140, R144). -/
theorem commandWrite_illegal {w : Word} (h0 : w ≠ 0#32) (h1 : w ≠ 1#32) (h2 : w ≠ 2#32) (s : State) :
    commandWrite w s = unlessBusy (setError .illegalCmd) s := by
  simp only [commandWrite, if_neg h0, if_neg h1, if_neg h2, unlessBusy]

/-- A command's own word, presented to `CMD`, is that command (41_commands.md R140). -/
theorem exec_eq_commandWrite {w : Word} {i : Instr} (h : decode (.cmd w) = .ok i) (s : State) :
    exec i s = .next (commandWrite w s) := by
  rw [decode_eq_ok_iff] at h
  cases i with
  | nop => cases h; rw [commandWrite_nop]; rfl
  | bwt => cases h; rw [commandWrite_bwt]; rfl
  | clear => cases h; rw [commandWrite_clear]; rfl
  | rd8 | rd32 | wr8 | wr32 => cases h

/-- A word the decoder rejects is none of the three commands (30_encoding.md R95). -/
theorem ne_command_of_decode {w : Word} {e : DecodeError} (h : decode (.cmd w) = .error e) :
    w ≠ 0#32 ∧ w ≠ 1#32 ∧ w ≠ 2#32 := by
  refine ⟨?_, ?_, ?_⟩ <;> rintro rfl
  · exact absurd (h.symm.trans (decode_encode .nop)) (by simp)
  · exact absurd (h.symm.trans (decode_encode .bwt)) (by simp)
  · exact absurd (h.symm.trans (decode_encode .clear)) (by simp)

/-- Settles O25: NOP is the identity, and its word is let through before the busy check. -/
theorem nopHasNoEffect : Obligations.NopHasNoEffect :=
  ⟨decode_encode .nop, fun s => ⟨rfl, (execWr32_cmd s 0#32).trans (congrArg _ (commandWrite_nop s))⟩⟩

/-- Settles O27: `commandWrite_illegal`, busy and idle. -/
theorem illegalCommandLatchesItsError : Obligations.IllegalCommandLatchesItsError := by
  intro s w h0 h1 h2
  rw [execWr32_cmd, commandWrite_illegal h0 h1 h2]
  refine ⟨fun hb => ?_, fun hb => ?_⟩
  · rw [unlessBusy_idle hb]
    rfl
  · rw [unlessBusy_busy hb]
    rfl

/-- Settles O23: the write runs what the word decodes to, and a word that decodes to nothing is an illegal command. -/
theorem wr32CmdDispatchesItsWord : Obligations.Wr32CmdDispatchesItsWord := by
  refine fun s w => ⟨fun i hd => ?_, fun hd => ?_⟩
  · rw [execWr32_cmd, exec_eq_commandWrite hd]
  · obtain ⟨h0, h1, h2⟩ := ne_command_of_decode hd
    obtain ⟨hidle, hbusy⟩ := illegalCommandLatchesItsError s w h0 h1 h2
    cases hb : s.status.busy with
    | false => exact hidle hb
    | true => exact hbusy hb

/-! ## CLEAR -/

/-- CLEAR of an idle block leaves `STATUS` as after reset (41_commands.md R143, 10_state.md R47). -/
theorem Status.clear_of_idle {f : Status} (h : f.busy = false) : f.clear = Status.reset := by
  simp only [Status.clear, Status.reset, h]

/-- Settles O26: while idle CLEAR writes `STATUS` alone, and leaves it as after reset. -/
theorem clearAcknowledgesTheStatus : Obligations.ClearAcknowledgesTheStatus := by
  refine ⟨decode_encode .clear, fun s => ⟨?_, fun hb => ?_, fun hb => ?_⟩⟩
  · exact (wr32CmdDispatchesItsWord s _).1 .clear (decode_encode .clear)
  · have hs : (clearStatus s).status = Status.reset := Status.clear_of_idle hb
    refine ⟨clearStatus s, congrArg _ (unlessBusy_idle hb), rfl, ?_, ?_⟩
    · rw [hs]
      rfl
    · rw [State.irq, hs]
      rfl
  · exact congrArg _ (unlessBusy_busy hb)

/-! ## The checks of a BWT -/

theorem exec_bwt_busy {s : State} (hb : s.status.busy = true) : exec .bwt s = .next (refuseWrite s) :=
  congrArg _ (unlessBusy_busy hb)

theorem exec_bwt_idle {s : State} (hb : s.status.busy = false) : exec .bwt s = .next (bwtStart s) :=
  congrArg _ (unlessBusy_idle hb)

theorem bwtStart_len {s : State} (h : s.nMax.toNat < s.len.toNat) : bwtStart s = setError .len s :=
  if_pos h

theorem bwtStart_unwritten {s : State} (hn : s.len.toNat ≤ s.nMax.toNat) (h1 : 1 ≤ s.len.toNat)
    (hw : inputWritten s s.len.toNat = false) : bwtStart s = raiseFault .unwrittenInput s :=
  (if_neg (by omega)).trans (if_pos ⟨h1, hw⟩)

theorem bwtStart_wrap {s : State} (hn : s.len.toNat ≤ s.nMax.toNat) (h1 : 1 ≤ s.len.toNat)
    (hw : inputWritten s s.len.toNat = true) (hb : wrapByteOk s s.len.toNat = false) :
    bwtStart s = setError .wrap s :=
  (if_neg (by omega)).trans ((if_neg (by simp [hw])).trans (if_pos ⟨h1, hb⟩))

theorem bwtStart_accept {s : State} (hn : s.len.toNat ≤ s.nMax.toNat)
    (hi : 1 ≤ s.len.toNat → inputWritten s s.len.toNat = true ∧ wrapByteOk s s.len.toNat = true) :
    bwtStart s = acceptBwt s :=
  (if_neg (by omega)).trans
    ((if_neg fun h => by simp [(hi h.1).1] at h).trans (if_neg fun h => by simp [(hi h.1).2] at h))

/-- Settles O28: each check fails where the ones before it pass. -/
theorem bwtChecksInOrder : Obligations.BwtChecksInOrder := by
  refine fun s => ⟨exec_bwt_busy, fun hb => ?_⟩
  rw [exec_bwt_idle hb]
  refine ⟨fun h => congrArg _ (bwtStart_len h), fun h1 hn hex => ?_, fun h1 hn hall hne => ?_⟩
  · obtain ⟨j, hj, hnone⟩ := hex
    have hw : inputWritten s s.len.toNat = false :=
      Bool.eq_false_iff.2 fun hw => inputWritten_iff.1 hw j hj hnone
    exact congrArg _ (bwtStart_unwritten hn h1 hw)
  · have hwrap : wrapByteOk s s.len.toNat = false := Bool.eq_false_iff.2 fun hw => hne (wrapByteOk_iff.1 hw)
    exact congrArg _ (bwtStart_wrap hn h1 (inputWritten_iff.2 hall) hwrap)

/-- A BWT whose input is in place is accepted (41_commands.md R142). -/
theorem exec_bwt_accept {s : State} (hb : s.status.busy = false) (hn : s.len.toNat ≤ s.nMax.toNat)
    (hi : 1 ≤ s.len.toNat → (∀ j, j ≤ s.len.toNat → Memory.read s.tMem j ≠ none) ∧
      Memory.read s.tMem s.len.toNat = Memory.read s.tMem 0) : exec .bwt s = .next (acceptBwt s) := by
  have hi' := fun h1 => (hi h1).imp inputWritten_iff.2 wrapByteOk_iff.2
  rw [exec_bwt_idle hb, bwtStart_accept hn hi']

/-- Settles O29: all the checks pass, and `acceptBwt` writes `STATUS`, the engine and the model's two counts. -/
theorem bwtIsAccepted : Obligations.BwtIsAccepted :=
  fun s hb hn hi => ⟨acceptBwt s, exec_bwt_accept hb hn hi, rfl, rfl, rfl, rfl⟩

/-- A block in `T[0..n-1]`, with its wrap byte behind it, is an input in place (42_bwt_engine.md R160). -/
theorem HoldsBlock.written {s : State} {block : List Byte} (h : HoldsBlock s block)
    (hwrap : Memory.read s.tMem block.length = Memory.read s.tMem 0) (h1 : 1 ≤ block.length) {j : Nat}
    (hj : j ≤ block.length) : Memory.read s.tMem j ≠ none := by
  rcases Nat.lt_or_eq_of_le hj with hj | rfl
  · simp [h j hj]
  · simp [hwrap, h 0 h1]

/-! ## Rows and their last bytes -/

/-- The insertion sort of the rows is a row order (42_bwt_engine.md R161). -/
theorem isRowOrder_rowOrder (block : List Byte) : IsRowOrder block (rowOrder block) := by
  refine ⟨rowOrder_perm block, pairwise_insertionSort_of_agrees (r := RowLe block) (s := RowLe block)
    (P := fun _ => True) (fun _ _ _ => RowLe.trans) (fun _ _ _ _ => id) (fun p q _ _ h => ?_) (by simp)⟩
  exact (RowLe.total block p q).resolve_left h

/-- The last byte of a row is that of its rotation, so equal rotations have one (42_bwt_engine.md R162). -/
theorem lastByte_eq_rotation {block : List Byte} {r : Nat} (hr : r < block.length) :
    lastByte block r = (rotation block r).getD (block.length - 1) 0#8 := by
  rw [rotation_getD block hr (by omega), lastByte, Nat.add_sub_assoc (by omega)]

/-- Two row orders list the same rotations: sorted, they differ only where rotations are equal. -/
theorem IsRowOrder.map_rotation_eq {block : List Byte} {pi rho : List Nat} (h : IsRowOrder block pi)
    (h' : IsRowOrder block rho) : pi.map (rotation block) = rho.map (rotation block) :=
  List.Perm.eq_of_pairwise (le := fun x y => lexLt y x = false) (fun _ _ _ _ hyx hxy => eq_of_not_lexLt hxy hyx)
    (List.pairwise_map.2 h.2) (List.pairwise_map.2 h'.2) ((h.1.trans h'.1.symm).map _)

/-- The last bytes of the rows are `L`, in any row order (42_bwt_engine.md R162). -/
theorem IsRowOrder.map_lastByte {block : List Byte} {pi : List Nat} (h : IsRowOrder block pi) :
    pi.map (lastByte block) = transform block := by
  have key : ∀ rho, IsRowOrder block rho → rho.map (lastByte block) =
      (rho.map (rotation block)).map (fun x => x.getD (block.length - 1) 0#8) := by
    intro rho hrho
    rw [List.map_map]
    exact List.map_congr_left fun r hr => lastByte_eq_rotation (List.mem_range.1 (hrho.1.mem_iff.1 hr))
  have hrow := isRowOrder_rowOrder block
  rw [transform, key pi h, key _ hrow, h.map_rotation_eq hrow]

theorem IsRowOrder.length_eq {block : List Byte} {pi : List Nat} (h : IsRowOrder block pi) :
    pi.length = block.length := by
  simpa using h.1.length_eq

/-! ## What the completion step publishes -/

section
variable {s : State} {block : List Byte} (hn : runLength s = block.length) (hblock : HoldsBlock s block)
include hn hblock

theorem blockOf_runLength : blockOf s (runLength s) = block := by
  rw [hn]
  exact blockOf_eq hblock

/-- Completion leaves in `SA[i]` the last byte of row `i`, zero-extended, in any row order (42_bwt_engine.md R162,
R166). -/
theorem complete_read_row {pi : List Nat} (hpi : IsRowOrder block pi) {i : Nat} (hi : i < pi.length) :
    Memory.read (complete s).saMem i = some ((lastByte block pi[i]).setWidth 32) := by
  have hlen := hpi.length_eq
  rw [complete_saMem s (by omega), blockOf_runLength hn hblock, ← hpi.map_lastByte, Memory.read_fill,
    if_pos (by simp; omega), Nat.sub_zero, List.getElem?_append_left (by simpa using hi)]
  simp [hi]

/-- Completion publishes a row of rotation 0 (42_bwt_engine.md R163). -/
theorem complete_startPtr_range (h1 : 1 ≤ block.length) :
    rowsBelow block ≤ (complete s).startPtr.toNat ∧
      (complete s).startPtr.toNat < rowsBelow block + rowsEqual block := by
  have hlt : block.length < 2 ^ 24 := hn ▸ s.engine.nLat.isLt
  have hrow := startRow_lt Config.startTie s.engine.tie h1
  rw [complete_startPtr, blockOf_runLength hn hblock, BitVec.toNat_ofNat, Nat.mod_eq_of_lt (by omega)]
  exact startRow_range Config.startTie s.engine.tie h1

end

/-- The start pointer of a run of the empty block is 0 (42_bwt_engine.md R164). -/
theorem complete_startPtr_empty {s : State} (h : runLength s = 0) : (complete s).startPtr = 0#24 := by
  rw [complete_startPtr, h]
  rfl

/-! ## A run left alone -/

/-- Nothing is asked of the block: no fault, no reset to come, and a host that issues nothing. -/
structure LeftAlone (s : State) : Prop where
  fault : s.modelFault = none
  reset : s.resetIn = []
  host  : hostLine s = none

/-- An engine step asks nothing of the block. -/
theorem LeftAlone.after_engineStep {s : State} (h : LeftAlone s) : LeftAlone (engineStep s) := by
  have hf := engineStep_frame s
  refine ⟨hf.modelFault.trans h.fault, hf.resetIn.trans h.reset, ?_⟩
  rw [hostLine, hf.agent]
  exact h.host

/-- A running block left alone takes an engine step. -/
theorem LeftAlone.step_eq {s : State} (h : LeftAlone s) (hb : s.status.busy = true) : step s = .next (engineStep s) :=
  step_engine h.fault h.reset (by simp [engineMoves, hb, h.host])

theorem runSteps_succ_of_step {s t : State} (h : step s = .next t) (k : Nat) : runSteps (k + 1) s = runSteps k t := by
  simp only [runSteps, h]

/-- `u` is a state of the run `s` is in: the engine has moved, and the host sees none of it in the registers. -/
structure SameRun (s u : State) : Prop where
  frame    : EngineFrame s u
  status   : u.status = s.status
  startPtr : u.startPtr = s.startPtr
  running  : u.engine.phase ≠ .idle

/-- An engine step that does not end the run stays in it (42_bwt_engine.md R168). -/
theorem sameRun_engineStep {s : State} (hp : s.engine.phase ≠ .idle) (hnext : (engineStep s).engine.phase ≠ .idle) :
    SameRun s (engineStep s) := by
  rcases engineStep_cases s hp with ⟨hs, hptr, -⟩ | ⟨-, hidle, -⟩ | ⟨-, -, -, hidle⟩
  · exact ⟨engineStep_frame s, hs, hptr, hnext⟩
  · exact absurd hidle hnext
  · exact absurd hidle hnext

theorem SameRun.trans {s u v : State} (h : SameRun s u) (h' : SameRun u v) : SameRun s v :=
  ⟨h.frame.trans h'.frame, h'.status.trans h.status, h'.startPtr.trans h.startPtr, h'.running⟩

/-- A running block left alone comes to the last step of its run: every step before it leaves less of the run
(42_bwt_engine.md R168). -/
theorem exists_lastStep {s : State} (ha : LeftAlone s) (hbusy : s.status.busy = true) (hb : BoundsInv s.engine)
    (hp : s.engine.phase ≠ .idle) :
    ∃ k u, runSteps k s = .next (engineStep u) ∧ SameRun s u ∧ (engineStep u).engine.phase = .idle := by
  induction s using (InvImage.wf runLeft runLess_wf).induction with
  | _ s ih =>
    have hstep := ha.step_eq hbusy
    obtain ⟨hbounds, hidle | hless⟩ := engineStep_less hb hp
    · exact ⟨1, s, runSteps_succ_of_step hstep 0, ⟨.refl s, rfl, rfl, hp⟩, hidle⟩
    · by_cases hidle : (engineStep s).engine.phase = .idle
      · exact ⟨1, s, runSteps_succ_of_step hstep 0, ⟨.refl s, rfl, rfl, hp⟩, hidle⟩
      · have hsame := sameRun_engineStep hp hidle
        obtain ⟨k, u, hk, hu, hend⟩ := ih _ hless ha.after_engineStep (by rw [hsame.status, hbusy]) hbounds hidle
        exact ⟨k + 1, u, (runSteps_succ_of_step hstep k).trans hk, hsame.trans hu, hend⟩

/-- Settles O36: an accepted BWT starts a run inside its bounds; left alone it comes to its last step, which is the
completion over the block that `T_MEM` still holds, or the internal fault. -/
theorem bwtRunComputesTheTransform : Obligations.BwtRunComputesTheTransform := by
  intro s block pi hidle hfault hreset hline hlen hmax hblock hwrap hpi
  have hexec : exec .bwt s = .next (acceptBwt s) := by
    refine exec_bwt_accept hidle (by omega) ?_
    rw [hlen]
    exact fun h1 => ⟨fun j => hblock.written (hwrap h1) h1, hwrap h1⟩
  obtain ⟨k, u, hk, hrun, hend⟩ := exists_lastStep (s := acceptBwt s) ⟨hfault, hreset, hline⟩ rfl
    (startedEngine_bounds _ _ _) (by simp [acceptBwt, startedEngine])
  have hf : EngineFrame (acceptBwt s) (engineStep u) := hrun.frame.trans (engineStep_frame u)
  refine ⟨_, hexec, rfl, k, engineStep u, hk, hf.tMem, hf.len, hf.irqEn, fun i hi => hf.beyond i (hlen ▸ hi), ?_⟩
  rcases engineStep_cases u hrun.running with ⟨-, -, hgo, -⟩ | ⟨hs, -, -, -, hc⟩ | ⟨hpos, hs, hptr, -⟩
  · exact absurd hend hgo
  · have hn : runLength (turnsDrawn u) = block.length := (congrArg BitVec.toNat hrun.frame.nLat).trans hlen
    have hu : HoldsBlock (turnsDrawn u) block := fun i hi => by
      rw [← hblock i hi]
      exact congrArg (Memory.read · i) hrun.frame.tMem
    refine .inl ⟨by rw [hs, hrun.status]; rfl, ?_⟩
    refine ⟨fun i hi => ?_, fun h0 => ⟨hf.empty (BitVec.eq_of_toNat_eq (hlen.trans h0)), ?_⟩, fun h1 => ?_⟩
    · rw [hc]
      exact complete_read_row hn hu hpi hi
    · rw [hc]
      exact complete_startPtr_empty (hn.trans h0)
    · rw [hc]
      exact complete_startPtr_range hn hu h1
  · exact .inr ⟨hpos, by rw [hs, hrun.status]; rfl, hptr.trans hrun.startPtr⟩

end Sys2Proof.Machine
end

section
/-! SUPPORT. Proofs of the statements about a run of the engine (42_bwt_engine.md): that it ends, how each of its steps
can come out, and what its completion publishes. -/

namespace Sys2Proof.Machine

/-! ## Every run ends -/

/-- A step that ends the run clears `BUSY`, and any other leaves `STATUS` alone (42_bwt_engine.md R166-R168). -/
theorem engineStep_status_or_idle {s : State} (hp : s.engine.phase ≠ .idle) :
    (engineStep s).status = s.status ∧ (engineStep s).engine.phase ≠ .idle ∨ (engineStep s).status.busy = false := by
  rcases engineStep_cases s hp with ⟨hs, -, hph, -⟩ | ⟨hs, -⟩ | ⟨-, hs, -⟩
  · exact .inl ⟨hs, hph⟩
  · exact .inr (by simp [hs])
  · exact .inr (by simp [hs])

/-- Settles O35, by induction on what is left of the run: a step that does not end it leaves less
(`engineStep_less`). -/
theorem everyRunIsFinite : Obligations.EveryRunIsFinite := by
  intro s hp hb hbusy
  induction s using (InvImage.wf runLeft runLess_wf).induction with
  | _ s ih =>
    rcases engineStep_status_or_idle hp with ⟨hs, hgo⟩ | hend
    · obtain ⟨hbounds, hless⟩ := engineStep_less hb hp
      obtain ⟨k, hk⟩ := ih _ (hless.resolve_left hgo) hgo hbounds (by rw [hs, hbusy])
      exact ⟨k + 1, hk⟩
    · exact ⟨1, hend⟩

/-! ## The outcomes of an engine step -/

/-- Only the completion step writes `START_PTR` (42_bwt_engine.md R166, R169). -/
theorem EngineOutcome.startPtr_or_complete {u t : State} (h : EngineOutcome u t) :
    t.startPtr = u.startPtr ∨ t = Machine.complete u := by
  cases h with
  | complete => exact .inr rfl
  | idle | induce => exact .inl rfl
  | classified | sorted | refined | substring | refinement | fault | move => exact .inl (by simp [moveStep])

/-- Settles O32: `EngineFrame` says what no step changes, and only `complete` writes `START_PTR`. -/
theorem engineStepIsConfined : Obligations.EngineStepIsConfined := by
  intro s
  have hf := engineStep_frame s
  refine ⟨hf.tMem, hf.len, hf.irqEn, hf.nMax, hf.viol, hf.agent, hf.modelFault, hf.resetIn, hf.beyond, ?_, hf.empty⟩
  refine (engineStep_outcome s).startPtr_or_complete.imp_right fun hc => ?_
  rw [hc]
  exact ⟨rfl, rfl⟩

/-- Settles O33: the three cases of `engineStep_cases`. -/
theorem engineStepHasThreeOutcomes : Obligations.EngineStepHasThreeOutcomes := by
  intro s _ hp
  rcases engineStep_cases s hp with ⟨hs, hptr, hph, -⟩ | ⟨hs, hph, -⟩ | hfault
  · exact .inl ⟨hs, hptr, hph⟩
  · exact .inr (.inl ⟨hs, hph⟩)
  · exact .inr (.inr hfault)

/-- The phase one place nearer to the end of a run (42_bwt_engine.md R172). -/
theorem phaseRank_succ {p q : Phase} (h : phaseRank q + 1 = phaseRank p) (hq : q ≠ .idle) :
    p = .classify ∧ q = .sssort ∨ p = .sssort ∧ q = .trsort ∨ p = .trsort ∧ q = .construct := by
  cases p <;> cases q <;> simp [phaseRank] at h hq ⊢

/-- A run with `n <= 1` does no bucket, stack or budget work (42_bwt_engine.md R172). -/
theorem EngineOutcome.engine_of_short {u t : State} (h : EngineOutcome u t) (hp : u.engine.phase = .classify)
    (hn : runLength u ≤ 1) :
    t.engine = { u.engine with phase := t.engine.phase, work := t.engine.work } := by
  cases h with
  | idle | complete => rfl
  | classified _ _ h2 => omega
  | move =>
    simp only [moveStep, storeWork_engine]
    rw [(moved_spec u _).2.2 hn]
  | sorted hq | refined hq | substring hq | refinement hq | induce hq => simp [hp] at hq
  | fault hq => simp [hp] at hq

/-- Settles O34: a step that goes on moves at most one phase nearer to the end, and any other ends the run. -/
theorem phasesFollowInOrder : Obligations.PhasesFollowInOrder := by
  refine fun s hp => ⟨?_, fun hc hn => (engineStep_outcome s).engine_of_short hc hn⟩
  rcases engineStep_cases s hp with ⟨-, -, hgo, ⟨hrank, h2⟩ | hsame⟩ | ⟨-, hidle, hend, -⟩ | ⟨-, hs, -, hidle⟩
  · rcases phaseRank_succ hrank hgo with ⟨hc, hnext⟩ | hnext | hnext
    · exact .inr (.inl ⟨hc, h2 hc, hnext⟩)
    · exact .inr (.inr (.inl hnext))
    · exact .inr (.inr (.inr (.inl hnext)))
  · exact .inl hsame
  · exact .inr (.inr (.inr (.inr ⟨hidle, .inr hend⟩)))
  · exact .inr (.inr (.inr (.inr ⟨hidle, .inl (by simp [hs])⟩)))

/-! ## The completion step -/

/-- CONSTRUCT with no internal step left completes (42_bwt_engine.md R166). -/
theorem engineStep_construct {s : State} (hp : s.engine.phase = .construct) (hw : s.engine.work = 0) :
    engineStep s = complete (turnsDrawn s) := by
  simp [engineStep, phaseStep, hp, hw]

/-- CLASSIFY of a block of at most one byte completes (42_bwt_engine.md R172). -/
theorem engineStep_classify_short {s : State} (hp : s.engine.phase = .classify) (hw : s.engine.work = 0)
    (hn : runLength s ≤ 1) : engineStep s = complete (turnsDrawn s) := by
  have hn' : runLength (turnsDrawn s) ≤ 1 := hn
  simp [engineStep, phaseStep, hp, hw, hn']

/-- Completion writes `SA[n]` too (42_bwt_engine.md R166). -/
theorem complete_read_last {s : State} (hn : runLength s ≠ 0) :
    Memory.read (complete s).saMem (runLength s) = some (Config.freeWord s.draws) := by
  rw [complete_saMem s hn, Memory.read_fill, if_pos (by simp)]
  simp

/-- Settles O30: the step is `complete`, whose rows and start pointer are those of any row order. -/
theorem completionPublishesTheTransform : Obligations.CompletionPublishesTheTransform := by
  intro s block pi hp hw hn h1 hblock hpi
  have hn' : runLength (turnsDrawn s) = block.length := hn
  have hblock' : HoldsBlock (turnsDrawn s) block := hblock
  have hf := complete_frame (turnsDrawn s)
  refine ⟨_, engineStep_construct hp hw, rfl, fun i hi => complete_read_row hn' hblock' hpi hi, ?_,
    fun i hi => hf.beyond i (hn.trans_lt hi), complete_startPtr_range hn' hblock' h1⟩
  rw [← hn', complete_read_last (by omega)]
  simp

/-- The one row order of a block of one byte. -/
theorem isRowOrder_singleton (b : Byte) : IsRowOrder [b] [0] := ⟨.refl _, List.pairwise_singleton _ _⟩

/-- Settles O31: from CLASSIFY the step is `complete`, over the empty block or over a block with one row. -/
theorem shortBlocksCompleteTrivially : Obligations.ShortBlocksCompleteTrivially := by
  refine fun s hp hw => ⟨fun h0 => ?_, fun b h1 hread => ?_⟩
  · have hn : runLength (turnsDrawn s) = 0 := congrArg BitVec.toNat h0
    rw [engineStep_classify_short hp hw (hn.trans_le (by omega))]
    exact ⟨(complete_frame (turnsDrawn s)).empty h0, complete_startPtr_empty hn, rfl⟩
  · have hn : runLength (turnsDrawn s) = [b].length := congrArg BitVec.toNat h1
    have hblock : HoldsBlock (turnsDrawn s) [b] := fun i hi => by
      obtain rfl : i = 0 := by simpa using hi
      exact hread
    rw [engineStep_classify_short hp hw (hn.trans_le (by simp))]
    refine ⟨complete_read_row hn hblock (isRowOrder_singleton b) (by simp), ?_, rfl⟩
    have hrow := startRow_lt Config.startTie (block := [b]) s.engine.tie (by simp)
    rw [complete_startPtr, blockOf_runLength hn hblock]
    exact congrArg (BitVec.ofNat 24) (Nat.lt_one_iff.1 hrow)

/-! ## The end of the induction -/

/-- The bytes induced from sorted positions are `L` (42_bwt_engine.md R162, R179). -/
theorem inducedTransform_eq {block : List Byte} {order : List Nat} (h : order.Pairwise (RowLe block)) :
    inducedTransform block order = transform block :=
  IsRowOrder.map_lastByte (inducedOrder_sorted h)

/-- The last internal step of CONSTRUCT is the end of the induction (42_bwt_engine.md R179). -/
theorem engineStep_induce {s : State} (hp : s.engine.phase = .construct) (hw : s.engine.work = 1) :
    engineStep s = induceStep (turnsDrawn s) := by
  simp [engineStep, internalStep, hp, hw]

/-- Where PA holds sorted positions, the end of the induction leaves `L` in the low bytes of `SA[0..n-1]`. -/
theorem induceStep_placed {s : State} (hs : (paPositions s).Pairwise (RowLe (blockOf s (runLength s)))) {i : Nat}
    (hi : i < runLength s) :
    ∃ w, Memory.read (induceStep s).saMem i = some w ∧
      w.extractLsb' 0 8 = (transform (blockOf s (runLength s))).getD i 0#8 := by
  rw [← inducedTransform_eq hs]
  exact induceStep_read s hi

/-- Completion publishes the start pointer the engine knows (42_bwt_engine.md R163, R179). -/
theorem complete_startPtr_toNat {s : State} {block : List Byte} (hn : runLength s = block.length)
    (hblock : HoldsBlock s block) (h1 : 1 ≤ block.length) :
    (complete s).startPtr.toNat = startRow Config.startTie block s.engine.tie := by
  have hlt : block.length < 2 ^ 24 := hn ▸ s.engine.nLat.isLt
  have hrow := startRow_lt Config.startTie s.engine.tie h1
  rw [complete_startPtr, blockOf_runLength hn hblock, BitVec.toNat_ofNat, Nat.mod_eq_of_lt (by omega)]

theorem HoldsBlock.congr {s t : State} {block : List Byte} (h : HoldsBlock s block) (ht : t.tMem = s.tMem) :
    HoldsBlock t block := fun i hi => (congrArg (Memory.read · i) ht).trans (h i hi)

/-- Settles O41: the step is `induceStep`, and the one after it `complete` over the same block. -/
theorem constructWritesLInPlace : Obligations.ConstructWritesLInPlace := by
  intro s block hp hw hn h1 hblock hs
  have hb : blockOf (turnsDrawn s) (runLength (turnsDrawn s)) = block := blockOf_runLength hn hblock
  have hf := induceStep_frame (turnsDrawn s)
  refine ⟨induceStep (turnsDrawn s), engineStep_induce hp hw, hp, ?_, rfl, rfl, hf.len, hf.irqEn, hf.nMax, hf.tMem,
    fun i hi => ?_, ?_⟩
  · simp [hw]
  · have hi' : i < runLength (turnsDrawn s) := hi.trans_eq hn.symm
    have := induceStep_placed (s := turnsDrawn s) (by rw [hb]; exact hs) hi'
    rwa [hb] at this
  · have hn' : runLength (turnsDrawn (induceStep (turnsDrawn s))) = block.length := hn
    have hblock' : HoldsBlock (turnsDrawn (induceStep (turnsDrawn s))) block := hblock.congr hf.tMem
    rw [engineStep_construct (s := induceStep (turnsDrawn s)) hp (by simp [hw])]
    exact ⟨rfl, complete_startPtr_toNat hn' hblock' h1, complete_startPtr_range hn' hblock' h1⟩

end Sys2Proof.Machine
end

section
/-! SUPPORT. Proofs of the laws of the result (42_bwt_engine.md): the row order and `L`, the rows rotation 0 may have,
its period, and the cyclic inverse. -/

namespace Sys2Proof.Machine

/-! ## The rows and `L` -/

/-- Settles O43: `isRowOrder_rowOrder`. -/
theorem rowOrderSortsTheRotations : Obligations.RowOrderSortsTheRotations := isRowOrder_rowOrder

/-- Settles O44: a row order lists the same rotations as the engine's, and a row's last byte is its rotation's
(`IsRowOrder.map_lastByte`). -/
theorem transformIsIndependentOfTies : Obligations.TransformIsIndependentOfTies :=
  fun _ _ h => h.map_lastByte

/-- The position before `p`, around a block of `n` bytes. -/
def previous (n p : Nat) : Nat := (p + n - 1) % n

theorem previous_lt {n p : Nat} (h : p < n) : previous n p < n := Nat.mod_lt _ (by omega)

theorem previous_add_one {n p : Nat} (h : p < n) : (previous n p + 1) % n = p := by
  rw [previous, Nat.mod_add_mod, show p + n - 1 + 1 = p + n by omega, Nat.add_mod_right, Nat.mod_eq_of_lt h]

/-- The positions before those of a block are the positions turned by one. -/
theorem map_previous_range (n : Nat) : (List.range n).map (previous n) = (List.range n).rotate (n - 1) := by
  apply List.ext_getElem (by simp)
  intro k hk _
  have hk : k < n := by simpa using hk
  simp [List.getElem_rotate, previous, Nat.add_sub_assoc (by omega : 1 ≤ n)]

theorem map_previous_perm {n : Nat} {l : List Nat} (h : l.Perm (List.range n)) :
    (l.map (previous n)).Perm (List.range n) :=
  (h.map _).trans (map_previous_range n ▸ List.rotate_perm _ _)

theorem map_getD_range {α : Type} (l : List α) (x : α) : (List.range l.length).map (l.getD · x) = l :=
  List.ext_getElem (by simp) fun k _ hk => by simp [hk]

/-- Settles O45: the positions before the rows are the positions of the block in another order. -/
theorem transformRearrangesTheBlock : Obligations.TransformRearrangesTheBlock := by
  intro block
  have h := (map_previous_perm (rowOrder_perm block)).map (block.getD · 0#8)
  rw [map_getD_range, List.map_map] at h
  exact h

/-! ## The rows of rotation 0 -/

/-- Where no entry with a property stands after one without it, the count of those with it says which places
they have. -/
theorem lt_countP_iff {α : Type} {p : α → Bool} {l : List α} (h : l.Pairwise (fun a b => p b = true → p a = true))
    {v : Nat} (hv : v < l.length) : v < l.countP p ↔ p l[v] = true := by
  induction l generalizing v with
  | nil => simp at hv
  | cons a l ih =>
    obtain ⟨ha, hl⟩ := List.pairwise_cons.1 h
    cases hp : p a with
    | true =>
      cases v with
      | zero => simp [hp]
      | succ v => simpa [hp] using ih hl (by simpa using hv)
    | false =>
      have hnone : ∀ b ∈ a :: l, ¬ p b = true :=
        List.forall_mem_cons.2 ⟨by simp [hp], fun b hb hpb => by simp [ha b hb hpb] at hp⟩
      simp [List.countP_eq_zero.2 hnone, hnone _ (List.getElem_mem hv)]

/-- The rows before rotation 0 and those equal to it are the rows that do not stand after it. -/
theorem rowsBelow_add_rowsEqual (block : List Byte) :
    rowsBelow block + rowsEqual block =
      (List.range block.length).countP (fun r => !lexLt (rotation block 0) (rotation block r)) := by
  unfold rowsBelow rowsEqual
  induction List.range block.length with
  | nil => rfl
  | cons r l ih =>
    have key : (if lexLt (rotation block r) (rotation block 0) then 1 else 0) +
        (if decide (rotation block r = rotation block 0) then 1 else 0) =
        if !lexLt (rotation block 0) (rotation block r) then 1 else 0 := by
      cases hb : lexLt (rotation block r) (rotation block 0) <;> cases ha : lexLt (rotation block 0) (rotation block r)
      · simp [eq_of_not_lexLt hb ha]
      · have hne : rotation block r ≠ rotation block 0 := fun e => by simp [e] at ha
        simp [hne]
      · have hne : rotation block r ≠ rotation block 0 := fun e => by simp [e] at hb
        simp [hne]
      · simp [lexLt_asymm hb] at ha
    simp only [List.countP_cons]
    omega

section
variable {block : List Byte} {pi : List Nat} (hpi : IsRowOrder block pi) {v : Nat} (hv : v < pi.length)
include hpi hv

/-- Before place `lo` of a row order stand exactly the rotations before rotation 0 (42_bwt_engine.md R163). -/
theorem IsRowOrder.lt_rowsBelow_iff :
    v < rowsBelow block ↔ lexLt (rotation block pi[v]) (rotation block 0) = true := by
  rw [rowsBelow, ← hpi.1.countP_eq]
  refine lt_countP_iff (hpi.2.imp fun {p q} hpq hq => ?_) hv
  by_contra hp
  have h0 : RowLe block 0 q := RowLe.trans (by simpa [RowLe] using hp) hpq
  simp [RowLe, hq] at h0

/-- Before place `lo + cnt` of a row order stand exactly the rotations not after rotation 0 (42_bwt_engine.md R163). -/
theorem IsRowOrder.lt_rowsBelow_add_rowsEqual_iff :
    v < rowsBelow block + rowsEqual block ↔ RowLe block pi[v] 0 := by
  rw [rowsBelow_add_rowsEqual, ← hpi.1.countP_eq, lt_countP_iff (hpi.2.imp fun {p q} hpq hq => ?_) hv]
  · simp [RowLe]
  · have h0 : RowLe block p 0 := RowLe.trans hpq (by simpa [RowLe] using hq)
    simpa [RowLe] using h0

/-- The places `[lo, lo + cnt - 1]` of a row order are those of the rotations equal to rotation 0. -/
theorem IsRowOrder.rotation_eq_iff :
    rotation block pi[v] = rotation block 0 ↔ rowsBelow block ≤ v ∧ v < rowsBelow block + rowsEqual block := by
  rw [hpi.lt_rowsBelow_add_rowsEqual_iff hv, ← Nat.not_lt, hpi.lt_rowsBelow_iff hv]
  refine ⟨fun e => by simp [RowLe, e], fun ⟨h, h'⟩ => eq_of_not_lexLt (by simpa using h) h'⟩

end

theorem swap_lt_iff {n p q r : Nat} (hp : p < n) (hq : q < n) : Equiv.swap p q r < n ↔ r < n := by
  rw [Equiv.swap_apply_def]
  split
  · next e => omega
  · split <;> omega

/-- A row order with two equal rotations in each other's places is a row order. -/
theorem IsRowOrder.map_swap {block : List Byte} {pi : List Nat} (h : IsRowOrder block pi) {p q : Nat}
    (hp : p < block.length) (hq : q < block.length) (he : rotation block p = rotation block q) :
    IsRowOrder block (pi.map (Equiv.swap p q)) := by
  have hrot : ∀ r, rotation block (Equiv.swap p q r) = rotation block r := by
    intro r
    rw [Equiv.swap_apply_def]
    split
    · next e => rw [e, he]
    · split
      · next e => rw [e, he]
      · rfl
  have hrows : ∀ r, r ∈ pi ↔ r < block.length := fun r => h.1.mem_iff.trans List.mem_range
  refine ⟨?_, List.pairwise_map.2 (h.2.imp fun hab => by simpa only [RowLe, hrot] using hab)⟩
  refine (List.perm_ext_iff_of_nodup ?_ List.nodup_range).2 fun r => ?_
  · exact (h.1.nodup_iff.2 List.nodup_range).map (Equiv.injective _)
  · have hinv : Function.Involutive (Equiv.swap p q) := Equiv.congr_fun (Equiv.swap_swap p q)
    rw [List.mem_map_of_involutive hinv, hrows, swap_lt_iff hp hq, List.mem_range]

/-- Settles O46: rotation 0 stands where rotations equal to it stand, and may stand in each of those places. -/
theorem startPointerRangeIsExact : Obligations.StartPointerRangeIsExact := by
  refine fun block v h1 => ⟨one_le_rowsEqual h1, fun ⟨pi, hpi, hv⟩ => ?_, fun hv => ?_⟩
  · obtain ⟨hlt, h0⟩ := List.getElem?_eq_some_iff.1 hv
    exact (hpi.rotation_eq_iff hlt).1 (by rw [h0])
  · have hpi := isRowOrder_rowOrder block
    have hle := rowsBelow_add_rowsEqual_le block
    have hlt : v < (rowOrder block).length := by rw [rowOrder_length]; omega
    have hrow : (rowOrder block)[v] < block.length := List.mem_range.1 (hpi.1.mem_iff.1 (List.getElem_mem hlt))
    refine ⟨_, hpi.map_swap hrow h1 ((hpi.rotation_eq_iff hlt).2 hv), ?_⟩
    rw [List.getElem?_map, List.getElem?_eq_getElem hlt, Option.map_some, Equiv.swap_apply_left]

/-! ## The smallest period -/

theorem rotation_eq_rotate {block : List Byte} {r : Nat} (h : r ≤ block.length) : rotation block r = block.rotate r :=
  (List.rotate_eq_drop_append_take h).symm

/-- After how many bytes the cyclic block first repeats. -/
noncomputable def cyclePeriod (block : List Byte) : Nat :=
  Function.minimalPeriod (fun l : List Byte => l.rotate 1) block

theorem iterate_rotate_one (block : List Byte) (k : Nat) :
    (fun l : List Byte => l.rotate 1)^[k] block = block.rotate k := by
  induction k with
  | zero => simp
  | succ k ih => rw [Function.iterate_succ_apply', ih, List.rotate_rotate]

/-- The cyclic block repeats after exactly the multiples of its period. -/
theorem rotate_eq_self_iff (block : List Byte) (k : Nat) : block.rotate k = block ↔ cyclePeriod block ∣ k := by
  rw [← iterate_rotate_one]
  exact Function.isPeriodicPt_iff_minimalPeriod_dvd

theorem cyclePeriod_dvd_length (block : List Byte) : cyclePeriod block ∣ block.length :=
  (rotate_eq_self_iff block _).1 (List.rotate_length block)

/-- A period of the block is a divisor of its length by which it can be turned (42_bwt_engine.md R183). -/
theorem isPeriod_iff {block : List Byte} {p : Nat} :
    IsPeriod block p ↔ 1 ≤ p ∧ p ∣ block.length ∧ block.rotate p = block := by
  refine and_congr_right fun _ => and_congr_right fun _ => ⟨fun h => ?_, fun h j hj => ?_⟩
  · apply List.ext_getElem (by simp)
    intro j _ hj
    have hmod : (j + p) % block.length < block.length := Nat.mod_lt _ (by omega)
    rw [List.getElem_rotate, ← List.getD_eq_getElem _ 0#8 hmod, ← h j hj, List.getD_eq_getElem _ _ hj]
  · have hmod : (j + p) % block.length < block.length := Nat.mod_lt _ (by omega)
    rw [List.getD_eq_getElem _ _ hmod, ← List.getElem_rotate _ _ _ (by simpa using hj), List.getD_eq_getElem _ _ hj]
    simp [h]

/-- The smallest period of a block is that of the cyclic block (42_bwt_engine.md R183). -/
theorem cyclePeriod_eq {block : List Byte} {p : Nat} (h1 : 1 ≤ block.length) (hp : IsPeriod block p)
    (hmin : ∀ q, IsPeriod block q → p ≤ q) : cyclePeriod block = p := by
  obtain ⟨hp1, -, hrot⟩ := isPeriod_iff.1 hp
  have hdvd := cyclePeriod_dvd_length block
  have hc : IsPeriod block (cyclePeriod block) :=
    isPeriod_iff.2 ⟨Nat.pos_of_dvd_of_pos hdvd h1, hdvd, (rotate_eq_self_iff block _).2 dvd_rfl⟩
  exact Nat.le_antisymm (Nat.le_of_dvd hp1 ((rotate_eq_self_iff block p).1 hrot)) (hmin _ hc)

/-- The rotations equal to rotation 0 start at the multiples of the period. -/
theorem rotation_eq_rotation_zero_iff {block : List Byte} {r : Nat} (h : r < block.length) :
    rotation block r = rotation block 0 ↔ cyclePeriod block ∣ r := by
  rw [rotation_eq_rotate h.le, rotation_eq_rotate (Nat.zero_le _), List.rotate_zero, rotate_eq_self_iff]

theorem rowsEqual_eq {block : List Byte} (h1 : 1 ≤ block.length) :
    rowsEqual block = block.length / cyclePeriod block := by
  have hdvd := cyclePeriod_dvd_length block
  have hcount := Nat.count_modEq_card block.length (Nat.pos_of_dvd_of_pos hdvd h1) 0
  rw [Nat.zero_mod, Nat.mod_eq_zero_of_dvd hdvd, if_neg (lt_irrefl 0), Nat.add_zero] at hcount
  rw [← hcount, Nat.count]
  refine List.countP_congr fun r hr => ?_
  simp [rotation_eq_rotation_zero_iff (List.mem_range.1 hr), Nat.modEq_zero_iff_dvd]

/-- Settles O48: the rotations equal to rotation 0 start at the multiples of `p`, of which there are `n / p` below
`n`. -/
theorem equalRowsCountThePeriods : Obligations.EqualRowsCountThePeriods := by
  intro block p h1 hp hmin
  have hc := cyclePeriod_eq h1 hp hmin
  have hrows := rowsEqual_eq h1
  rw [hc] at hrows
  exact ⟨hrows ▸ Nat.div_dvd_of_dvd hp.2.1, hrows⟩

/-! ## The cyclic inverse -/

/-- Sorted by a key, and entries of one key in rising order. -/
abbrev StableLt (key : Nat → Nat) (p q : Nat) : Prop := key p < key q ∨ key p = key q ∧ p < q

theorem orderedInsert_stable {key : Nat → Nat} {a : Nat} {l : List Nat} (hl : l.Pairwise (StableLt key))
    (ha : ∀ b ∈ l, a < b) : (l.orderedInsert (fun p q => key p ≤ key q) a).Pairwise (StableLt key) := by
  induction l with
  | nil => simp
  | cons b l ih =>
    obtain ⟨hb, hl'⟩ := List.pairwise_cons.1 hl
    obtain ⟨hab, hal⟩ := List.forall_mem_cons.1 ha
    simp only [List.orderedInsert]
    split
    · next hle =>
      refine List.pairwise_cons.2 ⟨List.forall_mem_cons.2 ⟨by unfold StableLt; omega, fun c hc => ?_⟩, hl⟩
      have hbc := hb c hc
      have hac := hal c hc
      unfold StableLt at hbc ⊢
      omega
    · next hlt =>
      refine List.pairwise_cons.2 ⟨fun c hc => ?_, ih hl' hal⟩
      rcases (List.mem_orderedInsert _).1 hc with rfl | hc
      · exact .inl (by omega)
      · exact hb c hc

/-- An insertion sort by a key leaves the entries of one key in rising order, where they were so. -/
theorem insertionSort_stable (key : Nat → Nat) {l : List Nat} (h : l.Pairwise (· < ·)) :
    (l.insertionSort (fun p q => key p ≤ key q)).Pairwise (StableLt key) := by
  induction l with
  | nil => simp
  | cons a l ih =>
    obtain ⟨ha, hl⟩ := List.pairwise_cons.1 h
    exact orderedInsert_stable (ih hl) fun b hb => ha b ((List.mem_insertionSort _).1 hb)

/-- The first byte decides the order of two rotations, and where it is one byte the next rotations do. -/
theorem rowLe_of_first {block : List Byte} {p q : Nat} (hp : p < block.length) (hq : q < block.length)
    (h : (byteAt block 0 p).toNat < (byteAt block 0 q).toNat ∨
      byteAt block 0 p = byteAt block 0 q ∧ RowLe block ((p + 1) % block.length) ((q + 1) % block.length)) :
    RowLe block p q := by
  rcases h with hlt | ⟨heq, hle⟩
  · obtain ⟨x, hx, -⟩ := rotation_step block hp
    obtain ⟨y, hy, -⟩ := rotation_step block hq
    have hne : byteAt block 0 q ≠ byteAt block 0 p := fun e => by simp [e] at hlt
    simp [RowLe, hx, hy, lexLt, hne]
    omega
  · rwa [RowLe, ← lexLt_rotation_step hq hp heq.symm]

/-- The last byte of a row is the byte before its start. -/
theorem lastByte_eq_byteAt {block : List Byte} {p : Nat} (h : p < block.length) :
    lastByte block p = byteAt block 0 (previous block.length p) :=
  (byteAt_zero (previous_lt h)).symm

/-- Row `i` of the engine's row order. -/
abbrev rowAt (block : List Byte) (i : Nat) : Nat := (rowOrder block).getD i 0

theorem rowAt_lt {block : List Byte} {i : Nat} (h : i < block.length) : rowAt block i < block.length := by
  have hi : i < (rowOrder block).length := by simpa using h
  rw [rowAt, List.getD_eq_getElem _ _ hi]
  exact List.mem_range.1 ((rowOrder_perm block).mem_iff.1 (List.getElem_mem hi))

theorem transform_getD {block : List Byte} {i : Nat} (h : i < block.length) :
    (transform block).getD i 0#8 = lastByte block (rowAt block i) := by
  simp [transform, h]

theorem inverseLinks_perm (block : List Byte) : (inverseLinks (transform block)).Perm (List.range block.length) := by
  simpa [inverseLinks] using List.perm_insertionSort _ (List.range (transform block).length)

theorem inverseLinks_lt {block : List Byte} {i : Nat} (h : i < block.length) :
    (inverseLinks (transform block)).getD i 0 < block.length := by
  have hi : i < (inverseLinks (transform block)).length := by simpa [(inverseLinks_perm block).length_eq] using h
  rw [List.getD_eq_getElem _ _ hi]
  exact List.mem_range.1 ((inverseLinks_perm block).mem_iff.1 (List.getElem_mem hi))

/-- The position before the row that row `i` is linked to, for every row `i`. -/
def linkedRows (block : List Byte) : List Nat :=
  (inverseLinks (transform block)).map (fun i => previous block.length (rowAt block i))

/-- Those positions are a row order: sorted by their first bytes, which are those of `L`, and then as the rows after
them (42_bwt_engine.md R182). -/
theorem isRowOrder_linkedRows (block : List Byte) : IsRowOrder block (linkedRows block) := by
  have hlinks := inverseLinks_perm block
  refine ⟨?_, List.pairwise_map.2 ?_⟩
  · have hrows := hlinks.map (rowAt block)
    rw [← rowOrder_length, map_getD_range] at hrows
    have hprev := map_previous_perm (hrows.trans (rowOrder_perm block))
    rwa [List.map_map] at hprev
  · refine (insertionSort_stable _ List.pairwise_lt_range).imp_of_mem fun {i j} hi hj hij => ?_
    have hi : i < block.length := List.mem_range.1 (hlinks.mem_iff.1 hi)
    have hj : j < block.length := List.mem_range.1 (hlinks.mem_iff.1 hj)
    have hi' := rowAt_lt hi
    have hj' := rowAt_lt hj
    refine rowLe_of_first (previous_lt hi') (previous_lt hj') ?_
    rw [previous_add_one hi', previous_add_one hj', ← lastByte_eq_byteAt hi', ← lastByte_eq_byteAt hj',
      ← transform_getD hi, ← transform_getD hj]
    refine hij.imp_right fun ⟨heq, hlt⟩ => ⟨BitVec.eq_of_toNat_eq heq, ?_⟩
    have hsorted := (isRowOrder_rowOrder block).2
    rw [List.pairwise_iff_getElem] at hsorted
    simpa [rowAt, hi, hj] using hsorted i j (by simpa using hi) (by simpa using hj) hlt

/-- A row is linked to the row of the next rotation (42_bwt_engine.md R182). -/
theorem rotation_previous_link {block : List Byte} {i : Nat} (h : i < block.length) :
    rotation block (previous block.length (rowAt block ((inverseLinks (transform block)).getD i 0))) =
      rotation block (rowAt block i) := by
  have heq := congrArg (·[i]?) ((isRowOrder_linkedRows block).map_rotation_eq (isRowOrder_rowOrder block))
  have hl : i < (inverseLinks (transform block)).length := by simpa [(inverseLinks_perm block).length_eq] using h
  simpa [linkedRows, h, hl] using heq

/-- From a row the links give its rotation, byte by byte. -/
theorem followLinks_eq {block : List Byte} {k : Nat} (hk : k ≤ block.length) {i : Nat} (hi : i < block.length) :
    followLinks (transform block) (inverseLinks (transform block)) i k = (rotation block (rowAt block i)).take k := by
  induction k generalizing i with
  | zero => rfl
  | succ k ih =>
    have hnext := inverseLinks_lt hi
    have hrow := rowAt_lt hnext
    obtain ⟨x, hx, hx'⟩ := rotation_step block (previous_lt hrow)
    rw [previous_add_one hrow] at hx'
    have hlen : k ≤ x.length := by
      have := congrArg List.length hx'
      simp at this
      omega
    simp only [followLinks]
    rw [ih (by omega) hnext, hx', transform_getD hnext, lastByte_eq_byteAt hrow, ← rotation_previous_link hi, hx,
      List.take_succ_cons, List.take_append_of_le_length hlen]

/-- Settles O47: from a row of a rotation equal to rotation 0 the links give rotation 0, which is the block. -/
theorem inverseTransformReconstructsTheBlock : Obligations.InverseTransformReconstructsTheBlock := by
  intro block v hlo hhi
  have hv : v < block.length := by have := rowsBelow_add_rowsEqual_le block; omega
  have hv' : v < (rowOrder block).length := by simpa using hv
  have hrot := ((isRowOrder_rowOrder block).rotation_eq_iff hv').2 ⟨hlo, hhi⟩
  rw [inverseTransform, transform_length, followLinks_eq le_rfl hv, rowAt, List.getD_eq_getElem _ _ hv', hrot]
  simp [rotation]

end Sys2Proof.Machine
end

section
/-! SUPPORT. Proofs of the statements about the sort (42_bwt_engine.md R174, R175, R179): the sub-sorts of SSSORT, depth
doubling, and the invariant every step of the machine keeps. -/

namespace Sys2Proof.Machine

/-! ## The sub-sorts of SSSORT -/

/-- A partition stands in three parts by the pivot. -/
theorem partition3_parts (key : Word → Nat) (v : Nat) (xs : List Word) :
    (partition3 key v xs).Pairwise (fun x y => key x < v ∨ v < key y ∨ key x = v ∧ key y = v) := by
  refine (partition3_pairwise key v xs).imp fun {x y} hxy => ?_
  unfold side at hxy
  split_ifs at hxy <;> omega

/-- Which sub-sort takes a range (42_bwt_engine.md R174). -/
theorem ssMethod_cases (size : Nat) (limit : BitVec 32) :
    (ssMethod size limit = .insertion ↔ size < 8) ∧ (ssMethod size limit = .heap ↔ 8 ≤ size ∧ limit.toInt < 0) ∧
      (ssMethod size limit = .multikey ↔ 8 ≤ size ∧ 0 ≤ limit.toInt) := by
  unfold ssMethod Config.ssInsertionSortThreshold
  split
  · simp; omega
  · split <;> simp <;> omega

/-- The next block taken up: PA and ISA stay, and a block of two entries or more has one frame, at depth 0 and with a
fresh limit (42_bwt_engine.md R174). -/
theorem takeBlock_spec {w : SortWork} (hb : BoundsInv w.engine) (hp : w.pa.length = w.engine.pa.len)
    (h0 : w.engine.ssize = 0) {k : Nat} (hk : k = min Config.ssBlockSize (w.pa.length - w.engine.taken))
    (hlt : w.engine.taken < w.pa.length) :
    ∃ v, takeBlock w = some v ∧ v.pa = w.pa ∧ v.isa = w.isa ∧ v.engine.taken = w.engine.taken + k ∧
      (framesOf v.engine).length = (if 2 ≤ k then 1 else 0) ∧
      ∀ f ∈ framesOf v.engine, frameRange w.engine.pa f = (w.engine.taken, k) ∧ f.depth = 0#32 ∧ 0 ≤ f.limit.toInt := by
  obtain ⟨e, he⟩ := Option.ne_none_iff_exists'.1 (pushFrames_empty (first := w.engine.pa.base + w.engine.taken)
    (size := k) (depth := 0#32) (limit := (Config.ssDepthLimit k).setWidth 32) h0)
  obtain ⟨honly, hframes, -, -⟩ := pushFrames_frames he (by omega)
  rw [framesOf_zero h0, List.nil_append] at hframes
  have htaken : e.taken = w.engine.taken := by rw [honly]
  have hin := hb.pa_inside
  have hn := w.engine.nLat.isLt
  have hk' : w.engine.taken + k ≤ w.pa.length := by omega
  refine ⟨{ w with engine := { e with taken := e.taken + k } }, ?_, rfl, rfl, congrArg (· + k) htaken, ?_, ?_⟩
  · simp only [takeBlock, ← hk, he, Option.map_some]
  · exact (congrArg List.length hframes).trans (partFrame_length _ _ _ _)
  · intro f hf
    obtain ⟨-, -, -, hdepth, hlimit, hrange⟩ := mem_partFrame (pa := w.engine.pa) (hframes ▸ hf : f ∈ _) (by omega)
    refine ⟨by rw [hrange, Nat.add_sub_cancel_left], hdepth, hlimit ▸ freshLimit_ok _⟩

/-- Settles O39: each sub-sort by its own law, the choice among them by `ssMethod_cases`, a block by
`takeBlock_spec`. -/
theorem substringSortsAgree : Obligations.SubstringSortsAgree := by
  refine ⟨fun block d k v method xs ys => ?_, fun size buffer limit => ?_, fun w hb hp h0 hlt => ?_⟩
  · exact ⟨⟨sortByPrefix_perm block d xs, sortByPrefix_pairwise block d xs⟩,
      ⟨mergeBy_perm method block d xs ys, mergeBy_pairwise method⟩, partition3_perm _ v xs, partition3_parts _ v xs⟩
  · obtain ⟨hinsertion, hheap, hmultikey⟩ := ssMethod_cases size limit
    exact ⟨hinsertion, hheap, hmultikey, rfl⟩
  · exact takeBlock_spec hb hp h0 rfl hlt

/-! ## Depth doubling -/

/-- TRSORT starts from the ranks by a number of bytes (42_bwt_engine.md R175). -/
theorem rankAt_ranks {block : List Byte} {d : Nat} {pa : List Word} (hl : pa.length < 2 ^ 32) {x : Word} (hx : x ∈ pa) :
    rankAt (textOrder pa) (ranks block d pa) (entryPos x) = prefixRank block d pa (entryPos x) :=
  rankAt_map _ (fun _ _ => List.countP_le_length.trans_lt hl) (entryPos_mem_textOrder hx)

section
variable {block : List Byte} {ps : List Nat} {h p q : Nat}

/-- All B* suffixes ahead is once around the block. -/
theorem aheadDistance_length (hp : p ∈ ps) : aheadDistance block.length ps ps.length p = block.length := by
  have hi := List.idxOf_lt_length_of_mem hp
  have hahead : ahead ps ps.length p = p := by
    simp [ahead, Nat.mod_eq_of_lt hi, hi]
  rw [aheadDistance, hahead, Nat.add_div_right _ (by omega), Nat.div_eq_of_lt hi]
  omega

/-- Ties that agree past all B* suffixes are equal rotations (42_bwt_engine.md R175). -/
theorem AgreeAhead.rotation_eq (ht : InText block.length ps) (hp : p ∈ ps) (hq : q ∈ ps) (hh : ps.length ≤ h)
    (hd : aheadDistance block.length ps h p = aheadDistance block.length ps h q) (ha : AgreeAhead block ps h p q) :
    rotation block p = rotation block q := by
  obtain ⟨k, rfl⟩ := Nat.exists_eq_add_of_le hh
  have hfar : block.length ≤ aheadDistance block.length ps (ps.length + k) p := by
    rw [aheadDistance_add ht hp, aheadDistance_length hp]
    omega
  have htake := (take_eq_iff le_rfl (ht.inside p hp) (ht.inside q hq)).2 fun j hj => ha hd j (by omega)
  rwa [List.take_of_length_le (by simp), List.take_of_length_le (by simp)] at htake

end

/-- Settles O40: the first ranks by `prefixRank_lt_iff`, the order and the ties by those of the B* suffixes `h` ahead,
and the end where `h` goes once around the block. -/
theorem depthDoublingDoublesTheDepth : Obligations.DepthDoublingDoublesTheDepth := by
  refine ⟨fun block d pa hl x hx y hy => ?_, fun block ps isa h p q hrise hin hp hq hsound hties htie hd => ?_⟩
  · rw [rankAt_ranks hl hx, rankAt_ranks hl hy]
    exact prefixRank_lt_iff (List.mem_map_of_mem hx)
  · have ht : InText block.length ps := ⟨hrise, hin⟩
    have hpq := hties p hp q hq htie
    refine ⟨fun hlt => ?_, fun heq => ?_, fun hh => hpq.rotation_eq ht hp hq hh hd⟩
    · exact lexLt_of_ahead ht hp hq hd hpq (hsound _ (ahead_mem hp) _ (ahead_mem hq) hlt)
    · exact hpq.double ht hp hq hd (hties _ (ahead_mem hp) _ (ahead_mem hq) heq)

/-! ## The invariant of the sort, over its work -/

/-- PA lists the B* positions of a block, for some class of its last position. -/
def ListsBStar (block : List Byte) (pa : List Word) : Prop :=
  ∃ last, (pa.map entryPos).Perm (bStarPositions (suffixClasses last block))

section
variable {block : List Byte} {pa qa : List Word}

theorem ListsBStar.congr (h : ListsBStar block pa) (hp : (qa.map entryPos).Perm (pa.map entryPos)) :
    ListsBStar block qa :=
  h.imp fun _ => hp.trans

theorem ListsBStar.lt (h : ListsBStar block pa) {x : Word} (hx : x ∈ pa) : entryPos x < block.length := by
  obtain ⟨last, hperm⟩ := h
  simpa using bStarPositions_lt (hperm.mem_iff.1 (List.mem_map_of_mem hx))

theorem ListsBStar.inText (h : ListsBStar block pa) : InText block.length (textOrder pa) := by
  refine inText_textOrder ?_ fun x => h.lt
  obtain ⟨last, hperm⟩ := h
  exact hperm.nodup_iff.2 (List.nodup_range.filter _)

end

/-- What the invariant of the sort says of the sort's work, as far as the phase has come: all of it but that `L` is in
place in the end (`sortInv_iff_work`). -/
def WorkInv (block : List Byte) (w : SortWork) : Prop :=
  match w.engine.phase with
  | .idle => True
  | .classify => True
  | .sssort => ListsBStar block w.pa ∧
      SubstringInv block (substringDepth block.length (textOrder w.pa)) w.engine w.pa
  | .trsort => ListsBStar block w.pa ∧ RefineInv block w.engine w.pa w.isa
  | .construct => ListsBStar block w.pa ∧ (w.pa.map entryPos).Pairwise (RowLe block)

section
variable {block : List Byte} {w v : SortWork}

theorem workInv_sssort (hp : w.engine.phase = .sssort) : WorkInv block w ↔ ListsBStar block w.pa ∧
    SubstringInv block (substringDepth block.length (textOrder w.pa)) w.engine w.pa := by
  rw [WorkInv, hp]

theorem workInv_trsort (hp : w.engine.phase = .trsort) :
    WorkInv block w ↔ ListsBStar block w.pa ∧ RefineInv block w.engine w.pa w.isa := by
  rw [WorkInv, hp]

theorem workInv_construct (hp : w.engine.phase = .construct) :
    WorkInv block w ↔ ListsBStar block w.pa ∧ (w.pa.map entryPos).Pairwise (RowLe block) := by
  rw [WorkInv, hp]

/-- The buckets, the buffer and the count of internal steps have no part in it. -/
theorem WorkInv.congr (h : WorkInv block w) (bucketA bucketB : Memory (BitVec 32)) (buffer : Region) (work : Nat) :
    WorkInv block { w with
      engine := { w.engine with bucketA := bucketA, bucketB := bucketB, buffer := buffer, work := work } } := by
  cases hp : w.engine.phase with
  | idle | classify => simp [WorkInv, hp]
  | sssort =>
    obtain ⟨hlist, hsub⟩ := (workInv_sssort hp).1 h
    exact (workInv_sssort (by exact hp)).2 ⟨hlist, { hsub with }⟩
  | trsort =>
    obtain ⟨hlist, href⟩ := (workInv_trsort hp).1 h
    exact (workInv_trsort (by exact hp)).2 ⟨hlist, { href with }⟩
  | construct => exact (workInv_construct (by exact hp)).2 ((workInv_construct hp).1 h)

end

/-- Until the induction ends, the invariant of the sort is that of its work. -/
theorem sortInv_iff_work {s : State} (hw : s.engine.phase = .construct → s.engine.work ≠ 0) :
    SortInv s ↔ WorkInv (blockOf s (runLength s)) (loadWork s) := by
  constructor
  · intro h
    cases hp : s.engine.phase with
    | idle | classify => simp [WorkInv, loadWork, hp]
    | sssort => exact (workInv_sssort hp).2 ⟨h.bStar (.inl hp), by rw [blockOf_length]; exact h.substring hp⟩
    | trsort => exact (workInv_trsort hp).2 ⟨h.bStar (.inr (.inl hp)), h.refined hp⟩
    | construct => exact (workInv_construct hp).2 ⟨h.bStar (.inr (.inr ⟨hp, hw hp⟩)), h.sorted hp (hw hp)⟩
  · intro h
    refine ⟨?_, fun hp => ?_, fun hp => ((workInv_trsort hp).1 h).2, fun hp _ => ((workInv_construct hp).1 h).2,
      fun hp h0 => absurd h0 (hw hp)⟩
    · rintro (hp | hp | ⟨hp, -⟩)
      · exact ((workInv_sssort hp).1 h).1
      · exact ((workInv_trsort hp).1 h).1
      · exact ((workInv_construct hp).1 h).1
    · obtain ⟨-, hsub⟩ := (workInv_sssort hp).1 h
      rw [blockOf_length] at hsub
      exact hsub

/-! ## The steps of the sort -/

/-- What a step of the sort works with: hidden state inside its bounds, and entries for a block of `n` bytes. -/
structure WorkBounds (block : List Byte) (w : SortWork) : Prop where
  bounds  : BoundsInv w.engine
  nLat    : w.engine.nLat.toNat = block.length
  entries : w.pa.length = w.engine.pa.len

section
variable {block : List Byte} {w v : SortWork}

theorem WorkBounds.pa_end (h : WorkBounds block w) :
    w.engine.pa.base + w.pa.length ≤ block.length + 1 := by
  rw [h.entries, ← h.nLat]
  exact h.bounds.pa_inside

theorem WorkBounds.length_lt (h : WorkBounds block w) : block.length < 2 ^ 24 := by
  rw [← h.nLat]
  exact w.engine.nLat.isLt

theorem WorkBounds.depth_le (h : WorkBounds block w) : w.engine.depth ≤ block.length + 1 := by
  have := h.bounds.depth_le
  have := h.bounds.m_le
  have := h.nLat
  omega

/-- A step of the substring sort (42_bwt_engine.md R174). -/
theorem WorkInv.substring (h : WorkInv block w) (hb : WorkBounds block w) (hp : w.engine.phase = .sssort) {n free : Nat}
    (hn : block.length = n) (hv : substringStep block n free w = some v ∨ v = substringSpill block n w) :
    WorkInv block v := by
  subst hn
  obtain ⟨hlist, hsub⟩ := (workInv_sssort hp).1 h
  have hstep := substringStep_spec hb.nLat.symm hv
  have hlen := hb.length_lt
  have hnext := hsub.step rfl (by omega) hb.bounds.stack_depth (fun x => hlist.lt) hb.pa_end hv
  have hp' : v.engine.phase = .sssort := by rw [hstep.only]; exact hp
  refine (workInv_sssort hp').2 ⟨hlist.congr hstep.positions, ?_⟩
  rwa [textOrder_congr hstep.positions]

/-- A step of the refinement (42_bwt_engine.md R175, R176). -/
theorem WorkInv.refinement (h : WorkInv block w) (hb : WorkBounds block w) (hp : w.engine.phase = .trsort)
    {n free : Nat} (hn : block.length = n) (hv : refinementStep block n free w = some v ∨ v = refinementSpill block w) :
    WorkInv block v := by
  subst hn
  obtain ⟨hlist, href⟩ := (workInv_trsort hp).1 h
  have hstep := refinementStep_spec hv
  have hlen := hb.length_lt
  have hend := hb.pa_end
  have hdepth := hb.depth_le
  have hnext := href.step rfl hlist.inText hb.bounds.stack_depth (by omega) (by omega) hv
  have hp' : v.engine.phase = .trsort := by rw [hstep.only]; exact hp
  exact (workInv_trsort hp').2 ⟨hlist.congr hstep.positions, hnext⟩

/-- The substring sort hands PA on in the order of the substrings (42_bwt_engine.md R174, R175). -/
theorem WorkInv.startRefinement (h : WorkInv block w) (hb : WorkBounds block w) (hp : w.engine.phase = .sssort)
    (hd : substringsDone w = true) {n : Nat} (hn : block.length = n) (k : Nat) :
    WorkInv block { startRefinement block n w with
      engine := { (startRefinement block n w).engine with phase := .trsort, work := k } } := by
  subst hn
  obtain ⟨hlist, hsub⟩ := (workInv_sssort hp).1 h
  have hlen := hb.length_lt
  have hend := hb.pa_end
  have hempty : w.engine.ssize = 0 := (of_decide_eq_true hd).1
  refine (workInv_trsort rfl).2 ⟨hlist.congr (by simp [Machine.startRefinement]), ?_⟩
  exact { RefineInv.start rfl hlist.inText (by omega) hempty (hsub.done hd) with }

/-- The refinement hands PA on in the order of the rotations (42_bwt_engine.md R175, R179). -/
theorem WorkInv.startInduction (h : WorkInv block w) (hp : w.engine.phase = .trsort) (hd : refinementDone w = true)
    (k : Nat) :
    WorkInv block { w with
      engine := { w.engine with phase := .construct, work := k }, pa := unmarked w.pa } := by
  obtain ⟨hlist, href⟩ := (workInv_trsort hp).1 h
  refine (workInv_construct rfl).2 ⟨hlist.congr (by simp), ?_⟩
  simpa using href.done hd

end

/-- CLASSIFY hands on PA with the B* positions, of which SSSORT has taken up none (42_bwt_engine.md R173). -/
theorem workInv_classified (u : State) (k : Nat) (isa : List Word) :
    WorkInv (blockOf u (runLength u))
      ⟨{ (classifiedWork u).engine with phase := .sssort, work := k }, (classifiedWork u).pa, isa⟩ := by
  have hc := classifiedWork_spec u
  have hn := u.engine.nLat.isLt
  refine (workInv_sssort rfl).2 ⟨⟨Config.freeClass u.draws, bucketed_positions _ fun p hp => ?_⟩, ?_⟩
  · have hlt := bStarPositions_lt hp
    simp only [suffixClasses_length, blockOf_length, runLength] at hlt
    omega
  · exact .start _ _ _ hc.ssize hc.sorted hc.taken

/-! ## The engine's steps -/

/-- An engine that does not sort owes the sort nothing. -/
theorem sortInv_of_not_sorting {s : State} (h : s.engine.phase = .idle ∨ s.engine.phase = .classify) : SortInv s := by
  constructor <;> rcases h with h | h <;> simp [h]

theorem blockOf_of_frame {s t : State} (h : EngineFrame s t) :
    blockOf t (runLength t) = blockOf s (runLength s) := by
  have hbyte : engineByte t = engineByte s := funext fun i => by rw [engineByte, engineByte, h.tMem]
  rw [blockOf, blockOf, runLength, runLength, h.nLat, hbyte]

/-- Work that is stored keeps the invariant of the sort. -/
theorem sortInv_storeWork {w : SortWork} {s : State} (hb : BoundsInv w.engine) (hn : w.engine.nLat = s.engine.nLat)
    (hp : w.pa.length = w.engine.pa.len) (hi : w.isa.length = w.engine.isa.len)
    (hw : w.engine.phase = .construct → w.engine.work ≠ 0) (h : WorkInv (blockOf s (runLength s)) w) :
    SortInv (storeWork w s) := by
  rw [sortInv_iff_work (by rwa [storeWork_engine]), loadWork_storeWork hb hn hp hi,
    blockOf_of_frame (storeWork_frame hn)]
  exact h

/-- The sort's work, as an engine step finds it. -/
theorem workBounds_loadWork {u : State} (hb : BoundsInv u.engine) :
    WorkBounds (blockOf u (runLength u)) (loadWork u) :=
  ⟨hb, by simp [loadWork, runLength], by simp [loadWork]⟩

/-- A step of the sort that keeps the invariant of the work keeps it as it is stored. -/
theorem sortInv_sortStep {u : State} {v : SortWork} (hb : BoundsInv u.engine) (hv : SortStep (loadWork u) v)
    (hp : u.engine.phase ≠ .construct) (h : WorkInv (blockOf u (runLength u)) v) (k : Nat) :
    SortInv (storeWork { v with engine := { v.engine with work := k } } (u.drawn 2)) := by
  have hphase : v.engine.phase = u.engine.phase := by rw [hv.only]; rfl
  have hnLat : v.engine.nLat = u.engine.nLat := by rw [hv.only]; rfl
  have hpa : v.engine.pa = u.engine.pa := by rw [hv.only]; rfl
  have hisa : v.engine.isa = u.engine.isa := by rw [hv.only]; rfl
  have hload : (loadWork u).pa.length = u.engine.pa.len := (workBounds_loadWork hb).entries
  have hentries := hb.entries
  have hisaLen : (loadWork u).isa.length = (loadWork u).pa.length := by
    rw [hload]
    simp [loadWork, hentries]
  refine sortInv_storeWork (s := u.drawn 2) ((hv.bounds hload hb).congr _ k _) hnLat ?_ ?_
    (fun hc => absurd (hphase.symm.trans hc) hp) (h.congr _ _ _ k)
  · exact (hv.paLength.trans hload).trans (congrArg Region.len hpa.symm)
  · refine (hv.isaLength hisaLen).trans (hload.trans ?_)
    rw [hisa, hentries.1, hentries.2]

/-- CLASSIFY leaves what SSSORT starts from (42_bwt_engine.md R173). -/
theorem sortInv_classified {u : State} (hn : 2 ≤ runLength u) {k : Nat} :
    SortInv (enterPhase .sssort k (classifiedWork u) u) := by
  have hc := classifiedWork_spec u
  have hpa : (loadWork (enterPhase .sssort k (classifiedWork u) u)).pa = (classifiedWork u).pa := by
    rw [loadWork, enterPhase_engine]
    refine (storeWork_read (s := u.drawn 1) (w := { classifiedWork u with
      engine := { (classifiedWork u).engine with phase := .sssort, work := k } }) ?_ hc.regions ?_).2 rfl
    · exact (Nat.lt_of_lt_of_le Nat.zero_lt_two hn).ne'
    · simpa [classifiedWork] using hc.pa_len.symm
  have hload : loadWork (enterPhase .sssort k (classifiedWork u) u) =
      ⟨{ (classifiedWork u).engine with phase := .sssort, work := k }, (classifiedWork u).pa,
        (loadWork (enterPhase .sssort k (classifiedWork u) u)).isa⟩ := by
    rw [← hpa, ← enterPhase_engine .sssort k (classifiedWork u) u]
    rfl
  rw [sortInv_iff_work (by simp), hload, blockOf_of_frame (enterPhase_frame _ _ _ u hc.nLat)]
  exact workInv_classified u k _

/-- A free move leaves the sort alone (42_bwt_engine.md R168). -/
theorem sortInv_moveStep {u : State} (hb : BoundsInv u.engine) (h : SortInv u) (hw : u.engine.work ≠ 0)
    (hc : ¬ (u.engine.phase = .construct ∧ u.engine.work = 1)) : SortInv (moveStep u) := by
  obtain ⟨hm, hwork, -⟩ := moved_spec u (Config.freeMove u.draws)
  unfold moveStep
  generalize moved u (Config.freeMove u.draws) = e at hm hwork ⊢
  have hphase : e.phase = u.engine.phase := by rw [hm.only]
  have hpa : e.pa = u.engine.pa := by rw [hm.only]
  have hisa : e.isa = u.engine.isa := by rw [hm.only]
  have hinv := ((sortInv_iff_work fun _ => hw).1 h).congr e.bucketA e.bucketB e.buffer e.work
  rw [show (loadWork u).engine = u.engine from rfl, ← hm.only] at hinv
  refine sortInv_storeWork (s := u.drawn 1) (hm.bounds hb) (by rw [hm.only]; rfl) ?_ ?_ (fun hp => ?_) hinv
  · simp [loadWork, hpa]
  · simp [loadWork, hisa]
  · have hne := mt (And.intro (hphase.symm.trans hp)) hc
    rw [hwork]
    omega

/-- The end of the induction leaves `L` in place (42_bwt_engine.md R179). -/
theorem sortInv_induceStep {u : State} (hp : u.engine.phase = .construct) (hw : u.engine.work = 1)
    (hs : (paPositions u).Pairwise (RowLe (blockOf u (runLength u)))) : SortInv (induceStep u) := by
  refine ⟨by simp [hp, hw], by simp [hp], by simp [hp], by simp [hw], fun _ _ i hi => ?_⟩
  rw [blockOf_of_frame (induceStep_frame u)]
  exact induceStep_placed hs hi

/-- Every engine step keeps the invariant of the sort (42_bwt_engine.md R173-R175, R179). -/
theorem EngineOutcome.sortInv {u t : State} (ho : EngineOutcome u t) (hb : BoundsInv u.engine) (h : SortInv u) :
    SortInv t := by
  have hwb := workBounds_loadWork hb
  have hlen : (blockOf u (runLength u)).length = runLength u := blockOf_length u _
  have hbt := ho.bounds hb
  have hisa : (loadWork u).isa.length = u.engine.isa.len := by simp [loadWork]
  have work : u.engine.phase ≠ .construct → WorkInv (blockOf u (runLength u)) (loadWork u) := fun hp =>
    (sortInv_iff_work fun hc => absurd hc hp).1 h
  cases ho with
  | idle => exact h
  | complete => exact sortInv_of_not_sorting (.inl rfl)
  | fault => exact sortInv_of_not_sorting (.inl (by simp))
  | classified hp hw hn => exact sortInv_classified hn
  | sorted hp hw hd =>
    rw [enterPhase_engine] at hbt
    refine sortInv_storeWork (s := u.drawn 1) hbt rfl ?_ ?_ (by simp)
      ((work (by simp [hp])).startRefinement hwb hp hd hlen _)
    · simp [startRefinement, loadWork]
    · simp [startRefinement, loadWork, hb.entries]
  | refined hp hw hd =>
    rw [enterPhase_engine] at hbt
    refine sortInv_storeWork (s := u.drawn 1) hbt rfl ?_ hisa (by simp) ((work (by simp [hp])).startInduction hp hd _)
    simp [loadWork]
  | substring hp hw hd v free k hv =>
    have hnext := (work (by simp [hp])).substring hwb hp hlen (hv.imp_right And.right)
    exact sortInv_sortStep hb (EngineOutcome.sortStep (.inl hv)) (by simp [hp]) hnext k
  | refinement hp hw hd v free k hv =>
    have hnext := (work (by simp [hp])).refinement hwb hp hlen (hv.imp_right And.right)
    exact sortInv_sortStep hb (EngineOutcome.sortStep (.inr hv)) (by simp [hp]) hnext k
  | move hw hc => exact sortInv_moveStep hb h hw hc
  | induce hp hw =>
    obtain ⟨-, hsorted⟩ := (workInv_construct hp).1 ((sortInv_iff_work fun _ => by omega).1 h)
    exact sortInv_induceStep hp hw hsorted

/-! ## The steps of the machine -/

/-- The invariant of the sort reads the input, `SA_MEM` and the engine alone. -/
theorem SortInv.outside {s : State} (h : SortInv s) (status : Status) (irqEn : BitVec 3) (fault : Option Fault)
    (agent : Agent) (turns : Nat) (levels : List Bool) (draws : Nat) :
    SortInv { s with
      status := status, irqEn := irqEn, modelFault := fault, agent := agent, hostTurns := turns, resetIn := levels,
      draws := draws } :=
  { h with }

/-- The host's writes keep the invariant of the sort: those it may make while the block runs are outside of it. -/
theorem HostWrite.sortInv {clears starts : Prop} {s t : State} (hw : HostWrite clears starts s t)
    (hidle : s.status.busy = false → s.engine.phase = .idle) (h : SortInv s) : SortInv t := by
  cases hw with
  | outside irqEn fault agent draws => exact h.outside s.status irqEn fault agent s.hostTurns s.resetIn draws
  | refused => exact h.outside _ s.irqEn s.modelFault s.agent s.hostTurns s.resetIn s.draws
  | len hb | tMem hb | saMem hb | error hb | clear hb => exact sortInv_of_not_sorting (.inl (hidle hb))
  | start => exact sortInv_of_not_sorting (.inr rfl)

/-- Settles O51: an engine step keeps the invariant of the sort (`EngineOutcome.sortInv`), the host's writes do, and a
block that has been reset does not sort. -/
theorem everyStepKeepsTheSort : Obligations.EveryStepKeepsTheSort := by
  intro s t hinv h hst
  cases step_outcome hst with
  | reset levels hr => exact sortInv_of_not_sorting (.inl rfl)
  | engine levels hm =>
    have hturns : SortInv (turnsDrawn s) := h.outside s.status s.irqEn s.modelFault s.agent _ s.resetIn _
    have hnext := (engineStep_outcome s).sortInv hinv.hidden.toBoundsInv hturns
    exact hnext.outside _ _ _ _ _ levels _
  | host agent turns levels hw =>
    exact hw.sortInv hinv.phase_idle (h.outside s.status s.irqEn s.modelFault agent turns levels s.draws)

end Sys2Proof.Machine
end

section
/-! SUPPORT. Proofs of the statements about exceptions (60_exceptions.md): the host's writes to a busy block, and the
block left idle. -/

namespace Sys2Proof.Machine

/-! ## Writes while busy -/

/-- A busy block refuses every command word but NOP, before it looks at which one it is (41_commands.md R140). -/
theorem commandWrite_busy {w : Word} {s : State} (hw : w ≠ 0#32) (hb : s.status.busy = true) :
    commandWrite w s = refuseWrite s :=
  (if_neg hw).trans (if_pos hb)

/-- Settles O24: each write named is one that `unlessBusy` guards, or a command word, which `commandWrite_busy`
refuses. -/
theorem busyBlockRefusesHostWrites : Obligations.BusyBlockRefusesHostWrites := by
  intro s i hn hb hi
  have hguard : ∀ write, exec i s = .next (unlessBusy write s) → exec i s = .next (refuseWrite s) :=
    fun write h => by rw [h, unlessBusy_busy hb]
  rcases hi with ⟨k, b, hk, rfl⟩ | ⟨k, w, h4, hk, rfl⟩ | ⟨k, w, hk, rfl⟩ | ⟨w, rfl⟩ | ⟨w, hw, rfl⟩
  · exact hguard (writeT k b) (execWr8_mapped b s hn (tAddr_toNat hn hk) hk)
  · exact hguard (writeT32 k w) (execWr32_tMem w s hn (tAddr_toNat hn (by omega)) h4 hk)
  · exact hguard (writeSa k w) (execWr32_saMem w s hn (saAddr_toNat hn hk) hk)
  · exact (lenTakesItsLow24BitsWhileIdle s w).2.1 hb
  · rw [execWr32_cmd, commandWrite_busy hw hb]
    rfl

/-! ## An idle block left alone -/

/-- An idle engine takes no steps (60_exceptions.md R225). -/
theorem engineMoves_idle {s : State} (hb : s.status.busy = false) : engineMoves s = false := by
  simp only [engineMoves, hb, Bool.false_and]

/-- A host has turns to spend only while the block runs. -/
theorem spendTurn_idle {s : State} (hb : s.status.busy = false) : spendTurn s = s := by
  simp [spendTurn, hb]

/-- A host with no line issues nothing (60_exceptions.md R225). -/
theorem hostStep_of_no_line {s : State} (hl : hostLine s = none) : hostStep s = .next s := by
  simp only [hostStep, hl]

/-- Settles O59: the engine does not move, so the host does, which spends no turn and has no line. -/
theorem idleBlockPersists : Obligations.IdleBlockPersists := by
  intro s hb
  refine ⟨engineMoves_idle hb, fun hf hr hl => ?_⟩
  calc step s = hostStep (spendTurn s) := step_host hf hr (engineMoves_idle hb)
    _ = hostStep s := by rw [spendTurn_idle hb]
    _ = .next s := hostStep_of_no_line hl

end Sys2Proof.Machine
end

section
/-! SUPPORT. Proofs of the statements about reset and hazards (70_reset_and_hazards.md): the reset input, the turns of the
host before the engine's next step, and the end of every `wait_idle` loop. -/

namespace Sys2Proof.Machine

/-! ## The reset input -/

/-- The step at an asserted level of the reset input (70_reset_and_hazards.md R240). -/
theorem step_reset {s : State} {levels : List Bool} (hf : s.modelFault = none) (hr : s.resetIn = true :: levels) :
    step s = .next ((blockReset s).setResetIn levels) := by
  simp only [step, machineStep, hf, levelStep, hr]

/-- Settles O52: the next state is `blockReset`, which names the value of each field. -/
theorem resetInputResetsTheBlock : Obligations.ResetInputResetsTheBlock := fun _ _ hf hr =>
  have hword : Status.reset.word = 0#32 := by decide
  ⟨_, step_reset hf hr, hword, rfl, rfl, rfl, rfl, rfl, rfl, fun _ => rfl, fun _ => rfl, hf, rfl, rfl⟩

/-! ## The host's turns while the block runs -/

/-- The engine of a running block waits only while the host has turns left (70_reset_and_hazards.md R256; log 6). -/
theorem hostTurns_pos {s : State} (hb : s.status.busy = true) (he : engineMoves s = false) : 0 < s.hostTurns := by
  refine Nat.pos_of_ne_zero fun h0 => ?_
  simp [engineMoves, hb, h0] at he

theorem spendTurn_busy {s : State} (hb : s.status.busy = true) : spendTurn s = s.setHostTurns (s.hostTurns - 1) :=
  if_pos hb

/-- A host step neither ends a run nor touches the reset input and the host's turns: a running block refuses the host's
writes, and the rest is outside the block. -/
theorem hostStep_busy {s t : State} (h : hostStep s = .next t) (hb : s.status.busy = true) :
    t.status.busy = true ∧ t.resetIn = s.resetIn ∧ t.hostTurns = s.hostTurns := by
  obtain ⟨a, hw⟩ := hostStep_hostWrite h
  cases hw with
  | outside | refused => exact ⟨hb, rfl, rfl⟩
  | len hidle | tMem hidle | saMem hidle | error hidle | clear hidle | start hidle =>
    exact absurd (hb.symm.trans hidle) (by simp)

theorem runSteps_one (s : State) : runSteps 1 s = step s := by
  simp only [runSteps]
  split <;> simp [*]

/-- Settles O37, by induction on the host's turns: each host step spends one, and leaves the block running. -/
theorem engineMovesWithinItsTurns : Obligations.EngineMovesWithinItsTurns := by
  intro s hb hf hr
  induction hn : s.hostTurns using Nat.strong_induction_on generalizing s with
  | _ n ih =>
    cases he : engineMoves s with
    | true => exact ⟨0, Nat.zero_le _, .inr (.inr ⟨s, rfl, .inr ⟨he, step_engine hf hr he⟩⟩)⟩
    | false =>
      have hpos : 0 < n := hn ▸ hostTurns_pos hb he
      have hstep : step s = hostStep (s.setHostTurns (n - 1)) := by rw [step_host hf hr he, spendTurn_busy hb, hn]
      cases ht : hostStep (s.setHostTurns (n - 1)) with
      | refused r => exact ⟨1, hpos, .inl ⟨r, by rw [runSteps_one, hstep, ht]⟩⟩
      | fault r => exact ⟨1, hpos, .inr (.inl ⟨r, by rw [runSteps_one, hstep, ht]⟩)⟩
      | next t =>
        obtain ⟨htb, htr, htn⟩ := hostStep_busy ht hb
        by_cases htf : t.modelFault = none
        · obtain ⟨k, hk, hend⟩ := ih (n - 1) (by omega) t htb htf (htr.trans hr) htn
          rw [← runSteps_succ_of_step (hstep.trans ht) k] at hend
          exact ⟨k + 1, by omega, hend⟩
        · exact ⟨1, hpos, .inr (.inr ⟨t, by rw [runSteps_one, hstep, ht], .inl htf⟩)⟩

/-! ## The lines of a `wait_idle` loop -/

/-- The host `a` stands at the head of a loop `L: rd32 REG_STATUS; jbit 0, L` (30_encoding.md R112). -/
structure AtWaitLoop (a : Agent) (l : Label) : Prop where
  running : a.halted = false
  place   : labelPlace l a.script 0 = some a.line
  label   : a.script[a.line]? = some (.label l)
  read    : a.script[a.line + 1]? = some (.transaction (.bus 0x40000008#32 .none))
  jump    : a.script[a.line + 2]? = some (.jbit 0 l)

/-- The host `a` moved on by `i` lines, with `v` in `RES`. -/
def Agent.movedOn (a : Agent) (i : Nat) (v : Word) : Agent := { a with line := a.line + i, res := v }

section WaitLoop

variable {a : Agent} {l : Label} {s : State} {i : Nat} {v : Word}

/-- The line of a running host that has moved on by `i` lines. -/
theorem hostLine_movedOn (hl : AtWaitLoop a l) (ha : s.agent = a.movedOn i v) :
    hostLine s = a.script[a.line + i]? := by
  simp [hostLine, ha, Agent.movedOn, hl.running]

theorem hostStep_waitLabel (hl : AtWaitLoop a l) (ha : s.agent = a.movedOn 0 v) :
    hostStep s = .next (s.setAgent (a.movedOn 1 v)) := by
  rw [hostStep_of_hostLine ((hostLine_movedOn hl ha).trans hl.label), lineStep, nextLine, ha]
  rfl

/-- The read of the loop puts the word of `STATUS` into `RES`. -/
theorem hostStep_waitRead (hl : AtWaitLoop a l) (ha : s.agent = a.movedOn 1 v) :
    hostStep s = .next (s.setAgent (a.movedOn 2 s.status.word)) := by
  have hd : decode (.bus 0x40000008#32 .none) = .ok (.rd32 0x08#23) := decode_encode (.rd32 0x08#23)
  rw [hostStep_of_hostLine ((hostLine_movedOn hl ha).trans hl.read), lineStep, issue_of_decode hd,
    exec_rd32_reg _ (by decide) (by decide), nextLine, ha]
  rfl

/-- The jump of the loop goes back to its head exactly if bit 0 of `RES` is 1. -/
theorem hostStep_waitJump (hl : AtWaitLoop a l) (ha : s.agent = a.movedOn 2 v) :
    hostStep s = .next (s.setAgent (a.movedOn (if v.getLsbD 0 = true then 0 else 3) v)) := by
  have hp : labelPlace l s.agent.script 0 = some a.line := by rw [ha]; exact hl.place
  have hv : (a.movedOn 2 v).res.getLsbD (0 : Fin 32).val = v.getLsbD 0 := rfl
  rw [hostStep_of_hostLine ((hostLine_movedOn hl ha).trans hl.jump), lineStep, jumpOnBit_of_labelPlace hp, ha, hv]
  cases v.getLsbD 0 <;> rfl

end WaitLoop

/-- The host `b` stands in the loop at whose head `a` stands; at the jump it has read `BUSY = 1`, so it will go round. -/
inductive InWaitLoop (a : Agent) : Agent → Prop
  | label (v : Word) : InWaitLoop a (a.movedOn 0 v)
  | read (v : Word) : InWaitLoop a (a.movedOn 1 v)
  | jump (v : Word) (hv : v.getLsbD 0 = true) : InWaitLoop a (a.movedOn 2 v)

/-- A host in the loop stays in it while the block runs: what it reads of `STATUS` has `BUSY = 1`. -/
theorem hostStep_inWaitLoop {a : Agent} {l : Label} {s : State} (hl : AtWaitLoop a l) (ha : InWaitLoop a s.agent)
    (hb : s.status.busy = true) : ∃ b, InWaitLoop a b ∧ hostStep s = .next (s.setAgent b) := by
  generalize hs : s.agent = c at ha
  cases ha with
  | label v => exact ⟨_, .read v, hostStep_waitLabel hl hs⟩
  | read v => exact ⟨_, .jump _ ((s.status.word_getLsbD 0).trans hb), hostStep_waitRead hl hs⟩
  | jump v hv => exact ⟨_, .label v, by rw [hostStep_waitJump hl hs, if_pos hv]⟩

/-! ## The end of a `wait_idle` loop -/

/-- The block is waited for: no fault, no reset to come, a run inside its bounds if one is on, and a host in the loop. -/
structure WaitedFor (a : Agent) (s : State) : Prop where
  fault  : s.modelFault = none
  reset  : s.resetIn = []
  bounds : s.status.busy = true → s.engine.phase ≠ .idle ∧ BoundsInv s.engine
  host   : InWaitLoop a s.agent

/-- An engine step that does not end the run leaves the block waited for. -/
theorem WaitedFor.after_engineStep {a : Agent} {s : State} (h : WaitedFor a s) (hb : s.status.busy = true) :
    WaitedFor a (engineStep s) := by
  obtain ⟨hp, hbounds⟩ := h.bounds hb
  have hf := engineStep_frame s
  refine ⟨hf.modelFault.trans h.fault, hf.resetIn.trans h.reset, fun hgo => ?_, by rw [hf.agent]; exact h.host⟩
  rcases engineStep_status_or_idle hp with ⟨-, hnext⟩ | hend
  · exact ⟨hnext, (engineStep_less hbounds hp).1⟩
  · exact absurd (hgo.symm.trans hend) (by simp)

/-- The host has come past the loop, with `BUSY = 0` and the last `STATUS` in `RES`. -/
structure PastWaitLoop (a : Agent) (s t : State) : Prop where
  idle  : t.status.busy = false
  fault : t.modelFault = none
  tMem  : t.tMem = s.tMem
  host  : t.agent = a.movedOn 3 t.status.word

section Idle

variable {a : Agent} {l : Label} {s : State} {v : Word}

/-- While the block is idle every step is the host's. -/
theorem step_idle (hf : s.modelFault = none) (hr : s.resetIn = []) (hb : s.status.busy = false) :
    step s = hostStep s := by
  rw [step_host hf hr (engineMoves_idle hb), spendTurn_idle hb]

variable (hl : AtWaitLoop a l) (hf : s.modelFault = none) (hr : s.resetIn = []) (hb : s.status.busy = false)
include hl hf hr hb

/-- The read of an idle block's `STATUS` takes the host past the loop. -/
theorem runSteps_waitRead_idle (ha : s.agent = a.movedOn 1 v) :
    runSteps 2 s = .next (s.setAgent (a.movedOn 3 s.status.word)) := by
  have hread := (step_idle hf hr hb).trans (hostStep_waitRead hl ha)
  have hbit : s.status.word.getLsbD 0 = false := (s.status.word_getLsbD 0).trans hb
  have hjump : step (s.setAgent (a.movedOn 2 s.status.word)) = .next (s.setAgent (a.movedOn 3 s.status.word)) := by
    rw [step_idle (s := s.setAgent (a.movedOn 2 _)) hf hr hb, hostStep_waitJump hl rfl, hbit]
    rfl
  exact (runSteps_succ_of_step hread 1).trans (runSteps_succ_of_step hjump 0)

theorem runSteps_waitLabel_idle (ha : s.agent = a.movedOn 0 v) :
    runSteps 3 s = .next (s.setAgent (a.movedOn 3 s.status.word)) := by
  have hlabel : step s = .next (s.setAgent (a.movedOn 1 v)) := (step_idle hf hr hb).trans (hostStep_waitLabel hl ha)
  rw [runSteps_succ_of_step hlabel]
  exact runSteps_waitRead_idle (s := s.setAgent (a.movedOn 1 v)) hl hf hr hb rfl

/-- A jump on a `STATUS` read before the run ended takes the host round once more. -/
theorem runSteps_waitJump_idle (ha : s.agent = a.movedOn 2 v) (hv : v.getLsbD 0 = true) :
    runSteps 4 s = .next (s.setAgent (a.movedOn 3 s.status.word)) := by
  have hjump : step s = .next (s.setAgent (a.movedOn 0 v)) := by
    rw [step_idle hf hr hb, hostStep_waitJump hl ha, if_pos hv]
  rw [runSteps_succ_of_step hjump]
  exact runSteps_waitLabel_idle (s := s.setAgent (a.movedOn 0 v)) hl hf hr hb rfl

end Idle

/-- With the block idle, the host comes past the loop from wherever in it it stands. -/
theorem WaitedFor.exists_exit_idle {a : Agent} {l : Label} {s : State} (hl : AtWaitLoop a l) (h : WaitedFor a s)
    (hb : s.status.busy = false) : ∃ m t, runSteps m s = .next t ∧ PastWaitLoop a s t := by
  have hpast : PastWaitLoop a s (s.setAgent (a.movedOn 3 s.status.word)) := ⟨hb, h.fault, rfl, rfl⟩
  obtain ⟨hf, hr, -, hin⟩ := h
  generalize hs : s.agent = c at hin
  cases hin with
  | label v => exact ⟨3, _, runSteps_waitLabel_idle hl hf hr hb hs, hpast⟩
  | read v => exact ⟨2, _, runSteps_waitRead_idle hl hf hr hb hs, hpast⟩
  | jump v hv => exact ⟨4, _, runSteps_waitJump_idle hl hf hr hb hs hv, hpast⟩

/-- What is left of the wait: the run, and the turns of the host before the engine's next step. -/
abbrev waitLeft (s : State) : (Nat × (Nat × Nat × Nat × Nat × Nat × Nat) × Nat) × Nat := (runLeft s, s.hostTurns)

theorem waitLess_wf : WellFounded (InvImage (Prod.Lex RunLess (· < ·)) waitLeft) :=
  InvImage.wf waitLeft (WellFounded.prod_lex runLess_wf Nat.lt_wfRel.wf)

/-- Each step of a running block that is waited for ends the run or leaves less of the wait: an engine step leaves less of
the run, a host step the same run and fewer turns (70_reset_and_hazards.md R256). -/
theorem WaitedFor.step_less {a : Agent} {l : Label} {s : State} (hl : AtWaitLoop a l) (h : WaitedFor a s)
    (hb : s.status.busy = true) :
    ∃ t, step s = .next t ∧ WaitedFor a t ∧ t.tMem = s.tMem ∧
      (t.status.busy = false ∨ Prod.Lex RunLess (· < ·) (waitLeft t) (waitLeft s)) := by
  obtain ⟨hp, hbounds⟩ := h.bounds hb
  cases he : engineMoves s with
  | true =>
    refine ⟨_, step_engine h.fault h.reset he, h.after_engineStep hb, (engineStep_frame s).tMem, ?_⟩
    rcases engineStep_status_or_idle hp with ⟨-, hgo⟩ | hend
    · exact .inr (.left _ _ ((engineStep_less hbounds hp).2.resolve_left hgo))
    · exact .inl hend
  | false =>
    obtain ⟨b, hin, hstep⟩ := hostStep_inWaitLoop (s := s.setHostTurns (s.hostTurns - 1)) hl h.host hb
    rw [← spendTurn_busy hb, ← step_host h.fault h.reset he, spendTurn_busy hb] at hstep
    have hturns : s.hostTurns - 1 < s.hostTurns := Nat.sub_one_lt_of_lt (hostTurns_pos hb he)
    exact ⟨_, hstep, ⟨h.fault, h.reset, h.bounds, hin⟩, rfl, .inr (.right _ hturns)⟩

/-- Whatever is left of the wait, it ends. -/
theorem WaitedFor.exists_exit {a : Agent} {l : Label} {s : State} (hl : AtWaitLoop a l) (h : WaitedFor a s) :
    ∃ m t, runSteps m s = .next t ∧ PastWaitLoop a s t := by
  induction s using waitLess_wf.induction with
  | _ s ih =>
    cases hb : s.status.busy with
    | false => exact h.exists_exit_idle hl hb
    | true =>
      obtain ⟨u, hstep, hu, htMem, hless⟩ := h.step_less hl hb
      have hrest : ∃ m t, runSteps m u = .next t ∧ PastWaitLoop a u t :=
        hless.elim (hu.exists_exit_idle hl) (ih u · hu)
      obtain ⟨m, t, hrun, hpast⟩ := hrest
      exact ⟨m + 1, t, (runSteps_succ_of_step hstep m).trans hrun, { hpast with tMem := hpast.tMem.trans htMem }⟩

/-- Settles O38, by induction on what is left of the run and of the host's turns: the host goes round the loop while the
block runs, and the read after the end of the run takes it out. -/
theorem waitIdleLoopEnds : Obligations.WaitIdleLoopEnds := by
  rintro s k l hf hr hhalt hbounds rfl hplace hlabel hread hjump
  have h : WaitedFor s.agent s := ⟨hf, hr, hbounds, .label s.agent.res⟩
  obtain ⟨m, t, hrun, hpast⟩ := h.exists_exit ⟨hhalt, hplace, hlabel, hread, hjump⟩
  exact ⟨m, t, hrun, hpast.idle, hpast.fault, hpast.tMem, hpast.host⟩

end Sys2Proof.Machine
end
